-- ==== Sys2Proof/Word.lean ====
section
/-! DEFINITION. The word types of the engine and their plainest arithmetic (00_scope.md R14, R15). -/

namespace Sys2Proof

/-- A byte: 8 bits (00_scope.md R15). -/
abbrev Byte := BitVec 8

/-- A command header: one 32-bit unsigned number, not a byte sequence (30_encoding.md R101). -/
abbrev Header := BitVec 32

/-- A 32-bit word: the status word (30_encoding.md R112) and the words of `CHACHA20` (47_variant_chacha.md R281). -/
abbrev Word32 := BitVec 32

/-- `ceil8(n)`, the number of bytes that hold `n` bits (00_scope.md R14). -/
def ceil8 (n : Nat) : Nat := (n + 7) / 8

end Sys2Proof
end

