-- ==== Sys2Proof/Syntax.lean ====
section
/-! DEFINITION. The ten commands, one constructor for each row of the opcode table (30_encoding.md R100, R107). -/

namespace Sys2Proof

/-- A decoded command header. `kb` and `ib` are the 14-bit fields `KB` and `IB` of format `S` (R104), `len` the 28-bit
field `LEN` of format `L` (R103); all are unsigned and unscaled (R106). The byte-string operands stand in the operand
buffers, not in the header. -/
inductive Instr where
  | init
  | keysetup (kb ib : BitVec 14)
  | ivsetup
  | encryptBytes (len : BitVec 28)
  | decryptBytes (len : BitVec 28)
  | keystreamBytes (len : BitVec 28)
  | encryptBlocks (len : BitVec 28)
  | decryptBlocks (len : BitVec 28)
  | encryptPacket (len : BitVec 28)
  | decryptPacket (len : BitVec 28)
deriving DecidableEq, Repr

/-- The mnemonic of a command in the opcode map (30_encoding.md R107). -/
def Instr.mnemonic : Instr → String
  | .init => "INIT"
  | .keysetup _ _ => "KEYSETUP"
  | .ivsetup => "IVSETUP"
  | .encryptBytes _ => "ENCRYPT_BYTES"
  | .decryptBytes _ => "DECRYPT_BYTES"
  | .keystreamBytes _ => "KEYSTREAM_BYTES"
  | .encryptBlocks _ => "ENCRYPT_BLOCKS"
  | .decryptBlocks _ => "DECRYPT_BLOCKS"
  | .encryptPacket _ => "ENCRYPT_PACKET"
  | .decryptPacket _ => "DECRYPT_PACKET"

end Sys2Proof
end

