-- ==== Sys2Proof/WellFormed.lean ====
section
/-! DEFINITION. Well-formed commands (30_encoding.md section 7, R116): a header that decodes, and buffers that hold at
least the bytes the command reads. The field widths hold by the types of `Instr`. -/

namespace Sys2Proof

/-- How many bytes, counted from index 0 without a gap, the host has put into each input buffer. -/
structure Supplied where
  key : Nat
  iv : Nat
  din : Nat
deriving DecidableEq, Repr

/-- Enough key bytes: KEYSETUP reads `ceil8(KB)` (20_memory.md R71). -/
def Instr.keyOk (i : Instr) (b : Supplied) : Bool :=
  match i with
  | .keysetup kb _ => decide (ceil8 kb.toNat ≤ b.key)
  | .init | .ivsetup | .encryptBytes _ | .decryptBytes _ | .keystreamBytes _ | .encryptBlocks _ | .decryptBlocks _
  | .encryptPacket _ | .decryptPacket _ => true

/-- Enough IV bytes: IVSETUP and the packet commands read `ceil8(iv_bits)`, with `iv_bits` from the state (20_memory.md R72). -/
def Instr.ivOk (i : Instr) (ivBits : Nat) (b : Supplied) : Bool :=
  match i with
  | .ivsetup | .encryptPacket _ | .decryptPacket _ => decide (ceil8 ivBits ≤ b.iv)
  | .init | .keysetup _ _ | .encryptBytes _ | .decryptBytes _ | .keystreamBytes _ | .encryptBlocks _
  | .decryptBlocks _ => true

/-- Enough data bytes: the ENCRYPT and DECRYPT commands read `LEN` (20_memory.md R73). -/
def Instr.dinOk (i : Instr) (b : Supplied) : Bool :=
  match i with
  | .encryptBytes len | .decryptBytes len | .encryptBlocks len | .decryptBlocks len | .encryptPacket len
  | .decryptPacket len => decide (len.toNat ≤ b.din)
  | .init | .keysetup _ _ | .ivsetup | .keystreamBytes _ => true

/-- A well-formed command (30_encoding.md R116), for the `iv_bits` the state holds and the bytes the host has supplied. -/
def WellFormed (i : Instr) (ivBits : Nat) (b : Supplied) : Bool :=
  i.keyOk b && i.ivOk ivBits b && i.dinOk b

end Sys2Proof
end

