-- ==== Sys2Proof/Decode.lean ====
section
/-! DEFINITION. The decoder and the encoder of command headers (30_encoding.md sections 1 to 6). -/

namespace Sys2Proof

/-- Why a header selects no command (30_encoding.md R108, R109). -/
inductive DecodeError where
  /-- `OPC` is 10 to 15 (R108). -/
  | reservedOpcode (opc : BitVec 4)
  /-- `OPC` is 0 or 2 and the low 28 bits, which must be zero, are not (R105, R109). -/
  | nonzeroLowField (opc : BitVec 4)
deriving DecidableEq, Repr

/-- Field `OPC = h[31:28]` (R102). -/
def opcOf (h : Header) : BitVec 4 := h.extractLsb' 28 4

/-- Field `LEN = h[27:0]` of format `L`, and the must-be-zero field of format `Z` (R103, R105). -/
def lenOf (h : Header) : BitVec 28 := h.extractLsb' 0 28

/-- Field `KB = h[27:14]` of format `S` (R104). -/
def kbOf (h : Header) : BitVec 14 := h.extractLsb' 14 14

/-- Field `IB = h[13:0]` of format `S` (R104). -/
def ibOf (h : Header) : BitVec 14 := h.extractLsb' 0 14

/-- A format `Z` header: the low 28 bits must be zero (R105, R109). -/
def decodeZ (h : Header) (i : Instr) : Except DecodeError Instr :=
  if lenOf h = 0 then .ok i else .error (.nonzeroLowField (opcOf h))

/-- `decode(h)`, total on all `2^32` headers (R113). -/
def decode (h : Header) : Except DecodeError Instr :=
  match (opcOf h).toNat with
  | 0 => decodeZ h .init
  | 1 => .ok (.keysetup (kbOf h) (ibOf h))
  | 2 => decodeZ h .ivsetup
  | 3 => .ok (.encryptBytes (lenOf h))
  | 4 => .ok (.decryptBytes (lenOf h))
  | 5 => .ok (.keystreamBytes (lenOf h))
  | 6 => .ok (.encryptBlocks (lenOf h))
  | 7 => .ok (.decryptBlocks (lenOf h))
  | 8 => .ok (.encryptPacket (lenOf h))
  | 9 => .ok (.decryptPacket (lenOf h))
  | _ => .error (.reservedOpcode (opcOf h))

/-- A format `L` header: opcode and `LEN` (R103). -/
def encodeL (opc : BitVec 4) (len : BitVec 28) : Header := opc ++ len

/-- A format `S` header: opcode, `KB` and `IB` (R104). -/
def encodeS (opc : BitVec 4) (kb ib : BitVec 14) : Header := opc ++ (kb ++ ib : BitVec 28)

/-- `encode`, the inverse of `decode` on decoded commands (R114). -/
def encode : Instr → Header
  | .init => encodeL 0 0
  | .keysetup kb ib => encodeS 1 kb ib
  | .ivsetup => encodeL 2 0
  | .encryptBytes len => encodeL 3 len
  | .decryptBytes len => encodeL 4 len
  | .keystreamBytes len => encodeL 5 len
  | .encryptBlocks len => encodeL 6 len
  | .decryptBlocks len => encodeL 7 len
  | .encryptPacket len => encodeL 8 len
  | .decryptPacket len => encodeL 9 len

/-- One row of the opcode map: a header `h` selects it when `h & mask = match` (R107). -/
structure OpcodeRow where
  mnemonic : String
  pattern : Header
  mask : Header
deriving DecidableEq, Repr

/-- The opcode map, row by row (R107). -/
def opcodeMap : List OpcodeRow :=
  [⟨"INIT", 0x00000000, 0xFFFFFFFF⟩, ⟨"KEYSETUP", 0x10000000, 0xF0000000⟩, ⟨"IVSETUP", 0x20000000, 0xFFFFFFFF⟩,
   ⟨"ENCRYPT_BYTES", 0x30000000, 0xF0000000⟩, ⟨"DECRYPT_BYTES", 0x40000000, 0xF0000000⟩,
   ⟨"KEYSTREAM_BYTES", 0x50000000, 0xF0000000⟩, ⟨"ENCRYPT_BLOCKS", 0x60000000, 0xF0000000⟩,
   ⟨"DECRYPT_BLOCKS", 0x70000000, 0xF0000000⟩, ⟨"ENCRYPT_PACKET", 0x80000000, 0xF0000000⟩,
   ⟨"DECRYPT_PACKET", 0x90000000, 0xF0000000⟩]

/-- Whether a header selects a row (R107). -/
def OpcodeRow.selects (r : OpcodeRow) (h : Header) : Bool := (h &&& r.mask) == r.pattern

/-- The header whose low `nbits` bits are those of `w` and whose other bits are zero. A header is exactly 32 bits and has no
byte order (R101; DEDUCED, log entry 18). -/
def headerOf (nbits w : Nat) : Header := BitVec.ofNat 32 (w % 2 ^ nbits)

/-- The command the decoder reads from an opcode-table word; `none` where it refuses, or where the word is longer than
the one header length there is (R101). -/
def decodeTableWord (nbits w : Nat) : Option Instr :=
  if nbits ≤ 32 then (decode (headerOf nbits w)).toOption else none

end Sys2Proof
end

