-- ==== Sys2Proof/Config.lean ====
section
/-! DEFINITION. What an implementation of the engine fixes: which `VARIANT` it is built for, `REKEY`, and the open
parameters of the two variants whose constants the spec withholds, and of a build that is none of the spec's instances. The
open parameters are opaque: they carry the constraints the spec states and no value (45_variant_ach13.md R245,
48_variant_table.md R302, 92_eei_decisions.md section 6). -/

namespace Sys2Proof

/-- The key-length regime flag (10_state.md R36, R51). -/
inductive Regime where
  | short
  | long
deriving DecidableEq, Repr, Inhabited

/-- The builds of the engine (92_eei_decisions.md section 6): the five instances of 00_scope.md R5, any other record that
meets the laws of 40_engine.md, and the spec's test fixture `TOY4` (95_test_vectors.md section 2; no variant of the
hardware, log entry 10). -/
inductive VariantName where
  | ach13
  | tbl
  | trivium
  | chacha20
  | rc4
  | other
  | toy4
deriving DecidableEq, Repr, Inhabited

/-- A type that is a parameter of the machine. -/
class Carrier where
  carrier : Type

/-- A type the spec leaves open, as an argument of the model: any type of plain data. That its values have an order, a
printed form and one value at all is asked only so that states can be compared and shown; no meaning uses it (DESIGN
CHOICE, log entry 23). -/
class PlainData extends Carrier, LinearOrder carrier, Repr carrier, Inhabited carrier

/-- The least plain type, which only shows Lean that there is one. -/
@[reducible] def PlainData.unit : PlainData where
  carrier := Unit
  toLinearOrder := inferInstance
  toRepr := inferInstance
  toInhabited := inferInstance

/-- `ACH13.State`: `R[1]` to `R[12]`, 32 bits each (`r[j]` is `R[j+1]`), and `R[13]`, 64 bits (45_variant_ach13.md R240). -/
structure AchRegs where
  r : Vector (BitVec 32) 12
  r13 : BitVec 64
deriving DecidableEq, Repr, Inhabited

/-- The open parameters of `ACH13`, one field for each row of 45_variant_ach13.md R245, with the constraints of its last
column and of 40_engine.md R134, R136 and 00_scope.md R12 as proof fields. `IV_BASE = 0` is R244. The default values only
show Lean that such a record exists; `Config.ach` is opaque and has none of them. -/
structure AchParams where
  /-- `ACH.LEN[j]`: active length of NLFSR `j`; index `j` here is the spec's `j + 1`. -/
  len : Vector Nat 13 := Vector.replicate 13 0
  /-- `ACH.step[1..12]` -/
  step : Fin 12 → Regime → AchRegs → BitVec 32 := fun _ _ _ => 0
  /-- `ACH.step[13]` -/
  step13 : Regime → AchRegs → BitVec 64 := fun _ _ => 0
  unitBits : Nat := 8
  u : Nat := 1
  chunk : Nat := 1
  /-- `ACH.combine`, the nonlinear combining function over register taps. -/
  combine : Regime → AchRegs → BitVec unitBits := fun _ _ => 0
  /-- `ACH.pack`, the bit-to-byte order of the keystream. -/
  pack : List (BitVec unitBits) → List Byte := List.map (BitVec.setWidth 8)
  /-- `ACH.regime` -/
  regime : Nat → Regime := fun _ => .short
  /-- `ACH.load_key(key, key_bits, iv_bits)` -/
  loadKey : List Byte → Nat → Nat → AchRegs := fun _ _ _ => default
  /-- `ACH.mix_iv(K0, iv, iv_bits, key_bits, regime)` -/
  mixIv : AchRegs → List Byte → Nat → Nat → Regime → AchRegs := fun x _ _ _ _ => x
  /-- `ACH.blank` -/
  blank : AchRegs := default
  keyBase : Nat := 80
  keyStep : Nat := 0
  keyMax : Nat := 80
  ivStep : Nat := 0
  ivMax : Nat := 0
  blockLen : Nat := 1
  len_fits : (∀ j : Fin 13, len[j] ≤ 64) ∧ ∀ j : Fin 13, j.val < 12 → len[j] ≤ 32 := by decide
  unit_law : 0 < unitBits ∧ 0 < u ∧ 0 < chunk ∧ u * unitBits = 8 * chunk := by decide
  pack_length : ∀ us, us.length = u → (pack us).length = chunk := by simp
  pack_injective : ∀ us vs, us.length = u → vs.length = u → pack us = pack vs → us = vs := by
    intro us vs _ _ h
    exact List.map_injective_iff.mpr (fun x y e => by simpa using e) h
  pack_surjective : ∀ bs, bs.length = chunk → ∃ us, us.length = u ∧ pack us = bs := by
    intro bs h
    exact ⟨bs, h, List.map_id'' (fun b => by simp) bs⟩
  key80 : keyBase ≤ 80 ∧ 80 ≤ keyMax ∧
    ((keyStep = 0 ∧ 80 = keyBase) ∨ (0 < keyStep ∧ (80 - keyBase) % keyStep = 0)) := by decide
  fits_header : keyMax ≤ 16383 ∧ ivMax ≤ 16383 := by decide
  block_law : 0 < blockLen ∧ blockLen % chunk = 0 := by decide
deriving Inhabited

/-- `TBL.State`: the main table `P[0 .. NP-1]` of bytes and the auxiliary tables, for `NP = np` and `AUX = A`
(48_variant_table.md R300). `P` need not hold each value once. -/
structure TblTables (np : Nat) (A : Type) where
  p : Vector Byte np
  aux : A
deriving DecidableEq, Repr, Inhabited

/-- The open parameters of `TBL`, one field for each name of 48_variant_table.md R302: `TBL.NP`, the type `TBL.AUX`, and
the rest over them. `TBL.advance` is the open update and the open index selection of R301; what it reads the byte from is
not open. `0 < NP`, since a byte is read from the main table on every call (DEDUCED, log entry 9). The default values only
show Lean that such a record exists; `Config.tbl` is opaque and has none of them. -/
structure TblParams where
  np : Nat := 1
  np_pos : 0 < np := by decide
  /-- `TBL.AUX`, the type of the auxiliary tables. -/
  aux : PlainData := PlainData.unit
  blank : TblTables np aux.carrier := default
  /-- The update of `TBL.advance`: `AUX`, and possibly `P`. -/
  update : Regime → TblTables np aux.carrier → TblTables np aux.carrier := fun _ x => x
  /-- The index selection of `TBL.advance`. R301 does not say whether the auxiliary tables select it before or after the
  update, so it is given both (log entry 9). -/
  index : Regime → (before after : aux.carrier) → Fin np := fun _ _ _ => ⟨0, np_pos⟩
  /-- Whether the byte is read from `P` after the update or before it, which R301 does not say (log entry 9). -/
  readsUpdated : Bool := true
  loadKey : List Byte → Nat → Nat → TblTables np aux.carrier := fun _ _ _ => default
  mixIv : TblTables np aux.carrier → List Byte → Nat → Nat → Regime → TblTables np aux.carrier := fun x _ _ _ _ => x
  regime : Nat → Regime := fun _ => .short
  keyBase : Nat := 0
  keyStep : Nat := 0
  keyMax : Nat := 0
  ivBase : Nat := 0
  ivStep : Nat := 0
  ivMax : Nat := 0
  blockLen : Nat := 1
  fits_header : keyMax ≤ 16383 ∧ ivMax ≤ 16383 := by decide
  block_law : 0 < blockLen := by decide
deriving Inhabited

/-- The record `VARIANT` of a build that is none of the spec's instances, which 92_eei_decisions.md section 6 allows: every
field of 00_scope.md R9, with the laws of 40_engine.md R134 and R136 and of 00_scope.md R12 as proof fields. R131 and R133
hold of any Lean functions; R132 asks nothing a proof may use. The default values only show Lean that such a record exists;
`Config.other` is opaque and has none of them. -/
structure OtherParams where
  /-- `VARIANT.State` -/
  state : PlainData := PlainData.unit
  keyBase : Nat := 0
  keyStep : Nat := 0
  keyMax : Nat := 0
  ivBase : Nat := 0
  ivStep : Nat := 0
  ivMax : Nat := 0
  blockLen : Nat := 1
  unitBits : Nat := 8
  u : Nat := 1
  chunk : Nat := 1
  blank : state.carrier := default
  regime : Nat → Regime := fun _ => .short
  loadKey : List Byte → Nat → Nat → state.carrier := fun _ _ _ => default
  mixIv : state.carrier → List Byte → Nat → Nat → Regime → state.carrier := fun x _ _ _ _ => x
  advance : Regime → state.carrier → state.carrier × BitVec unitBits := fun _ x => (x, 0)
  pack : List (BitVec unitBits) → List Byte := List.map (BitVec.setWidth 8)
  unit_law : 0 < unitBits ∧ 0 < u ∧ 0 < chunk ∧ u * unitBits = 8 * chunk := by decide
  pack_length : ∀ us, us.length = u → (pack us).length = chunk := by simp
  pack_injective : ∀ us vs, us.length = u → vs.length = u → pack us = pack vs → us = vs := by
    intro us vs _ _ h
    exact List.map_injective_iff.mpr (fun x y e => by simpa using e) h
  pack_surjective : ∀ bs, bs.length = chunk → ∃ us, us.length = u ∧ pack us = bs := by
    intro bs h
    exact ⟨bs, h, List.map_id'' (fun b => by simp) bs⟩
  block_law : 0 < blockLen ∧ blockLen % chunk = 0 := by decide
  fits_header : keyMax ≤ 16383 ∧ ivMax ≤ 16383 := by decide
deriving Inhabited

namespace Config

/-- The open parameters of `ACH13`: uninterpreted (log entry 8). -/
opaque ach : AchParams

/-- The open parameters of `TBL`: uninterpreted (log entry 9). -/
opaque tbl : TblParams

/-- The record of a build that is none of the spec's instances: uninterpreted (92_eei_decisions.md section 6; log entry
23). -/
opaque other : OtherParams

/-- For a `Reset` that strikes during a streaming command, whether a given byte of `DOUT` already holds its new value:
70_reset_and_hazards.md R372 admits either, byte by byte (93_implementation_defined.md U16; log entry 7). -/
opaque freeBit : Nat → Bool

/-- DESIGN CHOICE (log entry 2): the build that `State.reset` stands for. The spec gives `VARIANT` no default; every other
build is `State.resetOf`. -/
def variant : VariantName := .trivium

/-- `REKEY`, default `false` (00_scope.md R11). -/
def rekey : Bool := false

end Config

end Sys2Proof
end

