-- ==== Sys2Proof/Machine/Variant.lean ====
section
/-! DEFINITION. The record `VARIANT` (00_scope.md R9): everything the engine takes from the cipher it is built for. -/

namespace Sys2Proof.Machine

/-- The numeric fields of `VARIANT` (00_scope.md R9). -/
structure Params where
  keyBase : Nat
  keyStep : Nat
  keyMax : Nat
  ivBase : Nat
  ivStep : Nat
  ivMax : Nat
  blockLen : Nat
  unitBits : Nat
  u : Nat
  chunk : Nat
deriving DecidableEq, Repr

/-- The record `VARIANT` over an engine state type `σ` (00_scope.md R9). `loadKey key keyBits ivBits` and
`mixIv K0 iv ivBits keyBits regime` take whole bytes and the bit count (20_memory.md R90). -/
structure Variant (σ : Type) extends Params where
  blank : σ
  regime : Nat → Regime
  loadKey : List Byte → Nat → Nat → σ
  mixIv : σ → List Byte → Nat → Nat → Regime → σ
  advance : Regime → σ → σ × BitVec unitBits
  pack : List (BitVec unitBits) → List Byte

/-- Membership in the sizes `base + i * step <= max`, written out (00_scope.md R10, 41_scheduler.md R153). -/
def sizeOk (base step max n : Nat) : Bool :=
  decide (base ≤ n) && decide (n ≤ max) &&
    ((decide (step = 0) && decide (n = base)) || (decide (0 < step) && decide ((n - base) % step = 0)))

/-- `n in KEYSIZES` (41_scheduler.md R153). -/
def Params.keySizeOk (p : Params) (n : Nat) : Bool := sizeOk p.keyBase p.keyStep p.keyMax n

/-- `n in IVSIZES` (41_scheduler.md R153). -/
def Params.ivSizeOk (p : Params) (n : Nat) : Bool := sizeOk p.ivBase p.ivStep p.ivMax n

/-- `KEYBUF_BYTES` (00_scope.md R13). -/
def Params.keybufBytes (p : Params) : Nat := ceil8 p.keyMax

/-- `IVBUF_BYTES` (00_scope.md R13). -/
def Params.ivbufBytes (p : Params) : Nat := ceil8 p.ivMax

/-- The laws every variant must obey that a proof may use: the unit law and the bijection of `pack` (40_engine.md R134),
the block length (R136), and sizes that fit the header (00_scope.md R12). Totality and determinism (R131) hold of any
Lean function. -/
structure Variant.Lawful {σ : Type} (V : Variant σ) : Prop where
  unitBits_pos : 0 < V.unitBits
  u_pos : 0 < V.u
  chunk_pos : 0 < V.chunk
  unit_law : V.u * V.unitBits = 8 * V.chunk
  pack_length : ∀ us, us.length = V.u → (V.pack us).length = V.chunk
  pack_injective : ∀ us vs, us.length = V.u → vs.length = V.u → V.pack us = V.pack vs → us = vs
  pack_surjective : ∀ bs, bs.length = V.chunk → ∃ us, us.length = V.u ∧ V.pack us = bs
  blockLen_pos : 0 < V.blockLen
  blockLen_chunk : V.blockLen % V.chunk = 0
  keyMax_fits : V.keyMax ≤ 16383
  ivMax_fits : V.ivMax ≤ 16383

/-- For fixed supported lengths `load_key` maps no two keys to one `K0`. It is no law of every variant, only of an instance
that proves it (40_engine.md R132): `TRIVIUM` and `CHACHA20` have it, `RC4` is not known to (48_variant_table.md R311). -/
def Variant.KeyInjective {σ : Type} (V : Variant σ) : Prop :=
  ∀ (kb ib : Nat) (key key' : List Byte), V.keySizeOk kb = true → V.ivSizeOk ib = true → key.length = ceil8 kb →
    key'.length = ceil8 kb → V.loadKey key kb ib = V.loadKey key' kb ib → key = key'

end Sys2Proof.Machine
end

