-- ==== Sys2Proof/Machine/Ach13.lean ====
section
/-! DEFINITION. Variant `ACH13`, the source's 13-register NLFSR cascade (45_variant_ach13.md): the register file and the
shape of a step are the spec's, every constant is an open parameter of `Config.ach`. -/

namespace Sys2Proof.Machine

/-- `ACH13.advance`: the output unit from the registers, and every register's step, all from the registers before the
step (45_variant_ach13.md R242). -/
def achAdvance (rg : Regime) (x : AchRegs) : AchRegs × BitVec Config.ach.unitBits :=
  ({ r := Vector.ofFn fun j => Config.ach.step j rg x, r13 := Config.ach.step13 rg x }, Config.ach.combine rg x)

/-- The `VARIANT` record of `ACH13` (45_variant_ach13.md R252), with `IV_BASE = 0` (R244). -/
def ach13Variant : Variant AchRegs where
  keyBase := Config.ach.keyBase
  keyStep := Config.ach.keyStep
  keyMax := Config.ach.keyMax
  ivBase := 0
  ivStep := Config.ach.ivStep
  ivMax := Config.ach.ivMax
  blockLen := Config.ach.blockLen
  unitBits := Config.ach.unitBits
  u := Config.ach.u
  chunk := Config.ach.chunk
  blank := Config.ach.blank
  regime := Config.ach.regime
  loadKey := Config.ach.loadKey
  mixIv := Config.ach.mixIv
  advance := achAdvance
  pack := Config.ach.pack

end Sys2Proof.Machine
end

