-- ==== Sys2Proof/Machine/ChaCha20.lean ====
section
/-! DEFINITION. Variant `CHACHA20` (47_variant_chacha.md). The state is sixteen 32-bit words; an output unit is the 512-bit
number whose word `i` (bits `32*i + 31` to `32*i`) is the spec's `out[i]` (DESIGN CHOICE, log entry 13). The constants are
the spec's general knowledge (UNVERIFIED, log entry 11). -/

namespace Sys2Proof.Machine

/-- `LE32(b, o)` (47_variant_chacha.md R282). -/
def le32 (b : List Byte) (o : Nat) : Word32 :=
  b.getD (o + 3) 0 ++ (b.getD (o + 2) 0 ++ (b.getD (o + 1) 0 ++ b.getD o 0 : BitVec 16) : BitVec 24)

/-- `BYTES32(w)` (47_variant_chacha.md R282). -/
def bytes32 (w : Word32) : List Byte :=
  [w.extractLsb' 0 8, w.extractLsb' 8 8, w.extractLsb' 16 8, w.extractLsb' 24 8]

/-- `rotl32(v, n)`, `0 < n < 32` (00_scope.md R14). -/
def rotl32 (v : Word32) (n : Nat) : Word32 := (v <<< n) ||| (v >>> (32 - n))

/-- `CHACHA20.load_key` (47_variant_chacha.md R283): 256-bit keys once, 128-bit keys twice. Every other
length, which KEYSETUP never passes, is treated as 128 (DESIGN CHOICE, log entry 12). -/
def chaLoadKey (key : List Byte) (kb _ib : Nat) : Vector Word32 16 :=
  if kb = 256 then
    #v[0x61707865, 0x3320646E, 0x79622D32, 0x6B206574,
       le32 key 0, le32 key 4, le32 key 8, le32 key 12, le32 key 16, le32 key 20, le32 key 24, le32 key 28,
       0, 0, 0, 0]
  else
    #v[0x61707865, 0x3120646E, 0x79622D36, 0x6B206574,
       le32 key 0, le32 key 4, le32 key 8, le32 key 12, le32 key 0, le32 key 4, le32 key 8, le32 key 12,
       0, 0, 0, 0]

/-- `CHACHA20.mix_iv`: block counter 0, IV words in `x[14]` and `x[15]` (47_variant_chacha.md R284). -/
def chaMixIv (k0 : Vector Word32 16) (iv : List Byte) (_ib _kb : Nat) (_rg : Regime) : Vector Word32 16 :=
  (((k0.set 12 0).set 13 0).set 14 (le32 iv 0)).set 15 (le32 iv 4)

/-- The quarter round (47_variant_chacha.md R285). -/
def quarterRound (a b c d : Word32) : Word32 × Word32 × Word32 × Word32 :=
  let a := a + b
  let d := rotl32 (d ^^^ a) 16
  let c := c + d
  let b := rotl32 (b ^^^ c) 12
  let a := a + b
  let d := rotl32 (d ^^^ a) 8
  let c := c + d
  let b := rotl32 (b ^^^ c) 7
  (a, b, c, d)

/-- A quarter round in place on four words of sixteen (47_variant_chacha.md R286). -/
def quarterRoundAt (i j k l : Fin 16) (w : Vector Word32 16) : Vector Word32 16 :=
  match quarterRound w[i] w[j] w[k] w[l] with
  | (a, b, c, d) => (((w.set i a).set j b).set k c).set l d

/-- The double round: four columns, then four diagonals (47_variant_chacha.md R286). -/
def doubleRound (w : Vector Word32 16) : Vector Word32 16 :=
  let w := quarterRoundAt 0 4 8 12 w
  let w := quarterRoundAt 1 5 9 13 w
  let w := quarterRoundAt 2 6 10 14 w
  let w := quarterRoundAt 3 7 11 15 w
  let w := quarterRoundAt 0 5 10 15 w
  let w := quarterRoundAt 1 6 11 12 w
  let w := quarterRoundAt 2 7 8 13 w
  quarterRoundAt 3 4 9 14 w

/-- `n` double rounds. -/
def doubleRounds : Nat → Vector Word32 16 → Vector Word32 16
  | 0, w => w
  | n + 1, w => doubleRounds n (doubleRound w)

/-- Sixteen words as one output unit, `out[0]` lowest. -/
def chaUnit (ws : List Word32) : BitVec 512 := ws.foldr (fun w acc => (acc <<< 32) ||| w.setWidth 512) 0

/-- The block counter moves on: `x[12]` plus one, with the carry into `x[13]` (47_variant_chacha.md R287, R289). -/
def chaCount (x : Vector Word32 16) : Vector Word32 16 :=
  let y := x.set 12 (x[12] + 1)
  if y[12] = 0 then y.set 13 (x[13] + 1) else y

/-- `CHACHA20.advance` (47_variant_chacha.md R287). -/
def chaAdvance (_rg : Regime) (x : Vector Word32 16) : Vector Word32 16 × BitVec 512 :=
  (chaCount x, chaUnit (List.zipWith (· + ·) (doubleRounds 10 x).toList x.toList))

/-- `CHACHA20.pack`: word 0 first, each word least significant byte first (47_variant_chacha.md R288). -/
def chaPack (us : List (BitVec 512)) : List Byte :=
  us.flatMap fun u => (List.range 16).flatMap fun i => bytes32 (u.extractLsb' (32 * i) 32)

/-- `CHACHA20.regime`: `Short` for 128, `Long` for 256 (47_variant_chacha.md R280). -/
def chaRegime (kb : Nat) : Regime := if kb = 256 then .long else .short

/-- The `VARIANT` record of `CHACHA20` (47_variant_chacha.md R280). -/
def chacha20Variant : Variant (Vector Word32 16) where
  keyBase := 128
  keyStep := 128
  keyMax := 256
  ivBase := 64
  ivStep := 64
  ivMax := 64
  blockLen := 64
  unitBits := 512
  u := 1
  chunk := 64
  blank := Vector.replicate 16 0
  regime := chaRegime
  loadKey := chaLoadKey
  mixIv := chaMixIv
  advance := chaAdvance
  pack := chaPack

end Sys2Proof.Machine
end

