-- ==== Sys2Proof/Machine/Memory.lean ====
section
/-! DEFINITION. An operand buffer as plain data (20_memory.md R70): byte-indexed storage in ONE canonical form. -/

namespace Sys2Proof.Machine

/-- The contents of one operand buffer: (index, byte) pairs, indices strictly rising. An index that is not listed holds
no byte the host or the engine has written; it reads as no value (20_memory.md R89, log entry 5). -/
abbrev Memory := List Host.Cell

/-- The canonical form: indices strictly rise. (No listed entry can equal what an unlisted index reads as, which is no
value.) -/
def Memory.wf : Memory → Bool
  | [] => true
  | [_] => true
  | c :: d :: m => decide (c.1 < d.1) && Memory.wf (d :: m)

/-- The byte at an index, if one has been written. -/
def Memory.read : Memory → Nat → Option Byte
  | [], _ => none
  | c :: m, a => if c.1 = a then some c.2 else Memory.read m a

/-- `n` consecutive bytes from an index, if every one of them has been written. -/
def Memory.readBytes (m : Memory) : Nat → Nat → Option (List Byte)
  | _, 0 => some []
  | a, n + 1 =>
    match Memory.read m a, Memory.readBytes m (a + 1) n with
    | some b, some bs => some (b :: bs)
    | _, _ => none

/-- A byte string as cells from an index on. -/
def Memory.cells : Nat → List Byte → Memory
  | _, [] => []
  | a, b :: bs => (a, b) :: Memory.cells (a + 1) bs

/-- Write a byte string from an index on; every other index keeps what it holds. -/
def Memory.write (m : Memory) (a : Nat) (bs : List Byte) : Memory :=
  m.filter (fun c => decide (c.1 < a)) ++ Memory.cells a bs ++ m.filter (fun c => decide (a + bs.length ≤ c.1))

end Sys2Proof.Machine
end

