-- ==== Sys2Proof/Machine/Other.lean ====
section
/-! DEFINITION. The build that is none of the spec's instances: any record that meets the laws of 40_engine.md
(92_eei_decisions.md section 6), open in every field. -/

namespace Sys2Proof.Machine

/-- `VARIANT.State` of that build. -/
abbrev OtherState := Config.other.state.carrier

/-- Its `VARIANT` record (00_scope.md R9). -/
def otherVariant : Variant OtherState where
  keyBase := Config.other.keyBase
  keyStep := Config.other.keyStep
  keyMax := Config.other.keyMax
  ivBase := Config.other.ivBase
  ivStep := Config.other.ivStep
  ivMax := Config.other.ivMax
  blockLen := Config.other.blockLen
  unitBits := Config.other.unitBits
  u := Config.other.u
  chunk := Config.other.chunk
  blank := Config.other.blank
  regime := Config.other.regime
  loadKey := Config.other.loadKey
  mixIv := Config.other.mixIv
  advance := Config.other.advance
  pack := Config.other.pack

end Sys2Proof.Machine
end

