-- ==== Sys2Proof/Machine/Rc4.lean ====
section
/-! DEFINITION. Variant `RC4` (48_variant_table.md part 2), which is the spec's general knowledge (UNVERIFIED, log entry 11). -/

namespace Sys2Proof.Machine

/-- `RC4.State`: the table `P[0 .. 255]` and the indices `i`, `j` (48_variant_table.md R304). -/
structure Rc4Table where
  p : Vector Byte 256
  i : Byte
  j : Byte
deriving DecidableEq, Repr

/-- `P[k]` for a byte index (48_variant_table.md R304). -/
def rc4At (p : Vector Byte 256) (k : Byte) : Byte := p[k.toNat]'k.isLt

/-- `swap P[i] and P[j]` (48_variant_table.md R306, R308). -/
def rc4Swap (p : Vector Byte 256) (i j : Byte) : Vector Byte 256 :=
  (p.set i.toNat (rc4At p j) i.isLt).set j.toNat (rc4At p i) j.isLt

/-- The identity table: `P[k] = k` (48_variant_table.md R303, R306). -/
def rc4Identity : Vector Byte 256 := Vector.ofFn fun k : Fin 256 => BitVec.ofNat 8 k.val

/-- `RC4.blank` (48_variant_table.md R303). -/
def rc4Blank : Rc4Table := ⟨rc4Identity, 0, 0⟩

/-- One turn of the key scheduling, for index `i` (48_variant_table.md R306). -/
def rc4KeyTurn (key : List Byte) (l : Nat) (pj : Vector Byte 256 × Byte) (i : Nat) : Vector Byte 256 × Byte :=
  let j := pj.2 + rc4At pj.1 (BitVec.ofNat 8 i) + key.getD (i % l) 0
  (rc4Swap pj.1 (BitVec.ofNat 8 i) j, j)

/-- `RC4.load_key`: the key scheduling over `L = key_bits / 8` key bytes (48_variant_table.md R306). -/
def rc4LoadKey (key : List Byte) (kb _ib : Nat) : Rc4Table :=
  ⟨((List.range 256).foldl (rc4KeyTurn key (kb / 8)) (rc4Identity, 0)).1, 0, 0⟩

/-- `RC4.mix_iv` is the identity (48_variant_table.md R307). -/
def rc4MixIv (k0 : Rc4Table) (_iv : List Byte) (_ib _kb : Nat) (_rg : Regime) : Rc4Table := k0

/-- `RC4.advance`: the byte is read after the swap, with the new indices (48_variant_table.md R308). -/
def rc4Advance (_rg : Regime) (x : Rc4Table) : Rc4Table × BitVec 8 :=
  let i := x.i + 1
  let j := x.j + rc4At x.p i
  let p := rc4Swap x.p i j
  (⟨p, i, j⟩, rc4At p (rc4At p i + rc4At p j))

/-- The `VARIANT` record of `RC4` (48_variant_table.md R303, R309). -/
def rc4Variant : Variant Rc4Table where
  keyBase := 8
  keyStep := 8
  keyMax := 2048
  ivBase := 0
  ivStep := 8
  ivMax := 0
  blockLen := 1
  unitBits := 8
  u := 1
  chunk := 1
  blank := rc4Blank
  regime := fun _ => .short
  loadKey := rc4LoadKey
  mixIv := rc4MixIv
  advance := rc4Advance
  pack := fun us => us

end Sys2Proof.Machine
end

