-- ==== Sys2Proof/Machine/Tbl.lean ====
section
/-! DEFINITION. Variant `TBL`, the source's table-based design (48_variant_table.md part 1), open in every constant. -/

namespace Sys2Proof.Machine

/-- `TBL.State` of the build: a main table of `TBL.NP` bytes and auxiliary tables of type `TBL.AUX`
(48_variant_table.md R300). -/
abbrev TblTable := TblTables Config.tbl.np Config.tbl.aux.carrier

/-- `TBL.advance`: the tables move on, and the unit is the byte of the main table at the index the auxiliary tables select
(48_variant_table.md R301). -/
def tblAdvance (rg : Regime) (x : TblTable) : TblTable × BitVec 8 :=
  let y := Config.tbl.update rg x
  (y, (if Config.tbl.readsUpdated then y.p else x.p)[Config.tbl.index rg x.aux y.aux])

/-- `TBL.load_key` (48_variant_table.md R302). -/
def tblLoadKey (key : List Byte) (kb ib : Nat) : TblTable := Config.tbl.loadKey key kb ib

/-- `TBL.mix_iv` (48_variant_table.md R302). -/
def tblMixIv (k0 : TblTable) (iv : List Byte) (ib kb : Nat) (rg : Regime) : TblTable :=
  Config.tbl.mixIv k0 iv ib kb rg

/-- The `VARIANT` record of `TBL`: a unit is one byte and `pack` the identity (48_variant_table.md R301, R317). -/
def tblVariant : Variant TblTable where
  keyBase := Config.tbl.keyBase
  keyStep := Config.tbl.keyStep
  keyMax := Config.tbl.keyMax
  ivBase := Config.tbl.ivBase
  ivStep := Config.tbl.ivStep
  ivMax := Config.tbl.ivMax
  blockLen := Config.tbl.blockLen
  unitBits := 8
  u := 1
  chunk := 1
  blank := Config.tbl.blank
  regime := Config.tbl.regime
  loadKey := tblLoadKey
  mixIv := tblMixIv
  advance := tblAdvance
  pack := fun us => us

end Sys2Proof.Machine
end

