-- ==== Sys2Proof/Machine/Toy4.lean ====
section
/-! DEFINITION. The spec's test fixture `TOY4` (95_test_vectors.md section 2). It is no cipher and no variant of the hardware;
it is carried so that the spec's vectors for the generic rules run on the model (DESIGN CHOICE, log entry 10). -/

namespace Sys2Proof.Machine

/-- `TOY4.State`: a pair `(c, m)` of bytes. -/
structure Toy4Pair where
  c : Byte
  m : Byte
deriving DecidableEq, Repr

/-- `TOY4.load_key` -/
def toyLoadKey (key : List Byte) (kb _ib : Nat) : Toy4Pair :=
  ⟨key.getD 0 0, if kb = 16 then key.getD 1 0 else 0⟩

/-- `TOY4.mix_iv` -/
def toyMixIv (k0 : Toy4Pair) (iv : List Byte) (ib _kb : Nat) (_rg : Regime) : Toy4Pair :=
  if ib = 8 then { k0 with c := k0.c ^^^ iv.getD 0 0 } else k0

/-- `TOY4.advance`: the unit's byte `t` (bits `8*t + 7` to `8*t`) is `(c + 0x40 * t) xor m`. -/
def toyAdvance (_rg : Regime) (x : Toy4Pair) : Toy4Pair × BitVec 32 :=
  ({ x with c := x.c + 1 },
   ((x.c + 0xC0) ^^^ x.m) ++ (((x.c + 0x80) ^^^ x.m) ++ (((x.c + 0x40) ^^^ x.m) ++ (x.c ^^^ x.m) : BitVec 16) : BitVec 24))

/-- `TOY4.pack`: the four bytes of the unit in order. -/
def toyPack (us : List (BitVec 32)) : List Byte :=
  us.flatMap fun u => [u.extractLsb' 0 8, u.extractLsb' 8 8, u.extractLsb' 16 8, u.extractLsb' 24 8]

/-- The `VARIANT` record of `TOY4` (95_test_vectors.md section 2). -/
def toy4Variant : Variant Toy4Pair where
  keyBase := 8
  keyStep := 8
  keyMax := 16
  ivBase := 0
  ivStep := 8
  ivMax := 8
  blockLen := 8
  unitBits := 32
  u := 1
  chunk := 4
  blank := ⟨0, 0⟩
  regime := fun kb => if kb = 16 then .long else .short
  loadKey := toyLoadKey
  mixIv := toyMixIv
  advance := toyAdvance
  pack := toyPack

end Sys2Proof.Machine
end

