-- ==== Sys2Proof/Machine/Trivium.lean ====
section
/-! DEFINITION. Variant `TRIVIUM` (46_variant_trivium.md). The state `s[1..288]` is a `BitVec 288` whose bit `i - 1` is
the spec's `s[i]`, so that "move bit `i` to bit `i + 1`" is a left shift (DESIGN CHOICE, log entry 13). The constants are
the spec's general knowledge (UNVERIFIED, log entry 11). -/

namespace Sys2Proof.Machine

/-- `s[i]`, `1 <= i <= 288` (46_variant_trivium.md R261). -/
def triBit (s : BitVec 288) (i : Nat) : Bool := s.getLsbD (i - 1)

/-- The state with `s[i] = b` and every other bit 0. -/
def triPut (i : Nat) (b : Bool) : BitVec 288 := (BitVec.ofBool b).setWidth 288 <<< (i - 1)

/-- The key or IV bits of ten bytes: bit `n` of the result (counted from 0) is the spec's `K[n + 1]`, by
`K[8*(9-b) + (8-j)] = key[b][j]` (46_variant_trivium.md R262, R263). A byte that is not there counts as zero, which is the
padding of a short IV (R263; for a key, which is never short, DESIGN CHOICE, log entry 12). -/
def triLoadBits (bytes : List Byte) : BitVec 288 :=
  (BitVec.ofBoolListLE ((List.range 80).map fun n => (bytes.getD (9 - n / 8) 0).getLsbD (7 - n % 8))).setWidth 288

/-- `TRIVIUM.load_key`: key bits in `s[1..80]`, ones in `s[286..288]`, zeros elsewhere (46_variant_trivium.md R262). -/
def triLoadKey (key : List Byte) (_kb _ib : Nat) : BitVec 288 :=
  triLoadBits key ||| triPut 286 true ||| triPut 287 true ||| triPut 288 true

/-- The places a step fills with new bits: the lowest index of each register (46_variant_trivium.md R261). -/
def triHeads : BitVec 288 := triPut 1 true ||| triPut 94 true ||| triPut 178 true

/-- `TRIVIUM.step` (46_variant_trivium.md R264). -/
def triStep (s : BitVec 288) : BitVec 288 × BitVec 1 :=
  let t1 := triBit s 66 ^^ triBit s 93
  let t2 := triBit s 162 ^^ triBit s 177
  let t3 := triBit s 243 ^^ triBit s 288
  let z := t1 ^^ t2 ^^ t3
  let f1 := t1 ^^ (triBit s 91 && triBit s 92) ^^ triBit s 171
  let f2 := t2 ^^ (triBit s 175 && triBit s 176) ^^ triBit s 264
  let f3 := t3 ^^ (triBit s 286 && triBit s 287) ^^ triBit s 69
  (((s <<< 1) &&& ~~~triHeads) ||| triPut 1 f3 ||| triPut 94 f1 ||| triPut 178 f2, BitVec.ofBool z)

/-- `n` warm-up steps, units discarded (46_variant_trivium.md R263). -/
def triWarm : Nat → BitVec 288 → BitVec 288
  | 0, s => s
  | n + 1, s => triWarm n (triStep s).1

/-- `TRIVIUM.mix_iv`: IV bits into `s[94..173]` of a copy of `K0`, then 1152 steps (46_variant_trivium.md R263). The IV is
its first `iv_bits / 8` bytes. -/
def triMixIv (k0 : BitVec 288) (iv : List Byte) (ib _kb : Nat) (_rg : Regime) : BitVec 288 :=
  triWarm 1152 ((k0 &&& ~~~((BitVec.allOnes 80).setWidth 288 <<< 93)) ||| (triLoadBits (iv.take (ib / 8)) <<< 93))

/-- `TRIVIUM.advance` (46_variant_trivium.md R264). -/
def triAdvance (_rg : Regime) (s : BitVec 288) : BitVec 288 × BitVec 1 := triStep s

/-- `TRIVIUM.pack`: the first bit produced is the least significant bit of the byte (46_variant_trivium.md R266). -/
def triPack (us : List (BitVec 1)) : List Byte :=
  [(BitVec.ofBoolListLE (us.map fun z => z.getLsbD 0)).setWidth 8]

/-- The `VARIANT` record of `TRIVIUM` (46_variant_trivium.md R260). It meets the laws of 40_engine.md as R267 says: its
functions are Lean functions, total and deterministic, `mix_iv` at an IV of 0 bits too; `trivium_lawful` proves the unit law,
the bijection of `pack` and the block length; `Obligations.TriviumLoadsTheKeyBits` states these with `KeyInjective`. -/
def triviumVariant : Variant (BitVec 288) where
  keyBase := 80
  keyStep := 8
  keyMax := 80
  ivBase := 0
  ivStep := 8
  ivMax := 80
  blockLen := 4
  unitBits := 1
  u := 8
  chunk := 1
  blank := 0
  regime := fun _ => .short
  loadKey := triLoadKey
  mixIv := triMixIv
  advance := triAdvance
  pack := triPack

end Sys2Proof.Machine
end

