-- ==== Sys2Proof/Machine/State.lean ====
section
/-! DEFINITION. All the state of one engine instance (10_state.md R30), its operand buffers (20_memory.md R70), the host's
side of the interface, the reasons a step can stop, and the state after reset (R48). -/

namespace Sys2Proof.Machine

/-- `phase` (10_state.md R32). -/
inductive Phase where
  | uninitialized
  | keyed
  | ivReady
  | streaming
deriving DecidableEq, Repr

/-- `mode` (10_state.md R33). -/
inductive Mode where
  | block
  | byte
deriving DecidableEq, Repr

/-- The status of a command (30_encoding.md R112). -/
inductive Status where
  | ok
  | invalidParameter
  | sequenceError
  | invalidLength
  | illegalCommand
deriving DecidableEq, Repr

/-- What a command returns (30_encoding.md R111): the 32-bit status word and, for an accepted streaming command, the bytes
it wrote to `DOUT`. -/
structure Response where
  st : Word32
  data : List Byte
deriving DecidableEq, Repr

/-- The four operand buffers (20_memory.md R70). -/
inductive Space where
  | keybuf
  | ivbuf
  | din
  | dout
deriving DecidableEq, Repr

/-- What the host can do to the engine between commands (60_exceptions.md R352, 70_reset_and_hazards.md R360, R372). -/
inductive HostEvent where
  /-- Write bytes into a buffer from an index on, whatever the buffer and the index (DESIGN CHOICE, log entry 21). -/
  | fill (space : Space) (addr : Nat) (bytes : List Byte)
  /-- Issue a command: the next step executes it whole. -/
  | issue (h : Header)
  /-- `Reset` of an idle engine (R360). -/
  | reset
  /-- Issue a command and let `Reset` strike before it completes (R372). -/
  | resetDuring (h : Header)
deriving DecidableEq, Repr

/-- The working state `S` and the shadow copy `K0`, of one type (10_state.md R40, R41). -/
structure Regs (σ : Type) where
  S : σ
  K0 : σ
deriving DecidableEq, Repr

/-- `S` and `K0` in the layout of the variant the instance is built for (10_state.md R43). The constructor IS the
parameter `VARIANT`: an instance has one layout for life (R40, 00_scope.md R4). `other` stands for every lawful record that
is none of the spec's instances, so that no record 92_eei_decisions.md section 6 allows is shut out (log entry 23). -/
inductive Engine where
  | ach13 (r : Regs AchRegs)
  | tbl (r : Regs TblTable)
  | trivium (r : Regs (BitVec 288))
  | chacha20 (r : Regs (Vector Word32 16))
  | rc4 (r : Regs Rc4Table)
  | other (r : Regs OtherState)
  | toy4 (r : Regs Toy4Pair)
deriving DecidableEq, Repr

/-- The whole machine. The first ten entries are the engine's state (10_state.md R30; `S` and `K0` stand in `engine`);
`rekey` and the constructor of `engine` are the instance's parameters, which no step changes (log entry 1); the buffers
are the host's storage (20_memory.md R70); the last four fields are the model's own side of the interface (log entries
4 and 7). -/
structure State where
  /-- `init_done` (10_state.md R31) -/
  initDone : Bool
  /-- `phase` (R32) -/
  phase : Phase
  /-- `mode` (R33) -/
  mode : Mode
  /-- `key_bits` (R34) -/
  keyBits : BitVec 14
  /-- `iv_bits` (R35) -/
  ivBits : BitVec 14
  /-- `regime` (R36) -/
  regime : Regime
  /-- `S` and `K0` (R40, R41) -/
  engine : Engine
  /-- `res` (R44) -/
  res : List Byte
  /-- `pos`, ghost: no meaning reads it (R38; DEDUCED, log entry 17) -/
  pos : Nat
  /-- the parameter `REKEY` (00_scope.md R11) -/
  rekey : Bool
  /-- `KEYBUF` (20_memory.md R71) -/
  keybuf : Memory
  /-- `IVBUF` (R72) -/
  ivbuf : Memory
  /-- `DIN` (R73) -/
  din : Memory
  /-- `DOUT` (R74), never the same storage as `DIN` (DEDUCED from R82, log entry 14) -/
  dout : Memory
  /-- the header the host has delivered and the engine has not yet executed -/
  header : Option Header
  /-- the response to the command last issued, once it is there (30_encoding.md R111) -/
  response : Option Response
  /-- what the host does next (44_session_fsm.md R231) -/
  host : List HostEvent
  /-- how many free bits have been used (70_reset_and_hazards.md R372) -/
  freeCount : Nat
deriving DecidableEq, Repr

/-- Why the machine stops with a fault. -/
inductive Fault where
  /-- Raised by `memRead` for an access that leaves the buffer: the spec says it needs `addr + n <=` the size of the space
  (20_memory.md R75), so no such byte exists. Safe: the model stops where the spec gives no behaviour; no reachable command
  raises it. -/
  | outsideBuffer (space : Space)
deriving DecidableEq, Repr

/-- Why a step has no meaning. -/
inductive Refusal where
  /-- Raised by the arm of an instruction that has no meaning yet; no arm of this model does. Safe. -/
  | notModelled (mnemonic : String)
  /-- Raised by an accepted command that reads a buffer byte the host has not written: "the model refuses it" (20_memory.md
  R89, 30_encoding.md R116, 93_implementation_defined.md U18). Safe: the hardware would read stale bytes. -/
  | bufferNotWritten (space : Space)
deriving DecidableEq, Repr

/-- What one command or one step answers. -/
abbrev Result := Host.Outcome State Fault Refusal

/-- `S` and `K0` of a build after reset: `VARIANT.blank` in both (DESIGN CHOICE, log entry 3: the spec leaves them
unspecified, 10_state.md R50). -/
def Engine.blank : VariantName → Engine
  | .ach13 => .ach13 ⟨ach13Variant.blank, ach13Variant.blank⟩
  | .tbl => .tbl ⟨tblVariant.blank, tblVariant.blank⟩
  | .trivium => .trivium ⟨triviumVariant.blank, triviumVariant.blank⟩
  | .chacha20 => .chacha20 ⟨chacha20Variant.blank, chacha20Variant.blank⟩
  | .rc4 => .rc4 ⟨rc4Variant.blank, rc4Variant.blank⟩
  | .other => .other ⟨otherVariant.blank, otherVariant.blank⟩
  | .toy4 => .toy4 ⟨toy4Variant.blank, toy4Variant.blank⟩

/-- The build an engine is (00_scope.md R4). -/
def Engine.variant : Engine → VariantName
  | .ach13 _ => .ach13
  | .tbl _ => .tbl
  | .trivium _ => .trivium
  | .chacha20 _ => .chacha20
  | .rc4 _ => .rc4
  | .other _ => .other
  | .toy4 _ => .toy4

/-- The state right after reset of an instance built for `v` with `REKEY = rk` (10_state.md R48). `key_bits`, `iv_bits`,
`regime`, `S` and `K0` are unspecified there; the values here are the model's (DESIGN CHOICE, log entry 3). -/
def State.resetOf (v : VariantName) (rk : Bool) : State where
  initDone := false
  phase := .uninitialized
  mode := .block
  keyBits := 0
  ivBits := 0
  regime := .short
  engine := Engine.blank v
  res := []
  pos := 0
  rekey := rk
  keybuf := []
  ivbuf := []
  din := []
  dout := []
  header := none
  response := none
  host := []
  freeCount := 0

/-- The machine right after reset, in the build of `Config.variant` and `Config.rekey` (log entry 2). -/
def State.reset : State := State.resetOf Config.variant Config.rekey

end Sys2Proof.Machine
end

