-- ==== Sys2Proof/Machine/Engine.lean ====
section
/-! DEFINITION. The Register/State Engine (40_engine.md): its micro-operations, written once over any `VARIANT` and run on
whichever variant the instance is built for. -/

namespace Sys2Proof.Machine

/-- Run an operation that is written for every variant on the variant the engine is built for. -/
def Engine.run {α : Type} (f : {σ : Type} → Variant σ → Regs σ → Regs σ × α) : Engine → Engine × α
  | .ach13 r => match f ach13Variant r with | (r, a) => (.ach13 r, a)
  | .tbl r => match f tblVariant r with | (r, a) => (.tbl r, a)
  | .trivium r => match f triviumVariant r with | (r, a) => (.trivium r, a)
  | .chacha20 r => match f chacha20Variant r with | (r, a) => (.chacha20 r, a)
  | .rc4 r => match f rc4Variant r with | (r, a) => (.rc4 r, a)
  | .other r => match f otherVariant r with | (r, a) => (.other r, a)
  | .toy4 r => match f toy4Variant r with | (r, a) => (.toy4 r, a)

/-- Change the registers by an operation that is written for every variant. -/
def Engine.map (f : {σ : Type} → Variant σ → Regs σ → Regs σ) (e : Engine) : Engine :=
  (e.run (α := Unit) fun V r => (f V r, ())).1

/-- Read a value by an operation that is written for every variant. -/
def Engine.get {α : Type} (f : {σ : Type} → Variant σ → α) (e : Engine) : α :=
  (e.run fun V r => (r, f V)).2

/-- The numeric fields of `VARIANT` (00_scope.md R9). -/
def Engine.params (e : Engine) : Params := e.get fun V => V.toParams

/-- `VARIANT.regime(key_bits)` (00_scope.md R9, 40_engine.md R142). -/
def Engine.regimeOf (e : Engine) (kb : Nat) : Regime := e.get fun V => V.regime kb

/-- `ENG.advance` (40_engine.md R130): one step of `S`, one output unit. -/
def Regs.advance {σ : Type} (V : Variant σ) (rg : Regime) (r : Regs σ) : Regs σ × BitVec V.unitBits :=
  match V.advance rg r.S with
  | (s, u) => ({ r with S := s }, u)

/-- `n` calls of `ENG.advance`, the units in the order they are produced. -/
def Regs.advances {σ : Type} (V : Variant σ) (rg : Regime) : Nat → Regs σ → Regs σ × List (BitVec V.unitBits)
  | 0, r => (r, [])
  | n + 1, r =>
    match Regs.advance V rg r with
    | (r, u) =>
      match Regs.advances V rg n r with
      | (r, us) => (r, u :: us)

/-- `ENG.reset` (40_engine.md R137): `S <- VARIANT.blank`. -/
def Engine.toBlank (e : Engine) : Engine := e.map fun V r => { r with S := V.blank }

/-- `S <- VARIANT.load_key(key, KB, IB)` (41_scheduler.md R152). -/
def Engine.loadKey (key : List Byte) (kb ib : Nat) (e : Engine) : Engine :=
  e.map fun V r => { r with S := V.loadKey key kb ib }

/-- `ENG.save` (40_engine.md R138): `K0 <- S`. -/
def Engine.save (e : Engine) : Engine := e.map fun _ r => { r with K0 := r.S }

/-- `ENG.restore` (40_engine.md R139): `S <- K0`. -/
def Engine.restore (e : Engine) : Engine := e.map fun _ r => { r with S := r.K0 }

/-- `S <- VARIANT.mix_iv(S, iv, iv_bits, key_bits, regime)` (41_scheduler.md R156). -/
def Engine.mixIv (iv : List Byte) (ib kb : Nat) (rg : Regime) (e : Engine) : Engine :=
  e.map fun V r => { r with S := V.mixIv r.S iv ib kb rg }

/-- `ENG.next_chunk` (40_engine.md R140): `U` units, packed into `CHUNK` bytes. -/
def Engine.nextChunk (rg : Regime) (e : Engine) : Engine × List Byte :=
  e.run fun V r =>
    match Regs.advances V rg V.u r with
    | (r, us) => (r, V.pack us)

/-- `S` and `K0` as reset leaves them in the model (DESIGN CHOICE, log entry 3). -/
def Engine.atReset (e : Engine) : Engine := e.map fun V _ => { S := V.blank, K0 := V.blank }

end Sys2Proof.Machine
end

