-- ==== Sys2Proof/Machine/Ops.lean ====
section
/-! DEFINITION. The named operations over buffers and registers that the commands share: the responses (accepting and
rejecting a command), `MemRead` and `MemWrite`, the micro-operations of the scheduler, the keystream generator and the
byte combiner, and the reset of the engine. -/

namespace Sys2Proof.Machine

/-- The status word: the code in bits 2 to 0, zeros above (30_encoding.md R112). -/
def Status.word : Status → Word32
  | .ok => 0
  | .invalidParameter => 1
  | .sequenceError => 2
  | .invalidLength => 3
  | .illegalCommand => 4

/-- The state with the response to the command just executed (30_encoding.md R111). -/
def State.respond (e : Status) (data : List Byte) (s : State) : State := { s with response := some ⟨e.word, data⟩ }

/-- Rejecting a command, this hardware's only exception (60_exceptions.md R336, R337): the response carries the code and no
data, nothing else changes, nothing is saved, control goes nowhere. There is no return from it (R341). -/
def reject (e : Status) (s : State) : Result := .next (s.respond e [])

/-- Completing a command with status `OK` and, for a streaming command, its data (30_encoding.md R111). -/
def accept (data : List Byte) (s : State) : Result := .next (s.respond .ok data)

/-- Go on with the value of an operation, or stop as it stopped. -/
def thenDo {α : Type} (o : Host.Outcome α Fault Refusal) (f : α → Result) : Result :=
  match o with
  | .next a => f a
  | .fault r => .fault r
  | .refused r => .refused r

/-- The contents of a buffer. -/
def State.buffer (s : State) : Space → Memory
  | .keybuf => s.keybuf
  | .ivbuf => s.ivbuf
  | .din => s.din
  | .dout => s.dout

/-- The state with other contents in a buffer. -/
def State.setBuffer (s : State) (m : Memory) : Space → State
  | .keybuf => { s with keybuf := m }
  | .ivbuf => { s with ivbuf := m }
  | .din => { s with din := m }
  | .dout => { s with dout := m }

/-- The size of a buffer in bytes, for a command of length `len` (20_memory.md R70). -/
def State.bufferSize (s : State) (len : Nat) : Space → Nat
  | .keybuf => s.engine.params.keybufBytes
  | .ivbuf => s.engine.params.ivbufBytes
  | .din => len
  | .dout => len

/-- `MemRead(space, addr, n)` for a command of length `len` (20_memory.md R75). Leaving the buffer is a fault; a byte the
host has not written makes the command ill-formed (R89). -/
def memRead (s : State) (len : Nat) (space : Space) (addr n : Nat) : Host.Outcome (List Byte) Fault Refusal :=
  if addr + n ≤ s.bufferSize len space then
    match Memory.readBytes (s.buffer space) addr n with
    | some bs => .next bs
    | none => .refused (.bufferNotWritten space)
  else .fault (.outsideBuffer space)

/-- `MemWrite(DOUT, addr, n, v)` with `n` the length of `v` (20_memory.md R76). -/
def memWrite (addr : Nat) (v : List Byte) (s : State) : State := { s with dout := Memory.write s.dout addr v }

/-- What an accepted KEYSETUP writes (41_scheduler.md R152): lengths and regime, `S` through `ENG.reset` and `load_key`,
`K0` through `ENG.save`, a cleared stream position, `phase <- Keyed`. -/
def keySchedule (key : List Byte) (kb ib : BitVec 14) (s : State) : State :=
  { s with
    keyBits := kb
    ivBits := ib
    regime := s.engine.regimeOf kb.toNat
    engine := (s.engine.toBlank.loadKey key kb.toNat ib.toNat).save
    res := []
    pos := 0
    mode := .block
    phase := .keyed }

/-- The IV step, shared by IVSETUP and the packet commands (41_scheduler.md R156, 43_combiner.md R196): `ENG.restore`, then
`mix_iv`, and a cleared stream position. -/
def ivStep (iv : List Byte) (s : State) : State :=
  { s with
    engine := s.engine.restore.mixIv iv s.ivBits.toNat s.keyBits.toNat s.regime
    res := []
    pos := 0 }

/-- The start of a turn of `GEN.take`: an empty residue is refilled by `ENG.next_chunk` (42_keystream.md R172). -/
def refill (rg : Regime) (e : Engine) (res : List Byte) : Engine × List Byte :=
  if res = [] then e.nextChunk rg else (e, res)

/-- One turn of the loop of `GEN.take` after another, at most `fuel` of them: `need` bytes are still to be delivered
(42_keystream.md R172). A turn delivers at least one byte, so `need` turns are enough (DESIGN CHOICE, log entry 20). -/
def takeLoop (rg : Regime) : Nat → Nat → Engine → List Byte → List Byte × Engine × List Byte
  | 0, _, e, res => ([], e, res)
  | _ + 1, 0, e, res => ([], e, res)
  | fuel + 1, need + 1, e, res =>
    match refill rg e res with
    | (e, res) =>
      let k := min (need + 1) res.length
      match takeLoop rg fuel (need + 1 - k) e (res.drop k) with
      | (out, e, left) => (res.take k ++ out, e, left)

/-- `GEN.take(n)`: the next `n` keystream bytes (42_keystream.md R172). -/
def genTake (n : Nat) (s : State) : State × List Byte :=
  match takeLoop s.regime n n s.engine s.res with
  | (out, e, res) => ({ s with engine := e, res := res, pos := s.pos + n }, out)

/-- The bytewise exclusive-or of `CMB.process` (43_combiner.md R190). -/
def xorBytes (din ks : List Byte) : List Byte := List.zipWith (· ^^^ ·) din ks

/-- `CMB.process(LEN)` on input bytes already read (43_combiner.md R190): the state after, and the output bytes. -/
def combine (din : List Byte) (n : Nat) (s : State) : State × List Byte :=
  match genTake n s with
  | (s, ks) => (memWrite 0 (xorBytes din ks) s, xorBytes din ks)

/-- What INIT does: `init_done <- 1` (41_scheduler.md R150). -/
def State.setInitDone (s : State) : State := { s with initDone := true }

/-- What IVSETUP does to the session at its end: `mode <- Block`, `phase <- IvReady` (41_scheduler.md R156). -/
def State.toIvReady (s : State) : State := { s with mode := .block, phase := .ivReady }

/-- What every byte-mode command does to the session at its end: `mode <- Byte`, `phase <- Streaming` (43_combiner.md R191). -/
def State.toByteMode (s : State) : State := { s with mode := .byte, phase := .streaming }

/-- What every block-mode command does to the session at its end: `phase <- Streaming` (43_combiner.md R193). -/
def State.toBlockStreaming (s : State) : State := { s with phase := .streaming }

/-- The effect of `Reset` on the engine (70_reset_and_hazards.md R360). `key_bits`, `iv_bits`, `regime`, `S` and `K0` are
unspecified afterwards; they get the values `State.reset` has (DESIGN CHOICE, log entry 3). A command in progress gives no
response (R372). R360 lists engine state only: that an idle `Reset` also takes away the response of an earlier command and a
header not yet executed is the model's choice (DESIGN CHOICE, log entry 4). The buffers are the host's. -/
def resetEngine (s : State) : State :=
  { s with
    initDone := false
    phase := .uninitialized
    mode := .block
    keyBits := 0
    ivBits := 0
    regime := .short
    engine := s.engine.atReset
    res := []
    pos := 0
    header := none
    response := none }

end Sys2Proof.Machine
end

