-- ==== Sys2Proof/Machine/Operands.lean ====
section
/-! DEFINITION. The byte-string operands of the commands (30_encoding.md R106): none is in the header, each is the prefix
of an operand buffer. -/

namespace Sys2Proof.Machine

/-- The key: `MemRead(KEYBUF, 0, ceil8(KB))` (30_encoding.md R106, 20_memory.md R71). -/
def readKey (kb : BitVec 14) (s : State) : Host.Outcome (List Byte) Fault Refusal :=
  memRead s 0 .keybuf 0 (ceil8 kb.toNat)

/-- The IV: `MemRead(IVBUF, 0, ceil8(iv_bits))`, its length from the state (30_encoding.md R106, 20_memory.md R72). -/
def readIv (s : State) : Host.Outcome (List Byte) Fault Refusal :=
  memRead s 0 .ivbuf 0 (ceil8 s.ivBits.toNat)

/-- The data: `MemRead(DIN, 0, LEN)` (30_encoding.md R106, 20_memory.md R73). -/
def readDin (len : BitVec 28) (s : State) : Host.Outcome (List Byte) Fault Refusal :=
  memRead s len.toNat .din 0 len.toNat

end Sys2Proof.Machine
end

