-- ==== Sys2Proof/Machine/Flags.lean ====
section
/-! DEFINITION. The checks a command makes on the control state and its header fields (60_exceptions.md R331 to R338), in
their order of priority. All of them read the state and the header alone. -/

namespace Sys2Proof.Machine

/-- KEYSETUP is legal in `Uninitialized`, and in `Keyed` where `REKEY` holds (41_scheduler.md R155). -/
def keysetupLegal (s : State) : Bool :=
  decide (s.phase = .uninitialized) || (s.rekey && decide (s.phase = .keyed))

/-- IVSETUP and the packet commands are legal once there is a key (41_scheduler.md R157 a, 43_combiner.md R196). -/
def ivLegal (s : State) : Bool := decide (s.phase ≠ .uninitialized)

/-- Streaming commands are legal once an epoch has begun (44_session_fsm.md R229). -/
def streamLegal (s : State) : Bool := decide (s.phase = .ivReady) || decide (s.phase = .streaming)

/-- Block-mode commands also need an epoch not yet committed to byte mode (44_session_fsm.md R224). -/
def blockLegal (s : State) : Bool := streamLegal s && decide (s.mode ≠ .byte)

/-- Both lengths are supported (41_scheduler.md R152, R153). -/
def lengthsOk (kb ib : BitVec 14) (s : State) : Bool :=
  s.engine.params.keySizeOk kb.toNat && s.engine.params.ivSizeOk ib.toNat

/-- A whole number of blocks (43_combiner.md R193). -/
def blockLenOk (len : BitVec 28) (s : State) : Bool := decide (len.toNat % s.engine.params.blockLen = 0)

/-- The sequence checks every command but INIT makes first, in the order of 60_exceptions.md R338: `init_done` (41_scheduler.md
R151), then the phase or mode check of the command. Both are answered `SequenceError`. -/
def sequenced (legal : State → Bool) (body : State → Result) (s : State) : Result :=
  if s.initDone = false then reject .sequenceError s
  else if legal s = false then reject .sequenceError s
  else body s

/-- The operand check of a command, made after its sequence checks and answered with an error of its own
(60_exceptions.md R330, R332, R338). -/
def requiring (ok : State → Bool) (e : Status) (body : State → Result) (s : State) : Result :=
  if ok s = false then reject e s else body s

end Sys2Proof.Machine
end

