-- ==== Sys2Proof/Machine/Combiner.lean ====
section
/-! DEFINITION. The Byte Combiner's commands (43_combiner.md): arbitrary-byte, block-granular and packet, each pair one
shared operation, since encryption and decryption are the identical operation (R192, R194, R197). -/

namespace Sys2Proof.Machine

/-- The byte-mode commands (43_combiner.md R191). -/
def byteCommand (len : BitVec 28) (s : State) : Result :=
  sequenced streamLegal
    (fun s => thenDo (readDin len s) fun din =>
      match combine din len.toNat s with
      | (s, out) => accept out s.toByteMode) s

/-- The block-mode commands (43_combiner.md R193). -/
def blockCommand (len : BitVec 28) (s : State) : Result :=
  sequenced blockLegal
    (requiring (blockLenOk len) .invalidLength fun s =>
      thenDo (readDin len s) fun din =>
        match combine din len.toNat s with
        | (s, out) => accept out s.toBlockStreaming) s

/-- The packet commands (43_combiner.md R196): the IV step, then the data step, atomically. That the IV is read first shows
only in the name of a refusal (DESIGN CHOICE, log entry 19). -/
def packetCommand (len : BitVec 28) (s : State) : Result :=
  sequenced ivLegal
    (fun s => thenDo (readIv s) fun iv => thenDo (readDin len s) fun din =>
      match combine din len.toNat (ivStep iv s) with
      | (s, out) => accept out s.toByteMode) s

/-- ENCRYPT_BYTES (43_combiner.md R191). -/
def execEncryptBytes (len : BitVec 28) (s : State) : Result := byteCommand len s

/-- DECRYPT_BYTES (43_combiner.md R192). -/
def execDecryptBytes (len : BitVec 28) (s : State) : Result := byteCommand len s

/-- ENCRYPT_BLOCKS (43_combiner.md R193). -/
def execEncryptBlocks (len : BitVec 28) (s : State) : Result := blockCommand len s

/-- DECRYPT_BLOCKS (43_combiner.md R194). -/
def execDecryptBlocks (len : BitVec 28) (s : State) : Result := blockCommand len s

/-- ENCRYPT_PACKET (43_combiner.md R196). -/
def execEncryptPacket (len : BitVec 28) (s : State) : Result := packetCommand len s

/-- DECRYPT_PACKET (43_combiner.md R197). -/
def execDecryptPacket (len : BitVec 28) (s : State) : Result := packetCommand len s

end Sys2Proof.Machine
end

