-- ==== Sys2Proof/Machine/Keystream.lean ====
section
/-! DEFINITION. The Keystream Generator's command: KEYSTREAM_BYTES (42_keystream.md R173). -/

namespace Sys2Proof.Machine

/-- KEYSTREAM_BYTES (42_keystream.md R173): raw keystream into `DOUT`; a byte-mode command. Always present (DEDUCED, log
entry 22). -/
def execKeystreamBytes (len : BitVec 28) (s : State) : Result :=
  sequenced streamLegal
    (fun s =>
      match genTake len.toNat s with
      | (s, ks) => accept ks (memWrite 0 ks s).toByteMode) s

end Sys2Proof.Machine
end

