-- ==== Sys2Proof/Machine/Scheduler.lean ====
section
/-! DEFINITION. The Key/IV Scheduler commands: INIT, KEYSETUP, IVSETUP (41_scheduler.md). -/

namespace Sys2Proof.Machine

/-- INIT (41_scheduler.md R150): only `init_done` changes; legal in every phase. -/
def execInit (s : State) : Result := accept [] s.setInitDone

/-- KEYSETUP (41_scheduler.md R152). -/
def execKeysetup (kb ib : BitVec 14) (s : State) : Result :=
  sequenced keysetupLegal
    (requiring (lengthsOk kb ib) .invalidParameter fun s =>
      thenDo (readKey kb s) fun key => accept [] (keySchedule key kb ib s)) s

/-- IVSETUP (41_scheduler.md R156): the IV step, then `mode <- Block` and `phase <- IvReady`. -/
def execIvsetup (s : State) : Result :=
  sequenced ivLegal (fun s => thenDo (readIv s) fun iv => accept [] (ivStep iv s).toIvReady) s

end Sys2Proof.Machine
end

