-- ==== Sys2Proof/Machine/Dispatch.lean ====
section
/-! DEFINITION. What each command does: one arm per constructor of `Instr` (30_encoding.md R107). -/

namespace Sys2Proof.Machine

def exec (i : Instr) (s : State) : Host.Outcome State Fault Refusal :=
  match i with
  | .init => Sys2Proof.Machine.execInit s
  | .keysetup kb ib => Sys2Proof.Machine.execKeysetup kb ib s
  | .ivsetup => Sys2Proof.Machine.execIvsetup s
  | .encryptBytes len => Sys2Proof.Machine.execEncryptBytes len s
  | .decryptBytes len => Sys2Proof.Machine.execDecryptBytes len s
  | .keystreamBytes len => Sys2Proof.Machine.execKeystreamBytes len s
  | .encryptBlocks len => Sys2Proof.Machine.execEncryptBlocks len s
  | .decryptBlocks len => Sys2Proof.Machine.execDecryptBlocks len s
  | .encryptPacket len => Sys2Proof.Machine.execEncryptPacket len s
  | .decryptPacket len => Sys2Proof.Machine.execDecryptPacket len s

end Sys2Proof.Machine
end

