-- ==== Sys2Proof/Machine/HostPort.lean ====
section
/-! DEFINITION. The command interface (30_encoding.md R100, R113; 60_exceptions.md R352): executing a delivered header, and
what the host does to the engine between commands. -/

namespace Sys2Proof.Machine

/-- Execute a header whole: its command, or `IllegalCommand` where it selects none, before every other check
(30_encoding.md R113, 60_exceptions.md R333). -/
def runHeader (h : Header) (s : State) : Result :=
  match decode h with
  | .ok i => exec i s
  | .error _ => reject .illegalCommand s

/-- `DOUT` when `Reset` strikes during a streaming command that would have written `bs` from `addr` on: each byte is the
old or the new one, as a fresh free bit says (70_reset_and_hazards.md R372, log entry 7). -/
def partlyWritten (count : Nat) : Nat → List Byte → Memory → Memory
  | _, [], m => m
  | addr, b :: bs, m =>
    partlyWritten (count + 1) (addr + 1) bs (if Config.freeBit count then Memory.write m addr [b] else m)

/-- The data a response carries; none where there is no response. -/
def responseData (s : State) : List Byte :=
  match s.response with
  | some r => r.data
  | none => []

/-- `Reset` during the command of header `h` (70_reset_and_hazards.md R372): no response, the engine as after `Reset`, and
`DOUT` partly written where the command would have written it. -/
def resetDuring (h : Header) (s : State) : Result :=
  thenDo (runHeader h s) fun t =>
    .next { resetEngine s with
      dout := partlyWritten s.freeCount 0 (responseData t) s.dout
      freeCount := s.freeCount + (responseData t).length }

/-- One act of the host (60_exceptions.md R352). Issuing a command takes the earlier response away; the engine answers in
the next step (20_memory.md R84). -/
def hostEvent (ev : HostEvent) (s : State) : Result :=
  match ev with
  | .fill space addr bytes => .next (s.setBuffer (Memory.write (s.buffer space) addr bytes) space)
  | .issue h => .next { s with header := some h, response := none }
  | .reset => .next (resetEngine s)
  | .resetDuring h => resetDuring h s

end Sys2Proof.Machine
end

