-- ==== Sys2Proof/Machine/Step.lean ====
section
/-! DEFINITION. One step of the machine: the engine executes the command the host has delivered, or else the host acts, or
else the engine idles (20_memory.md R84, R85; 44_session_fsm.md R231). -/

namespace Sys2Proof.Machine

/-- The command is taken from the port and executed whole; with none delivered, the host's next act happens; with nothing
left to do the engine waits, its state unchanged (60_exceptions.md R351). No header arrives during a command and no time
passes in one (DEDUCED, log entries 15 and 16). -/
def step (s : State) : Host.Outcome State Fault Refusal :=
  match s.header with
  | some h => runHeader h { s with header := none }
  | none =>
    match s.host with
    | [] => .next s
    | ev :: rest => hostEvent ev { s with host := rest }

/-- The state with an opcode-table word delivered as the header of the very next step (log entry 4). -/
def State.withFetchWord (s : State) (nbits w : Nat) : State := { s with header := some (headerOf nbits w) }

end Sys2Proof.Machine
end

