-- ==== Sys2Proof/Safety.lean ====
section
/-! DEFINITION. What claims about the engine are stated in: the keystream of an IV epoch (42_keystream.md R170), the generator
at a position (R171), the invariants that hold between commands (10_state.md R47), and runs of commands
(44_session_fsm.md R231). -/

namespace Sys2Proof.Machine

/-- The session passes the sequence checks of a streaming command (44_session_fsm.md R229). -/
def State.Streamable (s : State) : Prop := s.initDone = true ∧ (s.phase = .ivReady ∨ s.phase = .streaming)

/-- The chunk length of the engine's variant (00_scope.md R9). -/
def Engine.chunkLen (e : Engine) : Nat := e.params.chunk

/-- The engine after `m` chunks: its `S` is the spec's `S_m` where `e` holds `S_0` (42_keystream.md R170). -/
def Engine.afterChunks (rg : Regime) (e : Engine) : Nat → Engine
  | 0 => e
  | m + 1 => ((e.afterChunks rg m).nextChunk rg).1

/-- The chunk `c_m` of the epoch that begins with `e` (42_keystream.md R170). -/
def Engine.chunk (rg : Regime) (e : Engine) (m : Nat) : List Byte := ((e.afterChunks rg m).nextChunk rg).2

/-- `KS[i] = c_{i div CHUNK}[i mod CHUNK]` for the epoch that begins with `e` (42_keystream.md R170). -/
def Engine.keystream (rg : Regime) (e : Engine) (i : Nat) : Byte :=
  (e.chunk rg (i / e.chunkLen)).getD (i % e.chunkLen) 0

/-- Keystream bytes `KS[p .. p + n - 1]`. -/
def Engine.keystreamBytes (rg : Regime) (e : Engine) (p n : Nat) : List Byte :=
  (List.range n).map fun i => e.keystream rg (p + i)

/-- `ceil(p / c)`. -/
def ceilDiv (p c : Nat) : Nat := (p + (c - 1)) / c

/-- The generator `(S, res)`, with `S` in `e`, is at position `p` of the epoch that begins with `e0` (42_keystream.md R171).
`K0` takes no part in streaming, so the whole engine is compared. -/
def GeneratorAt (rg : Regime) (e0 e : Engine) (res : List Byte) (p : Nat) : Prop :=
  e = e0.afterChunks rg (ceilDiv p e0.chunkLen) ∧
  res = if p % e0.chunkLen = 0 then [] else (e0.chunk rg (p / e0.chunkLen)).drop (p % e0.chunkLen)

/-- `(S, res)` of `s` is at position `p` of the epoch that begins with `e0` (42_keystream.md R171). -/
def State.AtPosition (s : State) (e0 : Engine) (p : Nat) : Prop := GeneratorAt s.regime e0 s.engine s.res p

/-- The engine an IV step leaves: `mix_iv` of a copy of `K0` (41_scheduler.md R156). It is the `S_0` of the epoch. -/
def State.epochStart (s : State) (iv : List Byte) : Engine :=
  s.engine.restore.mixIv iv s.ivBits.toNat s.keyBits.toNat s.regime

/-- The same variant and the same `K0`: what `ENG.restore` gives is the same (40_engine.md R139). -/
def Engine.SameKeySchedule (e e' : Engine) : Prop := e.restore = e'.restore

/-- `K0 = VARIANT.load_key(key, KB, IB)` (10_state.md R47 item 1). -/
def Engine.HoldsKey (e : Engine) (key : List Byte) (kb ib : Nat) : Prop := e.restore = e.loadKey key kb ib

/-- The six invariants of 10_state.md R47, which hold after reset and between commands. -/
structure State.Inv (s : State) : Prop where
  keyed : s.phase ≠ .uninitialized →
    s.initDone = true ∧ s.engine.params.keySizeOk s.keyBits.toNat = true ∧
    s.engine.params.ivSizeOk s.ivBits.toNat = true ∧ s.regime = s.engine.regimeOf s.keyBits.toNat ∧
    ∃ key, key.length = ceil8 s.keyBits.toNat ∧ s.engine.HoldsKey key s.keyBits.toNat s.ivBits.toNat
  before_epoch : s.phase = .uninitialized ∨ s.phase = .keyed → s.mode = .block ∧ s.res = [] ∧ s.pos = 0
  iv_ready : s.phase = .ivReady → s.mode = .block ∧ s.res = [] ∧ s.pos = 0
  block_mode : s.mode = .block → s.res = [] ∧ s.pos % s.engine.params.blockLen = 0
  residue : s.res.length < s.engine.chunkLen ∧
    s.res.length = (s.engine.chunkLen - s.pos % s.engine.chunkLen) % s.engine.chunkLen
  position : s.phase = .ivReady ∨ s.phase = .streaming →
    ∃ iv, iv.length = ceil8 s.ivBits.toNat ∧ s.AtPosition (s.epochStart iv) s.pos

/-- All four buffers are in canonical form. -/
def State.BuffersCanonical (s : State) : Prop :=
  Memory.wf s.keybuf = true ∧ Memory.wf s.ivbuf = true ∧ Memory.wf s.din = true ∧ Memory.wf s.dout = true

/-- The answer is the rejection of the command with status `e` (60_exceptions.md R336): a next state that differs from `s`
in the response alone. -/
def Rejects (i : Instr) (s : State) (e : Status) : Prop :=
  exec i s = .next (s.respond e [])

/-- The answer is a next state with status `OK` and these data. -/
def Accepts (i : Instr) (s t : State) (data : List Byte) : Prop :=
  exec i s = .next t ∧ t.response = some ⟨Status.ok.word, data⟩

/-- One command with the contents the host gives `DIN` before it (20_memory.md R89). -/
structure Order where
  instr : Instr
  din : List Byte
deriving DecidableEq, Repr

/-- Commands in order, each with its own `DIN`, stopping at the first that is not accepted; the data of all of them, in
order (44_session_fsm.md R231, 42_keystream.md R176). -/
def runOrders : List Order → State → Option (State × List Byte)
  | [], s => some (s, [])
  | o :: os, s =>
    match exec o.instr { s with din := Memory.cells 0 o.din } with
    | .next t =>
      match t.response with
      | some r =>
        if r.st = Status.ok.word then
          match runOrders os t with
          | some (u, rest) => some (u, r.data ++ rest)
          | none => none
        else none
      | none => none
    | .fault _ => none
    | .refused _ => none

/-- An ENCRYPT or DECRYPT command of byte mode over the whole of its `DIN` (43_combiner.md R191, R192). -/
def Order.IsByteData (o : Order) : Prop :=
  ∃ len : BitVec 28, len.toNat = o.din.length ∧ (o.instr = .encryptBytes len ∨ o.instr = .decryptBytes len)

/-- An ENCRYPT or DECRYPT command of block mode over the whole of its `DIN`, a whole number of blocks of length `b`
(43_combiner.md R193, R194). -/
def Order.IsBlockData (b : Nat) (o : Order) : Prop :=
  ∃ len : BitVec 28, len.toNat = o.din.length ∧ len.toNat % b = 0 ∧
    (o.instr = .encryptBlocks len ∨ o.instr = .decryptBlocks len)

/-- The input bytes of a list of orders, in order. -/
def ordersInput (os : List Order) : List Byte := os.flatMap Order.din

/-- An IV step in either state starts the same epoch: the same key schedule, lengths and regime, and the same IV, which is
the bytes of `IVBUF` the step reads (41_scheduler.md R156, R158; 20_memory.md R72). -/
def State.SameKeyAndIv (s s' : State) : Prop :=
  s.engine.SameKeySchedule s'.engine ∧ s.keyBits = s'.keyBits ∧ s.ivBits = s'.ivBits ∧ s.regime = s'.regime ∧
  Memory.readBytes s.ivbuf 0 (ceil8 s.ivBits.toNat) = Memory.readBytes s'.ivbuf 0 (ceil8 s.ivBits.toNat)

/-- An epoch begun from `s` in which message `m` is given and `c` is returned: an IVSETUP and block, then byte commands over
`m`, or one packet command (41_scheduler.md R156, 43_combiner.md R196, R199). -/
def EpochMaps (s : State) (m c : List Byte) : Prop :=
  (∃ (blocks bytes : List Order) (u v : State), exec .ivsetup s = .next u ∧ u.response = some ⟨0, []⟩ ∧
    (∀ o ∈ blocks, o.IsBlockData s.engine.params.blockLen) ∧ (∀ o ∈ bytes, o.IsByteData) ∧
    ordersInput (blocks ++ bytes) = m ∧ runOrders (blocks ++ bytes) u = some (v, c)) ∨
  ∃ (i : Instr) (len : BitVec 28) (t : State), (i = .encryptPacket len ∨ i = .decryptPacket len) ∧
    Memory.readBytes s.din 0 len.toNat = some m ∧ exec i s = .next t ∧ t.response = some ⟨0, c⟩

/-- The two states agree in everything the spec gives a value after reset, in the instance's parameters and in the host's
side; they may differ in `key_bits`, `iv_bits`, `regime`, `S` and `K0` (10_state.md R48, R50). -/
def State.AgreeButUnspecified (s t : State) : Prop :=
  s.engine.variant = t.engine.variant ∧
  t = { s with keyBits := t.keyBits, ivBits := t.ivBits, regime := t.regime, engine := t.engine }

/-- When a command is answered `SequenceError`: the table of 60_exceptions.md R331. -/
def SequenceErrorCondition (i : Instr) (s : State) : Prop :=
  match i with
  | .init => False
  | .keysetup _ _ => s.initDone = false ∨ ¬(s.phase = .uninitialized ∨ (s.rekey = true ∧ s.phase = .keyed))
  | .ivsetup | .encryptPacket _ | .decryptPacket _ => s.initDone = false ∨ s.phase = .uninitialized
  | .encryptBytes _ | .decryptBytes _ | .keystreamBytes _ =>
    s.initDone = false ∨ s.phase = .uninitialized ∨ s.phase = .keyed
  | .encryptBlocks _ | .decryptBlocks _ =>
    s.initDone = false ∨ s.phase = .uninitialized ∨ s.phase = .keyed ∨ s.mode = .byte

/-- The host has put at least these many bytes, from index 0 without a gap, into the input buffers (20_memory.md R89). -/
def State.Supplies (s : State) (b : Supplied) : Prop :=
  (Memory.readBytes s.keybuf 0 b.key).isSome = true ∧ (Memory.readBytes s.ivbuf 0 b.iv).isSome = true ∧
  (Memory.readBytes s.din 0 b.din).isSome = true

/-- The block counter of `CHACHA20`: `x[13] * 2^32 + x[12]` (47_variant_chacha.md R289). -/
def chaCounter (x : Vector Word32 16) : Nat := x[13].toNat * 2 ^ 32 + x[12].toNat

/-- `P` is a permutation of `0 .. 255`: no value stands in two places (48_variant_table.md R310). -/
def IsPermutationTable (p : Vector Byte 256) : Prop := ∀ a b : Byte, rc4At p a = rc4At p b → a = b

/-- The columns of the transition table of 44_session_fsm.md R221. -/
inductive CommandClass where
  | init
  | keysetup
  | ivsetup
  | bytes
  | blocks
  | packet
deriving DecidableEq, Repr

/-- The column a command stands in (44_session_fsm.md R221). -/
def commandClass : Instr → CommandClass
  | .init => .init
  | .keysetup _ _ => .keysetup
  | .ivsetup => .ivsetup
  | .encryptBytes _ => .bytes
  | .decryptBytes _ => .bytes
  | .keystreamBytes _ => .bytes
  | .encryptBlocks _ => .blocks
  | .decryptBlocks _ => .blocks
  | .encryptPacket _ => .packet
  | .decryptPacket _ => .packet

/-- The operands are ones the command accepts: supported lengths for KEYSETUP (41_scheduler.md R153), a whole number of
blocks for the block commands (43_combiner.md R193). -/
def operandsGood (i : Instr) (p : Params) : Bool :=
  match i with
  | .keysetup kb ib => p.keySizeOk kb.toNat && p.ivSizeOk ib.toNat
  | .encryptBlocks len => decide (len.toNat % p.blockLen = 0)
  | .decryptBlocks len => decide (len.toNat % p.blockLen = 0)
  | .init => true
  | .ivsetup => true
  | .encryptBytes _ => true
  | .decryptBytes _ => true
  | .keystreamBytes _ => true
  | .encryptPacket _ => true
  | .decryptPacket _ => true

/-- A cell of the transition table: the next phase and mode, or the error. -/
inductive Cell where
  | goes (p : Phase) (m : Mode)
  | error (e : Status)
deriving DecidableEq, Repr

/-- The transition table for `init_done = 1` (44_session_fsm.md R221), rows `U`, `K`, `I`, `SB`, `SY` of R220. `good` says
whether the operands are ones the command accepts. -/
def sessionTable (rekey : Bool) (p : Phase) (m : Mode) (c : CommandClass) (good : Bool) : Cell :=
  match p, c with
  | p, .init => .goes p m
  | .uninitialized, .keysetup => if good then .goes .keyed .block else .error .invalidParameter
  | .uninitialized, _ => .error .sequenceError
  | .keyed, .keysetup =>
    if rekey then (if good then .goes .keyed .block else .error .invalidParameter) else .error .sequenceError
  | .keyed, .ivsetup => .goes .ivReady .block
  | .keyed, .packet => .goes .streaming .byte
  | .keyed, _ => .error .sequenceError
  | _, .keysetup => .error .sequenceError
  | _, .ivsetup => .goes .ivReady .block
  | _, .bytes => .goes .streaming .byte
  | _, .packet => .goes .streaming .byte
  | _, .blocks =>
    match m with
    | .byte => .error .sequenceError
    | .block => if good then .goes .streaming .block else .error .invalidLength

end Sys2Proof.Machine
end

