-- ==== Sys2Proof/Certificates/Slice0/Obligations.lean ====
section
/-! DEFINITION. The statements about the model that are to be proved. Each docstring names the rule or the section of the
spec it formalises; a statement that rests on a choice of the model says so and names the log entry. -/

open Sys2Proof Sys2Proof.Machine

/-! ## Encoding (30_encoding.md) -/

/-- R114 whole: what `encode` gives for each format, and that it and `decode` are inverse to each other. -/
def Obligations.EncodeAndDecodeAreInverse : Prop :=
  (∀ i : Instr, decode (encode i) = .ok i) ∧
  (∀ (h : Header) (i : Instr), decode h = .ok i → encode i = h) ∧
  encode .init = 0x00000000 ∧ encode .ivsetup = 0x20000000 ∧
  (∀ kb ib : BitVec 14, (encode (.keysetup kb ib)).toNat = 0x10000000 + kb.toNat * 2 ^ 14 + ib.toNat) ∧
  (∀ len : BitVec 28,
    (encode (.encryptBytes len)).toNat = 3 * 2 ^ 28 + len.toNat ∧
    (encode (.decryptBytes len)).toNat = 4 * 2 ^ 28 + len.toNat ∧
    (encode (.keystreamBytes len)).toNat = 5 * 2 ^ 28 + len.toNat ∧
    (encode (.encryptBlocks len)).toNat = 6 * 2 ^ 28 + len.toNat ∧
    (encode (.decryptBlocks len)).toNat = 7 * 2 ^ 28 + len.toNat ∧
    (encode (.encryptPacket len)).toNat = 8 * 2 ^ 28 + len.toNat ∧
    (encode (.decryptPacket len)).toNat = 9 * 2 ^ 28 + len.toNat)

/-- R107: a header that decodes selects exactly the row of its command, and a header that does not decodes to nothing
because it selects no row. -/
def Obligations.HeaderSelectsExactlyItsOpcodeRow : Prop :=
  ∀ h : Header,
    match decode h with
    | .ok i => ((opcodeMap.filter fun r => r.selects h).map fun r => r.mnemonic) = [i.mnemonic]
    | .error _ => (opcodeMap.filter fun r => r.selects h) = []

/-- R108, R109, R333: a header that selects no command is answered with status word 4 in every state, and nothing else of the
state changes. That the delivered header is consumed is the model's convention (log entry 4). -/
def Obligations.ReservedHeaderAnswersIllegalCommand : Prop :=
  ∀ (s : State) (h : Header), s.header = some h →
    (10 ≤ h.toNat / 2 ^ 28 ∨ ((h.toNat / 2 ^ 28 = 0 ∨ h.toNat / 2 ^ 28 = 2) ∧ h.toNat % 2 ^ 28 ≠ 0)) →
    step s = .next { s with header := none, response := some ⟨4, []⟩ }

/-- The worked headers of 30_encoding.md R115. -/
def Obligations.WorkedHeadersDecodeAsTheSpecLists : Prop :=
  decode 0x00000000 = .ok .init ∧ decode 0x10140050 = .ok (.keysetup 80 80) ∧
  decode 0x10140000 = .ok (.keysetup 80 0) ∧ decode 0x10200040 = .ok (.keysetup 128 64) ∧
  decode 0x10400040 = .ok (.keysetup 256 64) ∧ decode 0x100A0000 = .ok (.keysetup 40 0) ∧
  decode 0x20000000 = .ok .ivsetup ∧ decode 0x30000009 = .ok (.encryptBytes 9) ∧
  decode 0x40000009 = .ok (.decryptBytes 9) ∧ decode 0x50000100 = .ok (.keystreamBytes 256) ∧
  decode 0x60000040 = .ok (.encryptBlocks 64) ∧ decode 0x70000040 = .ok (.decryptBlocks 64) ∧
  decode 0x80000005 = .ok (.encryptPacket 5) ∧ decode 0x90000005 = .ok (.decryptPacket 5) ∧
  decode 0xA0000000 = .error (.reservedOpcode 10) ∧ decode 0x20000001 = .error (.nonzeroLowField 2)

/-! ## One step of the machine -/

/-- A delivered header that decodes is executed: the step is `exec` of the command on the state with the header taken from
the port. How a header is delivered is the model's convention (log entry 4). -/
def Obligations.StepExecutesTheDecodedCommand : Prop :=
  (∀ (s : State) (h : Header) (i : Instr), s.header = some h → decode h = .ok i →
    step s = exec i { s with header := none }) ∧
  ∀ (s : State) (nbits w : Nat) (i : Instr), decodeTableWord nbits w = some i →
    step (s.withFetchWord nbits w) = exec i { s with header := none }

/-- With no command delivered and the host's script at its end, the engine holds its state unchanged
(60_exceptions.md R351; the script is the model's convention, log entry 4). -/
def Obligations.IdleEngineHoldsItsState : Prop :=
  ∀ s : State, s.header = none → s.host = [] → step s = .next s

/-- Filling a buffer: the bytes written read as written, every other index of every buffer reads as before, and no other
part of the state changes but the script (60_exceptions.md R352; log entry 4). -/
def Obligations.HostFillWritesOnlyItsBytes : Prop :=
  ∀ (s : State) (sp : Space) (a : Nat) (bs : List Byte) (rest : List HostEvent),
    s.header = none → s.host = .fill sp a bs :: rest →
    ∃ t, step s = .next t ∧
      (∀ k, Memory.read (t.buffer sp) k =
        if a ≤ k ∧ k < a + bs.length then bs[k - a]? else Memory.read (s.buffer sp) k) ∧
      (∀ sp', sp' ≠ sp → t.buffer sp' = s.buffer sp') ∧
      t = { s with keybuf := t.keybuf, ivbuf := t.ivbuf, din := t.din, dout := t.dout, host := rest }

/-- Issuing a header and executing it are two steps; until it is executed nothing of the engine changes
(30_encoding.md R100, 20_memory.md R84; log entry 4). -/
def Obligations.IssuedCommandIsExecutedNext : Prop :=
  ∀ (s : State) (h : Header) (i : Instr) (rest : List HostEvent),
    s.header = none → s.host = .issue h :: rest → decode h = .ok i →
    ∃ t, step s = .next t ∧ t = { s with header := some h, response := none, host := rest } ∧
      step t = exec i { s with header := none, response := none, host := rest }

/-- What `Reset` leaves, for the state the spec gives a value (70_reset_and_hazards.md R360, 10_state.md R48); the
parameters and the buffers stay. That the script moves on, and that header and response are gone (an idle `Reset` takes away
the response of an earlier command), is the model's choice (log entry 4), which no rule gives. -/
def Obligations.ResetEventReturnsToUninitialized : Prop :=
  ∀ (s : State) (rest : List HostEvent), s.header = none → s.host = .reset :: rest →
    ∃ t, step s = .next t ∧ t.initDone = false ∧ t.phase = .uninitialized ∧ t.mode = .block ∧ t.pos = 0 ∧ t.res = [] ∧
      t.engine.variant = s.engine.variant ∧ t.rekey = s.rekey ∧
      t.keybuf = s.keybuf ∧ t.ivbuf = s.ivbuf ∧ t.din = s.din ∧ t.dout = s.dout ∧
      t.header = none ∧ t.response = none ∧ t.host = rest

/-- The values 10_state.md R48 gives after reset, in every build. -/
def Obligations.ResetStateHasTheSpecsValues : Prop :=
  ∀ (v : VariantName) (rk : Bool),
    let s := State.resetOf v rk
    s.initDone = false ∧ s.phase = .uninitialized ∧ s.mode = .block ∧ s.pos = 0 ∧ s.res = [] ∧
    s.engine.variant = v ∧ s.rekey = rk

/-- `Reset` during a command (70_reset_and_hazards.md R372): no response, the session state of `Reset`, and each byte of
`DOUT` either as it was or as the command would have left it. `u` is the state the command would have left. The event itself
and what becomes of header and script are the model's choice (log entry 4), as is how the free bits are drawn (log entry
7). -/
def Obligations.ResetDuringCommandLeavesEachByteOldOrNew : Prop :=
  ∀ (s u : State) (h : Header) (rest : List HostEvent), s.header = none → s.host = .resetDuring h :: rest →
    runHeader h { s with host := rest } = .next u →
    ∃ t, step s = .next t ∧ t.response = none ∧ t.initDone = false ∧ t.phase = .uninitialized ∧ t.mode = .block ∧
      t.pos = 0 ∧ t.res = [] ∧ t.header = none ∧ t.host = rest ∧
      t.engine.variant = s.engine.variant ∧ t.rekey = s.rekey ∧
      t.keybuf = s.keybuf ∧ t.ivbuf = s.ivbuf ∧ t.din = s.din ∧
      ∀ k, Memory.read t.dout k = Memory.read s.dout k ∨ Memory.read t.dout k = Memory.read u.dout k

/-! ## Buffers (20_memory.md) -/

/-- R76: `MemWrite` sets the bytes it is given and no other byte, and touches nothing but `DOUT`. -/
def Obligations.MemWriteSetsExactlyItsBytes : Prop :=
  ∀ (s : State) (a : Nat) (v : List Byte),
    (∀ k, Memory.read (memWrite a v s).dout k =
      if a ≤ k ∧ k < a + v.length then v[k - a]? else Memory.read s.dout k) ∧
    memWrite a v s = { s with dout := (memWrite a v s).dout }

/-- R75: inside the buffer, and where every byte has been written, `MemRead` answers the `n` bytes from `addr` on, whatever
the buffer; reading nothing answers nothing. -/
def Obligations.MemReadReturnsTheBytesOfTheBuffer : Prop :=
  ∀ (s : State) (len : Nat) (sp : Space) (a n : Nat), a + n ≤ s.bufferSize len sp →
    (∀ k, k < n → (Memory.read (s.buffer sp) (a + k)).isSome = true) →
    ∃ bs, memRead s len sp a n = .next bs ∧ bs.length = n ∧
      ∀ k, k < n → bs[k]? = Memory.read (s.buffer sp) (a + k)

/-- An accepted command that reads a byte the host has not written is refused by name, neither executed nor answered
(20_memory.md R89, 93_implementation_defined.md U18; log entry 5); one whose IV would not fit `IVBUF` faults by name, which
no state between commands allows (R75; log entry 6). A packet command reads its IV before its data (log entry 19). -/
def Obligations.UnreadableOperandStopsTheCommandByName : Prop :=
  ∀ (s : State) (len : BitVec 28), s.initDone = true →
    (∀ (kb ib : BitVec 14) (k : Nat), s.phase = .uninitialized ∨ (s.rekey = true ∧ s.phase = .keyed) →
      s.engine.params.keySizeOk kb.toNat = true → s.engine.params.ivSizeOk ib.toNat = true →
      k < ceil8 kb.toNat → Memory.read s.keybuf k = none →
      exec (.keysetup kb ib) s = .refused (.bufferNotWritten .keybuf)) ∧
    (∀ i : Instr, s.phase ≠ .uninitialized → i = .ivsetup ∨ i = .encryptPacket len ∨ i = .decryptPacket len →
      (s.engine.params.ivbufBytes < ceil8 s.ivBits.toNat → exec i s = .fault (.outsideBuffer .ivbuf)) ∧
      (∀ k, ceil8 s.ivBits.toNat ≤ s.engine.params.ivbufBytes → k < ceil8 s.ivBits.toNat →
        Memory.read s.ivbuf k = none → exec i s = .refused (.bufferNotWritten .ivbuf))) ∧
    (∀ k, k < len.toNat → Memory.read s.din k = none →
      (s.Streamable → exec (.encryptBytes len) s = .refused (.bufferNotWritten .din) ∧
        exec (.decryptBytes len) s = .refused (.bufferNotWritten .din)) ∧
      (s.Streamable → s.mode = .block → len.toNat % s.engine.params.blockLen = 0 →
        exec (.encryptBlocks len) s = .refused (.bufferNotWritten .din) ∧
        exec (.decryptBlocks len) s = .refused (.bufferNotWritten .din)) ∧
      (s.phase ≠ .uninitialized → ceil8 s.ivBits.toNat ≤ s.engine.params.ivbufBytes →
        (Memory.readBytes s.ivbuf 0 (ceil8 s.ivBits.toNat)).isSome = true →
        exec (.encryptPacket len) s = .refused (.bufferNotWritten .din) ∧
        exec (.decryptPacket len) s = .refused (.bufferNotWritten .din)))

/-- The engine writes `DOUT` only (20_memory.md R70, R76): no command changes an input buffer. -/
def Obligations.CommandsWriteNoInputBuffer : Prop :=
  ∀ (i : Instr) (s t : State), exec i s = .next t →
    t.keybuf = s.keybuf ∧ t.ivbuf = s.ivbuf ∧ t.din = s.din ∧
    (commandClass i = .init ∨ commandClass i = .keysetup ∨ commandClass i = .ivsetup → t.dout = s.dout)

/-- Every step keeps the canonical form of the four buffers (the model's representation, log entry 5). -/
def Obligations.StepKeepsBuffersCanonical : Prop :=
  ∀ s t : State, s.BuffersCanonical → step s = .next t → t.BuffersCanonical

/-- The buffers are canonical after reset (log entry 5). -/
def Obligations.ResetBuffersAreCanonical : Prop :=
  ∀ (v : VariantName) (rk : Bool), (State.resetOf v rk).BuffersCanonical

/-! ## Setup commands (41_scheduler.md) -/

/-- R150: INIT sets `init_done` and nothing else; it is accepted in every state. -/
def Obligations.InitSetsInitDoneAlone : Prop :=
  ∀ s : State, exec .init s = .next { s with initDone := true, response := some ⟨0, []⟩ }

/-- R10: the supported key and IV sizes are the members of the two arithmetic progressions, whatever the parameters; a step
of 0 and a maximum that is no member among them. -/
def Obligations.SizeTestIsTheArithmeticProgression : Prop :=
  ∀ (p : Params) (n : Nat),
    (p.keySizeOk n = true ↔ ∃ i, n = p.keyBase + i * p.keyStep ∧ p.keyBase + i * p.keyStep ≤ p.keyMax) ∧
    (p.ivSizeOk n = true ↔ ∃ i, n = p.ivBase + i * p.ivStep ∧ p.ivBase + i * p.ivStep ≤ p.ivMax)

/-- R152 where it is accepted: what KEYSETUP writes, and that nothing else changes. The legal phases are those of R155. -/
def Obligations.KeysetupLoadsAndSavesTheKey : Prop :=
  ∀ (s : State) (kb ib : BitVec 14) (key : List Byte), s.initDone = true →
    (s.phase = .uninitialized ∨ (s.rekey = true ∧ s.phase = .keyed)) →
    s.engine.params.keySizeOk kb.toNat = true → s.engine.params.ivSizeOk ib.toNat = true →
    Memory.readBytes s.keybuf 0 (ceil8 kb.toNat) = some key →
    ∃ t, exec (.keysetup kb ib) s = .next t ∧
      t = { s with
        keyBits := kb, ivBits := ib, regime := s.engine.regimeOf kb.toNat,
        engine := (s.engine.loadKey key kb.toNat ib.toNat).save,
        res := [], pos := 0, mode := .block, phase := .keyed, response := some ⟨0, []⟩ } ∧
      t.engine.HoldsKey key kb.toNat ib.toNat

/-- R154: KEYSETUP's result depends on the key (the bytes of `KEYBUF` it reads) and the two lengths only, not on what `S`,
`K0`, the lengths, the regime, the residue or the position were. -/
def Obligations.KeysetupForgetsTheOldState : Prop :=
  ∀ (s s' t t' : State) (kb ib : BitVec 14), s.engine.variant = s'.engine.variant →
    Memory.readBytes s.keybuf 0 (ceil8 kb.toNat) = Memory.readBytes s'.keybuf 0 (ceil8 kb.toNat) →
    exec (.keysetup kb ib) s = .next t → t.response = some ⟨0, []⟩ →
    exec (.keysetup kb ib) s' = .next t' → t'.response = some ⟨0, []⟩ →
    t'.engine = t.engine ∧ t'.keyBits = t.keyBits ∧ t'.ivBits = t.ivBits ∧ t'.regime = t.regime ∧ t'.res = t.res ∧
    t'.pos = t.pos ∧ t'.mode = t.mode ∧ t'.phase = t.phase

/-- R156 where it is accepted: IVSETUP starts an epoch at position 0, from a copy of `K0`, and keeps `K0`. -/
def Obligations.IvsetupStartsAnEpoch : Prop :=
  ∀ (s : State) (iv : List Byte), s.initDone = true → s.phase ≠ .uninitialized →
    s.engine.params.ivSizeOk s.ivBits.toNat = true →
    Memory.readBytes s.ivbuf 0 (ceil8 s.ivBits.toNat) = some iv →
    ∃ t, exec .ivsetup s = .next t ∧
      t = { s with
        engine := s.epochStart iv, res := [], pos := 0, mode := .block, phase := .ivReady,
        response := some ⟨0, []⟩ } ∧
      t.AtPosition (s.epochStart iv) 0 ∧ t.engine.SameKeySchedule s.engine

/-- R158: an epoch depends on the key schedule and its own IV (the bytes of `IVBUF` it reads) only; whatever was streamed
before is forgotten. -/
def Obligations.IvsetupForgetsTheOldEpoch : Prop :=
  ∀ s s' t t' : State, s.SameKeyAndIv s' →
    exec .ivsetup s = .next t → t.response = some ⟨0, []⟩ →
    exec .ivsetup s' = .next t' → t'.response = some ⟨0, []⟩ →
    t'.engine = t.engine ∧ t'.res = t.res ∧ t'.pos = t.pos ∧ t'.mode = t.mode ∧ t'.phase = t.phase

/-! ## Streaming commands (42_keystream.md, 43_combiner.md) -/

/-- R190 and R191, R192 where they are accepted: `DOUT[i] = DIN[i] xor KS[p + i]` for the `LEN` bytes, every other byte of
`DOUT` as before, the generator `LEN` bytes further on, the session in byte mode, and nothing else changed. -/
def Obligations.ByteCommandsXorTheKeystream : Prop :=
  ∀ (i : Instr) (len : BitVec 28) (s : State) (din : List Byte) (e0 : Engine),
    (i = .encryptBytes len ∨ i = .decryptBytes len) → s.Streamable → s.AtPosition e0 s.pos →
    Memory.readBytes s.din 0 len.toNat = some din →
    ∃ t, exec i s = .next t ∧
      (∀ k, k < len.toNat →
        Memory.read t.dout k = some (din.getD k 0 ^^^ e0.keystream s.regime (s.pos + k))) ∧
      (∀ k, len.toNat ≤ k → Memory.read t.dout k = Memory.read s.dout k) ∧
      t.AtPosition e0 (s.pos + len.toNat) ∧ t.engine.SameKeySchedule s.engine ∧
      t.response = some ⟨0, xorBytes din (e0.keystreamBytes s.regime s.pos len.toNat)⟩ ∧
      t = { s with
        engine := t.engine, res := t.res, dout := t.dout, response := t.response,
        pos := s.pos + len.toNat, mode := .byte, phase := .streaming }

/-- R173 where it is accepted: raw keystream into `DOUT`. -/
def Obligations.KeystreamBytesDeliversTheKeystream : Prop :=
  ∀ (len : BitVec 28) (s : State) (e0 : Engine), s.Streamable → s.AtPosition e0 s.pos →
    ∃ t, exec (.keystreamBytes len) s = .next t ∧
      (∀ k, k < len.toNat → Memory.read t.dout k = some (e0.keystream s.regime (s.pos + k))) ∧
      (∀ k, len.toNat ≤ k → Memory.read t.dout k = Memory.read s.dout k) ∧
      t.AtPosition e0 (s.pos + len.toNat) ∧ t.engine.SameKeySchedule s.engine ∧
      t.response = some ⟨0, e0.keystreamBytes s.regime s.pos len.toNat⟩ ∧
      t = { s with
        engine := t.engine, res := t.res, dout := t.dout, response := t.response,
        pos := s.pos + len.toNat, mode := .byte, phase := .streaming }

/-- R193, R194 where they are accepted: the same datapath, the session stays in block mode, and from a block boundary no
residue is left (10_state.md R47 item 4). -/
def Obligations.BlockCommandsXorTheKeystream : Prop :=
  ∀ (i : Instr) (len : BitVec 28) (s : State) (din : List Byte) (e0 : Engine),
    (i = .encryptBlocks len ∨ i = .decryptBlocks len) → s.Streamable → s.mode = .block →
    len.toNat % s.engine.params.blockLen = 0 → s.AtPosition e0 s.pos →
    Memory.readBytes s.din 0 len.toNat = some din →
    ∃ t, exec i s = .next t ∧
      (∀ k, k < len.toNat →
        Memory.read t.dout k = some (din.getD k 0 ^^^ e0.keystream s.regime (s.pos + k))) ∧
      (∀ k, len.toNat ≤ k → Memory.read t.dout k = Memory.read s.dout k) ∧
      t.AtPosition e0 (s.pos + len.toNat) ∧ t.engine.SameKeySchedule s.engine ∧
      t.response = some ⟨0, xorBytes din (e0.keystreamBytes s.regime s.pos len.toNat)⟩ ∧
      (s.pos % s.engine.params.blockLen = 0 → t.res = []) ∧
      t = { s with
        engine := t.engine, res := t.res, dout := t.dout, response := t.response,
        pos := s.pos + len.toNat, phase := .streaming }

/-- R196, R197 where they are accepted: a new epoch under the IV, and its first `LEN` keystream bytes combined with the
data. -/
def Obligations.PacketCommandsStartAnEpochAndXor : Prop :=
  ∀ (i : Instr) (len : BitVec 28) (s : State) (iv din : List Byte),
    (i = .encryptPacket len ∨ i = .decryptPacket len) → s.initDone = true → s.phase ≠ .uninitialized →
    s.engine.params.ivSizeOk s.ivBits.toNat = true →
    Memory.readBytes s.ivbuf 0 (ceil8 s.ivBits.toNat) = some iv →
    Memory.readBytes s.din 0 len.toNat = some din →
    ∃ t, exec i s = .next t ∧
      (∀ k, k < len.toNat →
        Memory.read t.dout k = some (din.getD k 0 ^^^ (s.epochStart iv).keystream s.regime k)) ∧
      (∀ k, len.toNat ≤ k → Memory.read t.dout k = Memory.read s.dout k) ∧
      t.AtPosition (s.epochStart iv) len.toNat ∧ t.engine.SameKeySchedule s.engine ∧
      t.response = some ⟨0, xorBytes din ((s.epochStart iv).keystreamBytes s.regime 0 len.toNat)⟩ ∧
      t = { s with
        engine := t.engine, res := t.res, dout := t.dout, response := t.response,
        pos := len.toNat, mode := .byte, phase := .streaming }

/-- R196: a packet command is IVSETUP followed by a byte-mode command, in one step. -/
def Obligations.PacketIsIvsetupThenByteCommand : Prop :=
  ∀ (len : BitVec 28) (s : State) (iv din : List Byte), s.initDone = true → s.phase ≠ .uninitialized →
    s.engine.params.ivSizeOk s.ivBits.toNat = true →
    Memory.readBytes s.ivbuf 0 (ceil8 s.ivBits.toNat) = some iv →
    Memory.readBytes s.din 0 len.toNat = some din →
    ∃ u t, exec .ivsetup s = .next u ∧ exec (.encryptBytes len) u = .next t ∧
      exec (.encryptPacket len) s = .next t ∧ exec (.decryptPacket len) s = .next t

/-- R174: KEYSTREAM_BYTES has the same effect on the state and the same `DOUT` as ENCRYPT_BYTES of an all-zero input. -/
def Obligations.KeystreamBytesIsEncryptionOfZeros : Prop :=
  ∀ (len : BitVec 28) (s : State), Memory.readBytes s.din 0 len.toNat = some (List.replicate len.toNat 0) →
    exec (.keystreamBytes len) s = exec (.encryptBytes len) s

/-- R195, with R192 and R194: for equal `LEN` and equal starting state a block command and a byte command, each of either
direction, produce the same data and leave the generator in the same state. -/
def Obligations.BlockAndByteCommandsShareOneDatapath : Prop :=
  ∀ (i j : Instr) (len : BitVec 28) (s t u : State) (data : List Byte),
    (i = .encryptBlocks len ∨ i = .decryptBlocks len) → (j = .encryptBytes len ∨ j = .decryptBytes len) →
    exec i s = .next t → t.response = some ⟨0, data⟩ → exec j s = .next u →
    u.response = some ⟨0, data⟩ ∧ u = { t with mode := .byte }

/-- R200, and R111 for accepted commands: a streaming command returns exactly `LEN` bytes, writes them to `DOUT` from index
0 and writes no other byte of it; the setup commands return none. -/
def Obligations.AcceptedCommandsReturnLenBytes : Prop :=
  ∀ (i : Instr) (s t : State) (data : List Byte), exec i s = .next t → t.response = some ⟨0, data⟩ →
    match i with
    | .init | .keysetup _ _ | .ivsetup => data = []
    | .encryptBytes len | .decryptBytes len | .keystreamBytes len | .encryptBlocks len | .decryptBlocks len
    | .encryptPacket len | .decryptPacket len =>
      data.length = len.toNat ∧ (∀ k, k < len.toNat → Memory.read t.dout k = data[k]?) ∧
      ∀ k, len.toNat ≤ k → Memory.read t.dout k = Memory.read s.dout k

/-- R176: within one epoch two KEYSTREAM_BYTES commands deliver what one of the sum of their lengths delivers, and leave the
same generator state. -/
def Obligations.KeystreamIsResumable : Prop :=
  ∀ (m n k : BitVec 28) (s t u w : State) (e0 : Engine) (dm dn dk : List Byte), k.toNat = m.toNat + n.toNat →
    s.AtPosition e0 s.pos →
    exec (.keystreamBytes m) s = .next t → t.response = some ⟨0, dm⟩ →
    exec (.keystreamBytes n) t = .next u → u.response = some ⟨0, dn⟩ →
    exec (.keystreamBytes k) s = .next w → w.response = some ⟨0, dk⟩ →
    dk = dm ++ dn ∧ w.engine = u.engine ∧ w.res = u.res ∧ w.pos = u.pos ∧ w.phase = u.phase ∧ w.mode = u.mode

/-- R199: any segmentation of a message into block commands followed by byte commands gives the bytes one command over the
whole message would give, the keystream from the position on combined with it; the generator ends at the same position. -/
def Obligations.SegmentationDoesNotMatter : Prop :=
  ∀ (blocks bytes : List Order) (s : State) (e0 : Engine), s.Streamable → s.AtPosition e0 s.pos →
    (blocks = [] ∨ s.mode = .block) →
    (∀ o ∈ blocks, o.IsBlockData s.engine.params.blockLen) → (∀ o ∈ bytes, o.IsByteData) →
    ∃ t, runOrders (blocks ++ bytes) s =
        some (t, xorBytes (ordersInput (blocks ++ bytes))
          (e0.keystreamBytes s.regime s.pos (ordersInput (blocks ++ bytes)).length)) ∧
      t.AtPosition e0 (s.pos + (ordersInput (blocks ++ bytes)).length)

/-- R198: after any later IVSETUP with the same IV under the same key, what one pass made of `m` the other pass turns back
into `m`, whatever the segmentation of either and whatever happened between. -/
def Obligations.SecondPassUnderTheSameIvRestoresTheMessage : Prop :=
  ∀ (blocks bytes blocks' bytes' : List Order) (s s' u v w : State) (c : List Byte), s.SameKeyAndIv s' →
    exec .ivsetup s = .next u → u.response = some ⟨0, []⟩ →
    (∀ o ∈ blocks, o.IsBlockData s.engine.params.blockLen) → (∀ o ∈ bytes, o.IsByteData) →
    runOrders (blocks ++ bytes) u = some (v, c) →
    exec .ivsetup s' = .next w → w.response = some ⟨0, []⟩ →
    (∀ o ∈ blocks', o.IsBlockData s.engine.params.blockLen) → (∀ o ∈ bytes', o.IsByteData) →
    ordersInput (blocks' ++ bytes') = c →
    ∃ x, runOrders (blocks' ++ bytes') w = some (x, ordersInput (blocks ++ bytes))

/-- R374: two messages of one length, each in an epoch of its own, whenever and however it is begun and segmented, under the
same key and IV: the outputs differ exactly as the messages do. -/
def Obligations.ReusedIvRevealsTheXorOfTheMessages : Prop :=
  ∀ (s s' : State) (m m' c c' : List Byte), s.SameKeyAndIv s' → m.length = m'.length →
    EpochMaps s m c → EpochMaps s' m' c' → xorBytes c c' = xorBytes m m'

/-- R206: the state after a streaming command does not depend on the data, but for `DOUT` and the response; nor does whether
it is accepted. -/
def Obligations.StreamingNeverInspectsTheData : Prop :=
  ∀ (i : Instr) (s t : State) (m : Memory),
    (commandClass i = .bytes ∨ commandClass i = .blocks ∨ commandClass i = .packet) → exec i s = .next t →
    (∀ k, (Memory.read s.din k).isSome = true → (Memory.read m k).isSome = true) →
    ∃ t', exec i { s with din := m } = .next t' ∧
      t' = { t with din := m, dout := t'.dout, response := t'.response } ∧
      t'.response.map Response.st = t.response.map Response.st

/-! ## Rejected commands (60_exceptions.md) -/

/-- R331: `SequenceError` is answered exactly under the conditions of the table, and then nothing but the response
changes. -/
def Obligations.SequenceErrorExactlyAsTheTableSays : Prop :=
  ∀ (i : Instr) (s : State), Rejects i s .sequenceError ↔ SequenceErrorCondition i s

/-- R330 and R332: `InvalidParameter` and `InvalidLength` are answered exactly for unsupported operands of a command that
has passed its sequence checks, and by no other command. -/
def Obligations.OperandErrorsExactlyAfterTheSequenceChecks : Prop :=
  (∀ (i : Instr) (s : State), Rejects i s .invalidParameter ↔
    ∃ kb ib, i = .keysetup kb ib ∧ ¬SequenceErrorCondition i s ∧
      ¬(s.engine.params.keySizeOk kb.toNat = true ∧ s.engine.params.ivSizeOk ib.toNat = true)) ∧
  ∀ (i : Instr) (s : State), Rejects i s .invalidLength ↔
    ∃ len, (i = .encryptBlocks len ∨ i = .decryptBlocks len) ∧ ¬SequenceErrorCondition i s ∧
      len.toNat % s.engine.params.blockLen ≠ 0

/-- R336: a command answered with a status other than `OK`, a header that selects no command among them, has changed nothing
but the response, returned no data, and read no buffer: whatever the buffers hold, it is answered the same. -/
def Obligations.RejectedCommandChangesAndReadsNothing : Prop :=
  ∀ (h : Header) (s t : State) (r : Response), runHeader h s = .next t → t.response = some r → r.st ≠ 0 →
    t = { s with response := some ⟨r.st, []⟩ } ∧
    ∀ kb iv di dt : Memory,
      runHeader h { s with keybuf := kb, ivbuf := iv, din := di, dout := dt } =
        .next { s with keybuf := kb, ivbuf := iv, din := di, dout := dt, response := some ⟨r.st, []⟩ }

/-- R334: which command can return which status, for every command that completes; the status word is one of the codes 0 to
3, and never anything else. -/
def Obligations.StatusIsOneTheTableAllows : Prop :=
  ∀ (i : Instr) (s t : State), exec i s = .next t → ∃ r, t.response = some r ∧
    match i with
    | .init => r.st = 0
    | .keysetup _ _ => r.st = 0 ∨ r.st = 1 ∨ r.st = 2
    | .ivsetup | .encryptBytes _ | .decryptBytes _ | .keystreamBytes _ | .encryptPacket _ | .decryptPacket _ =>
      r.st = 0 ∨ r.st = 2
    | .encryptBlocks _ | .decryptBlocks _ => r.st = 0 ∨ r.st = 2 ∨ r.st = 3

/-- R89, R116, R335: between commands, a well-formed command always completes: the engine has no runtime fault. The model's
fault is unreachable and its refusal is for commands that are not well formed (log entries 5 and 6). -/
def Obligations.WellFormedCommandsAlwaysComplete : Prop :=
  ∀ (i : Instr) (s : State) (b : Supplied), s.Inv → s.Supplies b → WellFormed i s.ivBits.toNat b = true →
    ∃ t, exec i s = .next t

/-! ## The session (44_session_fsm.md, 10_state.md) -/

/-- R221: the transition table, for every command that completes: the cell's next phase and mode with status `OK`, or the
cell's error with the state unchanged; before INIT everything but INIT is a sequence error, and INIT leaves the phase and
the mode; an illegal header is answered so in every state and changes nothing. -/
def Obligations.SessionFollowsTheTransitionTable : Prop :=
  (∀ (h : Header) (e : DecodeError) (s : State), decode h = .error e →
    runHeader h s = .next (s.respond .illegalCommand [])) ∧
  ∀ (i : Instr) (s t : State), exec i s = .next t →
    (s.initDone = false →
      if i = .init then t.initDone = true ∧ t.phase = s.phase ∧ t.mode = s.mode ∧ t.response = some ⟨0, []⟩
      else t = s.respond .sequenceError []) ∧
    (s.initDone = true →
      match sessionTable s.rekey s.phase s.mode (commandClass i) (operandsGood i s.engine.params) with
      | .goes p m => t.phase = p ∧ t.mode = m ∧ ∃ data, t.response = some ⟨0, data⟩
      | .error e => t = s.respond e [])

/-- R227, R228: no command leads back to `Uninitialized`, and none clears `init_done`. -/
def Obligations.NoCommandLeadsBackToUninitialized : Prop :=
  ∀ (i : Instr) (s t : State), exec i s = .next t →
    (t.phase = .uninitialized → s.phase = .uninitialized) ∧ (s.initDone = true → t.initDone = true)

/-- 10_state.md R49: `K0`, `key_bits`, `iv_bits` and `regime` are written by KEYSETUP alone, and only where it is accepted. -/
def Obligations.OnlyAcceptedKeysetupWritesTheKeySchedule : Prop :=
  ∀ (i : Instr) (s t : State), exec i s = .next t →
    (commandClass i ≠ .keysetup ∨ t.response ≠ some ⟨0, []⟩) →
    t.engine.SameKeySchedule s.engine ∧ t.keyBits = s.keyBits ∧ t.ivBits = s.ivBits ∧ t.regime = s.regime

/-- R224: within an epoch, once a byte-mode or packet command has been accepted, every block-mode command is answered
`SequenceError`, and so it stays after any further command but IVSETUP, accepted or rejected. -/
def Obligations.BlocksAreRefusedAfterBytesUntilIvsetup : Prop :=
  ∀ (i : Instr) (s t : State), s.mode = .byte → s.phase = .streaming → exec i s = .next t → i ≠ .ivsetup →
    t.mode = .byte ∧ t.phase = .streaming ∧
    ∀ len : BitVec 28, Rejects (.encryptBlocks len) t .sequenceError ∧ Rejects (.decryptBlocks len) t .sequenceError

/-- 00_scope.md R4, R11: no step changes the variant or `REKEY`. -/
def Obligations.NoStepChangesTheParameters : Prop :=
  ∀ s t : State, step s = .next t → t.engine.variant = s.engine.variant ∧ t.rekey = s.rekey

/-- 10_state.md R47: the six invariants hold after reset, in every build. -/
def Obligations.InvariantsHoldAfterReset : Prop :=
  ∀ (v : VariantName) (rk : Bool), (State.resetOf v rk).Inv

/-- 10_state.md R47: every step keeps the six invariants, commands (accepted, rejected or illegal) and acts of the host
alike. -/
def Obligations.StepKeepsTheInvariants : Prop :=
  ∀ s t : State, s.Inv → step s = .next t → t.Inv

/-- 10_state.md R50, 70_reset_and_hazards.md R362: the values a reset leaves in `key_bits`, `iv_bits`, `regime`, `S` and `K0`
are never read. Two states that differ in them alone, while no key is set up, take the same steps with the same
responses, and from the accepted KEYSETUP on they are equal. (So nothing rests on the values of log entry 3.) -/
def Obligations.UnspecifiedResetValuesAreNeverRead : Prop :=
  ∀ s s' t : State, s.phase = .uninitialized → s.AgreeButUnspecified s' → step s = .next t →
    ∃ t', step s' = .next t' ∧ t.AgreeButUnspecified t' ∧ (t.phase ≠ .uninitialized → t' = t)

/-! ## The engine and its variants (40_engine.md, 45 to 48) -/

/-- R138, R139: in every build `ENG.save` makes `K0` a copy of `S` and keeps `S`, and `ENG.restore` makes `S` a copy of `K0`
and keeps `K0`. -/
def Obligations.SaveAndRestoreCopyTheRegisters : Prop :=
  (∀ r, Engine.save (.ach13 r) = .ach13 ⟨r.S, r.S⟩ ∧ Engine.restore (.ach13 r) = .ach13 ⟨r.K0, r.K0⟩) ∧
  (∀ r, Engine.save (.tbl r) = .tbl ⟨r.S, r.S⟩ ∧ Engine.restore (.tbl r) = .tbl ⟨r.K0, r.K0⟩) ∧
  (∀ r, Engine.save (.trivium r) = .trivium ⟨r.S, r.S⟩ ∧ Engine.restore (.trivium r) = .trivium ⟨r.K0, r.K0⟩) ∧
  (∀ r, Engine.save (.chacha20 r) = .chacha20 ⟨r.S, r.S⟩ ∧ Engine.restore (.chacha20 r) = .chacha20 ⟨r.K0, r.K0⟩) ∧
  (∀ r, Engine.save (.rc4 r) = .rc4 ⟨r.S, r.S⟩ ∧ Engine.restore (.rc4 r) = .rc4 ⟨r.K0, r.K0⟩) ∧
  (∀ r, Engine.save (.other r) = .other ⟨r.S, r.S⟩ ∧ Engine.restore (.other r) = .other ⟨r.K0, r.K0⟩) ∧
  (∀ r, Engine.save (.toy4 r) = .toy4 ⟨r.S, r.S⟩ ∧ Engine.restore (.toy4 r) = .toy4 ⟨r.K0, r.K0⟩)

/-- 45_variant_ach13.md R242: every register takes its own step from the registers before the step, and the unit is the
combining function of them; the functions are open (log entry 8). -/
def Obligations.AchAdvanceStepsEveryRegister : Prop :=
  ∀ (rg : Regime) (x : AchRegs),
    (∀ j : Fin 12, (achAdvance rg x).1.r[j] = Config.ach.step j rg x) ∧
    (achAdvance rg x).1.r13 = Config.ach.step13 rg x ∧ (achAdvance rg x).2 = Config.ach.combine rg x

/-- 46_variant_trivium.md R264: what a step puts into every bit of the state, and the output bit. -/
def Obligations.TriviumStepMovesEveryBit : Prop :=
  ∀ (rg : Regime) (s : BitVec 288),
    let b := triBit s
    let s' := (triAdvance rg s).1
    let t1 := b 66 ^^ b 93
    let t2 := b 162 ^^ b 177
    let t3 := b 243 ^^ b 288
    (triAdvance rg s).2 = BitVec.ofBool (t1 ^^ t2 ^^ t3) ∧
    triBit s' 1 = (t3 ^^ (b 286 && b 287) ^^ b 69) ∧
    triBit s' 94 = (t1 ^^ (b 91 && b 92) ^^ b 171) ∧
    triBit s' 178 = (t2 ^^ (b 175 && b 176) ^^ b 264) ∧
    ∀ i, 1 ≤ i → i ≤ 287 → i ≠ 93 → i ≠ 177 → triBit s' (i + 1) = b i

/-- 46_variant_trivium.md R262: where every key bit goes, what the other bits hold, and that loading is injective; R267: the
laws of 40_engine.md, injective loading for the supported lengths, and an IV of 0 bits among the supported ones. (Totality
and determinism hold of any Lean function.) -/
def Obligations.TriviumLoadsTheKeyBits : Prop :=
  (∀ (key : List Byte) (ib : Nat), key.length = 10 →
    let s := triLoadKey key 80 ib
    (∀ b j, b ≤ 9 → j ≤ 7 → triBit s (8 * (9 - b) + (8 - j)) = (key.getD b 0).getLsbD j) ∧
    (∀ i, 81 ≤ i → i ≤ 285 → triBit s i = false) ∧
    triBit s 286 = true ∧ triBit s 287 = true ∧ triBit s 288 = true) ∧
  (∀ (key key' : List Byte) (ib : Nat), key.length = 10 → key'.length = 10 →
    triLoadKey key 80 ib = triLoadKey key' 80 ib → key = key') ∧
  triviumVariant.Lawful ∧ triviumVariant.KeyInjective ∧ triviumVariant.ivSizeOk 0 = true

/-- 46_variant_trivium.md R268 b: a short IV gives what the IV padded with zero bytes to 80 bits gives. -/
def Obligations.TriviumPadsAShortIvWithZeros : Prop :=
  ∀ (k0 : BitVec 288) (iv : List Byte) (rg : Regime), iv.length ≤ 10 →
    triMixIv k0 iv (8 * iv.length) 80 rg = triMixIv k0 (iv ++ List.replicate (10 - iv.length) 0) 80 80 rg

/-- 47_variant_chacha.md R287: output word `i` is the permuted word plus the word of the state, and packing puts it at bytes
`4 * i` to `4 * i + 3`, least significant first (R288). That the unit holds word `i` at bits `32 * i` is the model's packing of
the words into one number (log entry 13, DESIGN CHOICE); the bytes are the spec's. -/
def Obligations.ChaChaUnitIsTheFeedForwardSum : Prop :=
  ∀ (rg : Regime) (x : Vector Word32 16) (i : Nat) (hi : i < 16),
    ((chaAdvance rg x).2.extractLsb' (32 * i) 32) = (doubleRounds 10 x)[i] + x[i] ∧
    ((chaPack [(chaAdvance rg x).2]).drop (4 * i)).take 4 = bytes32 ((doubleRounds 10 x)[i] + x[i])

/-- 47_variant_chacha.md R289: an IV step sets the counter to 0, it then counts chunks modulo `2^64`, silently, and no other
word ever changes. -/
def Obligations.ChaChaCounterCountsModulo64Bits : Prop :=
  (∀ (k0 : Vector Word32 16) (iv : List Byte) (ib kb : Nat) (rg : Regime), chaCounter (chaMixIv k0 iv ib kb rg) = 0) ∧
  ∀ (rg : Regime) (x : Vector Word32 16) (m : Nat),
    let y := (fun z => (chaAdvance rg z).1)^[m] x
    chaCounter y = (chaCounter x + m) % 2 ^ 64 ∧ ∀ (i : Nat) (hi : i < 16), i ≠ 12 → i ≠ 13 → y[i] = x[i]

/-- 47_variant_chacha.md R283: loading is injective for each key length. -/
def Obligations.ChaChaKeyLoadingIsInjective : Prop :=
  ∀ (key key' : List Byte) (kb : Nat), (kb = 256 ∨ kb = 128) → key.length = kb / 8 → key'.length = kb / 8 →
    chaLoadKey key kb 64 = chaLoadKey key' kb 64 → key = key'

/-- 48_variant_table.md R310: `P` is a permutation after loading, and every step keeps it one. -/
def Obligations.Rc4TableStaysAPermutation : Prop :=
  IsPermutationTable rc4Blank.p ∧
  (∀ (key : List Byte) (kb ib : Nat), IsPermutationTable (rc4LoadKey key kb ib).p) ∧
  ∀ (rg : Regime) (x : Rc4Table), IsPermutationTable x.p → IsPermutationTable (rc4Advance rg x).1.p

/-- 48_variant_table.md R311: a key and the key repeated give the same table. -/
def Obligations.Rc4RepeatedKeyGivesTheSameTable : Prop :=
  ∀ key : List Byte, 1 ≤ key.length → key.length ≤ 128 →
    rc4LoadKey key (8 * key.length) 0 = rc4LoadKey (key ++ key) (16 * key.length) 0

/-- 48_variant_table.md R307, R312 d: in an `RC4` build every IV step restores the key-scheduled table, so every epoch has the
same keystream. -/
def Obligations.Rc4EveryEpochRestartsTheSameKeystream : Prop :=
  ∀ (s : State) (r : Regs Rc4Table) (iv : List Byte), s.engine = .rc4 r →
    s.epochStart iv = .rc4 ⟨r.K0, r.K0⟩ ∧ ∀ p, (s.epochStart iv).keystream s.regime p =
      ((fun x => (rc4Advance s.regime x).1)^[p] r.K0 |> rc4Advance s.regime).2
end

