-- ==== Sys2Proof/Laws/Variants.lean ====
section
/-! SUPPORT. Every variant the model carries obeys the laws of 40_engine.md R134 and R136, which the rules of the generator
rest on: 45_variant_ach13.md R245, 46_variant_trivium.md R267, 47_variant_chacha.md R290, 48_variant_table.md R311. -/

namespace Sys2Proof.Machine

theorem ach13_lawful : ach13Variant.Lawful where
  unitBits_pos := Config.ach.unit_law.1
  u_pos := Config.ach.unit_law.2.1
  chunk_pos := Config.ach.unit_law.2.2.1
  unit_law := Config.ach.unit_law.2.2.2
  pack_length := Config.ach.pack_length
  pack_injective := Config.ach.pack_injective
  pack_surjective := Config.ach.pack_surjective
  blockLen_pos := Config.ach.block_law.1
  blockLen_chunk := Config.ach.block_law.2
  keyMax_fits := Config.ach.fits_header.1
  ivMax_fits := Config.ach.fits_header.2

theorem tbl_lawful : tblVariant.Lawful where
  unitBits_pos := by decide
  u_pos := by decide
  chunk_pos := by decide
  unit_law := by decide
  pack_length := fun _ h => h
  pack_injective := fun _ _ _ _ h => h
  pack_surjective := fun bs h => ⟨bs, h, rfl⟩
  blockLen_pos := Config.tbl.block_law
  blockLen_chunk := Nat.mod_one _
  keyMax_fits := Config.tbl.fits_header.1
  ivMax_fits := Config.tbl.fits_header.2

theorem other_lawful : otherVariant.Lawful where
  unitBits_pos := Config.other.unit_law.1
  u_pos := Config.other.unit_law.2.1
  chunk_pos := Config.other.unit_law.2.2.1
  unit_law := Config.other.unit_law.2.2.2
  pack_length := Config.other.pack_length
  pack_injective := Config.other.pack_injective
  pack_surjective := Config.other.pack_surjective
  blockLen_pos := Config.other.block_law.1
  blockLen_chunk := Config.other.block_law.2
  keyMax_fits := Config.other.fits_header.1
  ivMax_fits := Config.other.fits_header.2

/-- The unit of `TBL.advance` is a byte of the main table, before or after the update (48_variant_table.md R301). -/
theorem tblAdvance_reads (rg : Regime) (x : TblTable) :
    (tblAdvance rg x).2 ∈ x.p ∨ (tblAdvance rg x).2 ∈ (tblAdvance rg x).1.p := by
  unfold tblAdvance
  cases Config.tbl.readsUpdated
  · exact .inl (Vector.getElem_mem _)
  · exact .inr (Vector.getElem_mem _)

/-- A bit of `TRIVIUM.pack` (46_variant_trivium.md R266). -/
theorem triPack_bit (us : List (BitVec 1)) (b : Byte) (h : triPack us = [b]) (k : Nat) (hk : k < 8) :
    b.getLsbD k = (us.getD k 0).getLsbD 0 := by
  have hb : b = (BitVec.ofBoolListLE (us.map fun z => z.getLsbD 0)).setWidth 8 := by
    simpa [triPack] using h.symm
  rw [hb, BitVec.getLsbD_setWidth, BitVec.getLsbD_ofBoolListLE]
  by_cases hl : k < us.length
  · simp [hk, hl]
  · simp [hk, hl]

theorem bitVec1_eq (x y : BitVec 1) (h : x.getLsbD 0 = y.getLsbD 0) : x = y := by
  apply BitVec.eq_of_getLsbD_eq
  intro i hi
  obtain rfl : i = 0 := by omega
  exact h

theorem triPack_injective (us vs : List (BitVec 1)) (hu : us.length = 8) (hv : vs.length = 8)
    (h : triPack us = triPack vs) : us = vs := by
  apply List.ext_getElem (by omega)
  intro k h1 h2
  apply bitVec1_eq
  have e1 := triPack_bit us _ rfl k (by omega)
  have e2 := triPack_bit vs _ h.symm k (by omega)
  rw [e1, List.getD_eq_getElem _ _ h1, List.getD_eq_getElem _ _ h2] at e2
  exact e2

theorem triPack_surjective (b : Byte) : ∃ us : List (BitVec 1), us.length = 8 ∧ triPack us = [b] := by
  refine ⟨(List.range 8).map fun k => BitVec.ofBool (b.getLsbD k), by simp, ?_⟩
  simp only [triPack, List.cons.injEq, and_true]
  apply BitVec.eq_of_getLsbD_eq
  intro i hi
  rw [BitVec.getLsbD_setWidth, BitVec.getLsbD_ofBoolListLE, List.map_map]
  simp [hi]

theorem trivium_lawful : triviumVariant.Lawful where
  unitBits_pos := by decide
  u_pos := by decide
  chunk_pos := by decide
  unit_law := by decide
  pack_length := fun _ _ => rfl
  pack_injective := triPack_injective
  pack_surjective := by
    intro bs h
    obtain ⟨b, rfl⟩ := List.length_eq_one_iff.1 h
    exact triPack_surjective b
  blockLen_pos := by decide
  blockLen_chunk := by decide
  keyMax_fits := by decide
  ivMax_fits := by decide

/-- The bytes of a bit vector of `n` bytes, least significant first. -/
def bytesLE (n : Nat) {w : Nat} (u : BitVec w) : List Byte := (List.range n).map fun t => u.extractLsb' (8 * t) 8

theorem bytesLE_injective (n : Nat) (u v : BitVec (8 * n)) (h : bytesLE n u = bytesLE n v) : u = v := by
  apply BitVec.eq_of_getLsbD_eq
  intro i hi
  have hq : i / 8 < n := by omega
  have hb : u.extractLsb' (8 * (i / 8)) 8 = v.extractLsb' (8 * (i / 8)) 8 := by
    have := congrArg (fun l => l[i / 8]?) h
    simpa [bytesLE, hq] using this
  have := congrArg (fun b => b.getLsbD (i % 8)) hb
  simp only [BitVec.getLsbD_extractLsb'] at this
  rw [show 8 * (i / 8) + i % 8 = i by omega] at this
  simpa [Nat.mod_lt] using this

theorem bytesLE_surjective (n : Nat) (bs : List Byte) (h : bs.length = n) : ∃ u : BitVec (8 * n), bytesLE n u = bs := by
  refine ⟨BitVec.ofFnLE fun i : Fin (8 * n) => (bs.getD (i / 8) 0).getLsbD (i % 8), ?_⟩
  apply List.ext_getElem (by simp [bytesLE, h])
  intro t h1 h2
  apply BitVec.eq_of_getLsbD_eq
  intro k hk
  have ht : t < n := by omega
  have hb : 8 * t + k < 8 * n := by omega
  have e1 : (8 * t + k) / 8 = t := by omega
  have e2 : (8 * t + k) % 8 = k := by omega
  simp [bytesLE, hk, hb, e1, e2, h2]

theorem extractLsb'_twice {w : Nat} (u : BitVec w) (a n b m : Nat) (h : b + m ≤ n) :
    (u.extractLsb' a n).extractLsb' b m = u.extractLsb' (a + b) m := by
  apply BitVec.eq_of_getLsbD_eq
  intro i hi
  have h2 : b + i < n := by omega
  simp [hi, h2, Nat.add_assoc]

theorem chaPack_single (u : BitVec 512) : chaPack [u] = bytesLE 64 u := by
  simp only [chaPack, bytesLE, List.flatMap_cons, List.flatMap_nil, List.append_nil, bytes32]
  rw [show List.range 16 = [0, 1, 2, 3, 4, 5, 6, 7, 8, 9, 10, 11, 12, 13, 14, 15] from rfl,
    show List.range 64 = (List.range 16).flatMap fun i => [4 * i, 4 * i + 1, 4 * i + 2, 4 * i + 3] from by decide,
    show List.range 16 = [0, 1, 2, 3, 4, 5, 6, 7, 8, 9, 10, 11, 12, 13, 14, 15] from rfl]
  simp [extractLsb'_twice]

theorem chaPack_length (us : List (BitVec 512)) (h : us.length = 1) : (chaPack us).length = 64 := by
  obtain ⟨u, rfl⟩ := List.length_eq_one_iff.1 h
  rw [chaPack_single]
  simp [bytesLE]

theorem chaPack_injective (us vs : List (BitVec 512)) (hu : us.length = 1) (hv : vs.length = 1)
    (h : chaPack us = chaPack vs) : us = vs := by
  obtain ⟨u, rfl⟩ := List.length_eq_one_iff.1 hu
  obtain ⟨v, rfl⟩ := List.length_eq_one_iff.1 hv
  rw [chaPack_single, chaPack_single] at h
  rw [bytesLE_injective 64 u v h]

theorem chaPack_surjective (bs : List Byte) (h : bs.length = 64) :
    ∃ us : List (BitVec 512), us.length = 1 ∧ chaPack us = bs := by
  obtain ⟨u, hu⟩ := bytesLE_surjective 64 bs h
  exact ⟨[u], rfl, (chaPack_single u).trans hu⟩

theorem chacha20_lawful : chacha20Variant.Lawful where
  unitBits_pos := by decide
  u_pos := by decide
  chunk_pos := by decide
  unit_law := by decide
  pack_length := chaPack_length
  pack_injective := chaPack_injective
  pack_surjective := chaPack_surjective
  blockLen_pos := by decide
  blockLen_chunk := by decide
  keyMax_fits := by decide
  ivMax_fits := by decide

theorem rc4_lawful : rc4Variant.Lawful where
  unitBits_pos := by decide
  u_pos := by decide
  chunk_pos := by decide
  unit_law := by decide
  pack_length := fun _ h => h
  pack_injective := fun _ _ _ _ h => h
  pack_surjective := fun bs h => ⟨bs, h, rfl⟩
  blockLen_pos := by decide
  blockLen_chunk := by decide
  keyMax_fits := by decide
  ivMax_fits := by decide

theorem toyPack_single (u : BitVec 32) : toyPack [u] = bytesLE 4 u := rfl

theorem toyPack_length (us : List (BitVec 32)) (h : us.length = 1) : (toyPack us).length = 4 := by
  obtain ⟨u, rfl⟩ := List.length_eq_one_iff.1 h
  rfl

theorem toyPack_injective (us vs : List (BitVec 32)) (hu : us.length = 1) (hv : vs.length = 1)
    (h : toyPack us = toyPack vs) : us = vs := by
  obtain ⟨u, rfl⟩ := List.length_eq_one_iff.1 hu
  obtain ⟨v, rfl⟩ := List.length_eq_one_iff.1 hv
  rw [bytesLE_injective 4 u v h]

theorem toyPack_surjective (bs : List Byte) (h : bs.length = 4) :
    ∃ us : List (BitVec 32), us.length = 1 ∧ toyPack us = bs := by
  obtain ⟨u, hu⟩ := bytesLE_surjective 4 bs h
  exact ⟨[u], rfl, (toyPack_single u).trans hu⟩

theorem toy4_lawful : toy4Variant.Lawful where
  unitBits_pos := by decide
  u_pos := by decide
  chunk_pos := by decide
  unit_law := by decide
  pack_length := toyPack_length
  pack_injective := toyPack_injective
  pack_surjective := toyPack_surjective
  blockLen_pos := by decide
  blockLen_chunk := by decide
  keyMax_fits := by decide
  ivMax_fits := by decide

end Sys2Proof.Machine
end

