-- ==== Sys2Proof/Laws/Engine.lean ====
section
/-! SUPPORT. What the micro-operations of the engine can do (40_engine.md): every one keeps the variant, those of streaming
keep `K0`, and a chunk has `CHUNK` bytes. -/

namespace Sys2Proof.Machine

theorem Regs.advances_K0 {σ : Type} (V : Variant σ) (rg : Regime) (n : Nat) (r : Regs σ) :
    (Regs.advances V rg n r).1.K0 = r.K0 := by
  induction n generalizing r with
  | zero => rfl
  | succ n ih => exact ih (Regs.advance V rg r).1

theorem Regs.advances_length {σ : Type} (V : Variant σ) (rg : Regime) (n : Nat) (r : Regs σ) :
    (Regs.advances V rg n r).2.length = n := by
  induction n generalizing r with
  | zero => rfl
  | succ n ih => exact congrArg (· + 1) (ih (Regs.advance V rg r).1)

@[simp] theorem Engine.run_variant {α : Type} (f : {σ : Type} → Variant σ → Regs σ → Regs σ × α) (e : Engine) :
    (e.run f).1.variant = e.variant := by cases e <;> rfl

@[simp] theorem Engine.map_variant (f : {σ : Type} → Variant σ → Regs σ → Regs σ) (e : Engine) :
    (e.map f).variant = e.variant := Engine.run_variant _ e

/-- The numeric fields depend on the variant alone. -/
theorem Engine.params_eq_of_variant_eq (e e' : Engine) (h : e.variant = e'.variant) : e.params = e'.params := by
  cases e <;> cases e' <;> first | rfl | cases h

theorem Engine.regimeOf_eq_of_variant_eq (e e' : Engine) (kb : Nat) (h : e.variant = e'.variant) :
    e.regimeOf kb = e'.regimeOf kb := by
  cases e <;> cases e' <;> first | rfl | cases h

@[simp] theorem Engine.map_params (f : {σ : Type} → Variant σ → Regs σ → Regs σ) (e : Engine) :
    (e.map f).params = e.params := Engine.params_eq_of_variant_eq _ _ (Engine.map_variant f e)

@[simp] theorem Engine.nextChunk_variant (rg : Regime) (e : Engine) : (e.nextChunk rg).1.variant = e.variant :=
  Engine.run_variant _ e

@[simp] theorem Engine.nextChunk_params (rg : Regime) (e : Engine) : (e.nextChunk rg).1.params = e.params :=
  Engine.params_eq_of_variant_eq _ _ (Engine.nextChunk_variant rg e)

@[simp] theorem Engine.toBlank_variant (e : Engine) : e.toBlank.variant = e.variant := Engine.map_variant _ e
@[simp] theorem Engine.loadKey_variant (key : List Byte) (kb ib : Nat) (e : Engine) :
    (e.loadKey key kb ib).variant = e.variant := Engine.map_variant _ e
@[simp] theorem Engine.save_variant (e : Engine) : e.save.variant = e.variant := Engine.map_variant _ e
@[simp] theorem Engine.restore_variant (e : Engine) : e.restore.variant = e.variant := Engine.map_variant _ e
@[simp] theorem Engine.mixIv_variant (iv : List Byte) (ib kb : Nat) (rg : Regime) (e : Engine) :
    (e.mixIv iv ib kb rg).variant = e.variant := Engine.map_variant _ e
@[simp] theorem Engine.atReset_variant (e : Engine) : e.atReset.variant = e.variant := Engine.map_variant _ e

@[simp] theorem Engine.toBlank_params (e : Engine) : e.toBlank.params = e.params := Engine.map_params _ e
@[simp] theorem Engine.loadKey_params (key : List Byte) (kb ib : Nat) (e : Engine) :
    (e.loadKey key kb ib).params = e.params := Engine.map_params _ e
@[simp] theorem Engine.save_params (e : Engine) : e.save.params = e.params := Engine.map_params _ e
@[simp] theorem Engine.restore_params (e : Engine) : e.restore.params = e.params := Engine.map_params _ e
@[simp] theorem Engine.mixIv_params (iv : List Byte) (ib kb : Nat) (rg : Regime) (e : Engine) :
    (e.mixIv iv ib kb rg).params = e.params := Engine.map_params _ e
@[simp] theorem Engine.atReset_params (e : Engine) : e.atReset.params = e.params := Engine.map_params _ e

/-- `CHUNK` is positive in every variant. -/
theorem Engine.chunkLen_pos (e : Engine) : 0 < e.chunkLen := by
  cases e
  · exact ach13_lawful.chunk_pos
  · exact tbl_lawful.chunk_pos
  · exact trivium_lawful.chunk_pos
  · exact chacha20_lawful.chunk_pos
  · exact rc4_lawful.chunk_pos
  · exact other_lawful.chunk_pos
  · exact toy4_lawful.chunk_pos

/-- `BLOCKLEN` is a positive multiple of `CHUNK` in every variant (40_engine.md R136). -/
theorem Engine.blockLen_law (e : Engine) : 0 < e.params.blockLen ∧ e.params.blockLen % e.chunkLen = 0 := by
  cases e
  · exact ⟨ach13_lawful.blockLen_pos, ach13_lawful.blockLen_chunk⟩
  · exact ⟨tbl_lawful.blockLen_pos, tbl_lawful.blockLen_chunk⟩
  · exact ⟨trivium_lawful.blockLen_pos, trivium_lawful.blockLen_chunk⟩
  · exact ⟨chacha20_lawful.blockLen_pos, chacha20_lawful.blockLen_chunk⟩
  · exact ⟨rc4_lawful.blockLen_pos, rc4_lawful.blockLen_chunk⟩
  · exact ⟨other_lawful.blockLen_pos, other_lawful.blockLen_chunk⟩
  · exact ⟨toy4_lawful.blockLen_pos, toy4_lawful.blockLen_chunk⟩

theorem Variant.Lawful.pack_advances_length {σ : Type} {V : Variant σ} (h : V.Lawful) (rg : Regime) (r : Regs σ) :
    (V.pack (Regs.advances V rg V.u r).2).length = V.chunk :=
  h.pack_length _ (Regs.advances_length V rg V.u r)

/-- `ENG.next_chunk` yields `CHUNK` bytes (40_engine.md R140). -/
theorem Engine.nextChunk_length (rg : Regime) (e : Engine) : (e.nextChunk rg).2.length = e.chunkLen := by
  cases e
  · exact ach13_lawful.pack_advances_length rg _
  · exact tbl_lawful.pack_advances_length rg _
  · exact trivium_lawful.pack_advances_length rg _
  · exact chacha20_lawful.pack_advances_length rg _
  · exact rc4_lawful.pack_advances_length rg _
  · exact other_lawful.pack_advances_length rg _
  · exact toy4_lawful.pack_advances_length rg _

/-- `ENG.next_chunk` leaves `K0` alone (10_state.md R41). -/
theorem Engine.nextChunk_restore (rg : Regime) (e : Engine) : (e.nextChunk rg).1.restore = e.restore := by
  cases e <;>
    simp [Engine.nextChunk, Engine.run, Engine.restore, Engine.map, Regs.advances_K0]

/-- Two register operations in a row are one. -/
theorem Engine.map_map (f g : {σ : Type} → Variant σ → Regs σ → Regs σ) (e : Engine) :
    (e.map f).map g = e.map fun V r => g V (f V r) := by cases e <;> rfl

/-- `load_key` followed by `ENG.save` leaves `S = K0 = load_key(key, KB, IB)` (41_scheduler.md R152, R154). -/
theorem Engine.restore_save_loadKey (key : List Byte) (kb ib : Nat) (e : Engine) :
    ((e.loadKey key kb ib).save).restore = (e.loadKey key kb ib).save := by
  simp only [Engine.loadKey, Engine.save, Engine.restore, Engine.map_map]

theorem Engine.loadKey_save_loadKey (key : List Byte) (kb ib : Nat) (e : Engine) :
    ((e.loadKey key kb ib).save).loadKey key kb ib = (e.loadKey key kb ib).save := by
  simp only [Engine.loadKey, Engine.save, Engine.map_map]

/-- KEYSETUP's result does not depend on what `S` and `K0` held before (41_scheduler.md R154). -/
theorem Engine.save_loadKey_eq_of_variant_eq (key : List Byte) (kb ib : Nat) (e e' : Engine)
    (h : e.variant = e'.variant) : (e.toBlank.loadKey key kb ib).save = (e'.toBlank.loadKey key kb ib).save := by
  simp only [Engine.toBlank, Engine.loadKey, Engine.save, Engine.map_map]
  cases e <;> cases e' <;> first | rfl | cases h

/-- The IV step reads and keeps `K0` (41_scheduler.md R158). -/
theorem Engine.mixIv_restore (iv : List Byte) (ib kb : Nat) (rg : Regime) (e : Engine) :
    (e.restore.mixIv iv ib kb rg).restore = e.restore := by
  simp only [Engine.mixIv, Engine.restore, Engine.map_map]

theorem Engine.restore_restore (e : Engine) : e.restore.restore = e.restore := by
  simp only [Engine.restore, Engine.map_map]

theorem Engine.restore_loadKey (key : List Byte) (kb ib : Nat) (e : Engine) :
    e.restore.loadKey key kb ib = e.loadKey key kb ib := by
  simp only [Engine.restore, Engine.loadKey, Engine.map_map]

/-- Whether `K0` is a given key's schedule can be read off `ENG.restore` alone. -/
theorem Engine.holdsKey_of_restore_eq (e e' : Engine) (key : List Byte) (kb ib : Nat) (h : e.restore = e'.restore)
    (hk : e.HoldsKey key kb ib) : e'.HoldsKey key kb ib := by
  unfold Engine.HoldsKey at *
  rw [← h, hk, ← Engine.restore_loadKey key kb ib e, ← Engine.restore_loadKey key kb ib e', h]

end Sys2Proof.Machine
end

