-- ==== Sys2Proof/Laws/State.lean ====
section
/-! SUPPORT. One lemma per field per named update of the state, each true by `rfl`, so that no later proof unfolds a record
update. -/

namespace Sys2Proof.Machine

@[simp] theorem memWrite_initDone (a : Nat) (v : List Byte) (s : State) : (memWrite a v s).initDone = s.initDone := rfl
@[simp] theorem memWrite_phase (a : Nat) (v : List Byte) (s : State) : (memWrite a v s).phase = s.phase := rfl
@[simp] theorem memWrite_mode (a : Nat) (v : List Byte) (s : State) : (memWrite a v s).mode = s.mode := rfl
@[simp] theorem memWrite_keyBits (a : Nat) (v : List Byte) (s : State) : (memWrite a v s).keyBits = s.keyBits := rfl
@[simp] theorem memWrite_ivBits (a : Nat) (v : List Byte) (s : State) : (memWrite a v s).ivBits = s.ivBits := rfl
@[simp] theorem memWrite_regime (a : Nat) (v : List Byte) (s : State) : (memWrite a v s).regime = s.regime := rfl
@[simp] theorem memWrite_engine (a : Nat) (v : List Byte) (s : State) : (memWrite a v s).engine = s.engine := rfl
@[simp] theorem memWrite_res (a : Nat) (v : List Byte) (s : State) : (memWrite a v s).res = s.res := rfl
@[simp] theorem memWrite_pos (a : Nat) (v : List Byte) (s : State) : (memWrite a v s).pos = s.pos := rfl
@[simp] theorem memWrite_rekey (a : Nat) (v : List Byte) (s : State) : (memWrite a v s).rekey = s.rekey := rfl
@[simp] theorem memWrite_keybuf (a : Nat) (v : List Byte) (s : State) : (memWrite a v s).keybuf = s.keybuf := rfl
@[simp] theorem memWrite_ivbuf (a : Nat) (v : List Byte) (s : State) : (memWrite a v s).ivbuf = s.ivbuf := rfl
@[simp] theorem memWrite_din (a : Nat) (v : List Byte) (s : State) : (memWrite a v s).din = s.din := rfl
@[simp] theorem memWrite_dout (a : Nat) (v : List Byte) (s : State) : (memWrite a v s).dout = Memory.write s.dout a v := rfl
@[simp] theorem memWrite_header (a : Nat) (v : List Byte) (s : State) : (memWrite a v s).header = s.header := rfl
@[simp] theorem memWrite_response (a : Nat) (v : List Byte) (s : State) : (memWrite a v s).response = s.response := rfl
@[simp] theorem memWrite_host (a : Nat) (v : List Byte) (s : State) : (memWrite a v s).host = s.host := rfl
@[simp] theorem memWrite_freeCount (a : Nat) (v : List Byte) (s : State) : (memWrite a v s).freeCount = s.freeCount := rfl

@[simp] theorem keySchedule_initDone (key : List Byte) (kb ib : BitVec 14) (s : State) : (keySchedule key kb ib s).initDone = s.initDone := rfl
@[simp] theorem keySchedule_phase (key : List Byte) (kb ib : BitVec 14) (s : State) : (keySchedule key kb ib s).phase = .keyed := rfl
@[simp] theorem keySchedule_mode (key : List Byte) (kb ib : BitVec 14) (s : State) : (keySchedule key kb ib s).mode = .block := rfl
@[simp] theorem keySchedule_keyBits (key : List Byte) (kb ib : BitVec 14) (s : State) : (keySchedule key kb ib s).keyBits = kb := rfl
@[simp] theorem keySchedule_ivBits (key : List Byte) (kb ib : BitVec 14) (s : State) : (keySchedule key kb ib s).ivBits = ib := rfl
@[simp] theorem keySchedule_regime (key : List Byte) (kb ib : BitVec 14) (s : State) : (keySchedule key kb ib s).regime = s.engine.regimeOf kb.toNat := rfl
@[simp] theorem keySchedule_engine (key : List Byte) (kb ib : BitVec 14) (s : State) : (keySchedule key kb ib s).engine = (s.engine.toBlank.loadKey key kb.toNat ib.toNat).save := rfl
@[simp] theorem keySchedule_res (key : List Byte) (kb ib : BitVec 14) (s : State) : (keySchedule key kb ib s).res = [] := rfl
@[simp] theorem keySchedule_pos (key : List Byte) (kb ib : BitVec 14) (s : State) : (keySchedule key kb ib s).pos = 0 := rfl
@[simp] theorem keySchedule_rekey (key : List Byte) (kb ib : BitVec 14) (s : State) : (keySchedule key kb ib s).rekey = s.rekey := rfl
@[simp] theorem keySchedule_keybuf (key : List Byte) (kb ib : BitVec 14) (s : State) : (keySchedule key kb ib s).keybuf = s.keybuf := rfl
@[simp] theorem keySchedule_ivbuf (key : List Byte) (kb ib : BitVec 14) (s : State) : (keySchedule key kb ib s).ivbuf = s.ivbuf := rfl
@[simp] theorem keySchedule_din (key : List Byte) (kb ib : BitVec 14) (s : State) : (keySchedule key kb ib s).din = s.din := rfl
@[simp] theorem keySchedule_dout (key : List Byte) (kb ib : BitVec 14) (s : State) : (keySchedule key kb ib s).dout = s.dout := rfl
@[simp] theorem keySchedule_header (key : List Byte) (kb ib : BitVec 14) (s : State) : (keySchedule key kb ib s).header = s.header := rfl
@[simp] theorem keySchedule_response (key : List Byte) (kb ib : BitVec 14) (s : State) : (keySchedule key kb ib s).response = s.response := rfl
@[simp] theorem keySchedule_host (key : List Byte) (kb ib : BitVec 14) (s : State) : (keySchedule key kb ib s).host = s.host := rfl
@[simp] theorem keySchedule_freeCount (key : List Byte) (kb ib : BitVec 14) (s : State) : (keySchedule key kb ib s).freeCount = s.freeCount := rfl

@[simp] theorem ivStep_initDone (iv : List Byte) (s : State) : (ivStep iv s).initDone = s.initDone := rfl
@[simp] theorem ivStep_phase (iv : List Byte) (s : State) : (ivStep iv s).phase = s.phase := rfl
@[simp] theorem ivStep_mode (iv : List Byte) (s : State) : (ivStep iv s).mode = s.mode := rfl
@[simp] theorem ivStep_keyBits (iv : List Byte) (s : State) : (ivStep iv s).keyBits = s.keyBits := rfl
@[simp] theorem ivStep_ivBits (iv : List Byte) (s : State) : (ivStep iv s).ivBits = s.ivBits := rfl
@[simp] theorem ivStep_regime (iv : List Byte) (s : State) : (ivStep iv s).regime = s.regime := rfl
@[simp] theorem ivStep_engine (iv : List Byte) (s : State) : (ivStep iv s).engine = s.engine.restore.mixIv iv s.ivBits.toNat s.keyBits.toNat s.regime := rfl
@[simp] theorem ivStep_res (iv : List Byte) (s : State) : (ivStep iv s).res = [] := rfl
@[simp] theorem ivStep_pos (iv : List Byte) (s : State) : (ivStep iv s).pos = 0 := rfl
@[simp] theorem ivStep_rekey (iv : List Byte) (s : State) : (ivStep iv s).rekey = s.rekey := rfl
@[simp] theorem ivStep_keybuf (iv : List Byte) (s : State) : (ivStep iv s).keybuf = s.keybuf := rfl
@[simp] theorem ivStep_ivbuf (iv : List Byte) (s : State) : (ivStep iv s).ivbuf = s.ivbuf := rfl
@[simp] theorem ivStep_din (iv : List Byte) (s : State) : (ivStep iv s).din = s.din := rfl
@[simp] theorem ivStep_dout (iv : List Byte) (s : State) : (ivStep iv s).dout = s.dout := rfl
@[simp] theorem ivStep_header (iv : List Byte) (s : State) : (ivStep iv s).header = s.header := rfl
@[simp] theorem ivStep_response (iv : List Byte) (s : State) : (ivStep iv s).response = s.response := rfl
@[simp] theorem ivStep_host (iv : List Byte) (s : State) : (ivStep iv s).host = s.host := rfl
@[simp] theorem ivStep_freeCount (iv : List Byte) (s : State) : (ivStep iv s).freeCount = s.freeCount := rfl

@[simp] theorem respond_initDone (e : Status) (data : List Byte) (s : State) : (s.respond e data).initDone = s.initDone := rfl
@[simp] theorem respond_phase (e : Status) (data : List Byte) (s : State) : (s.respond e data).phase = s.phase := rfl
@[simp] theorem respond_mode (e : Status) (data : List Byte) (s : State) : (s.respond e data).mode = s.mode := rfl
@[simp] theorem respond_keyBits (e : Status) (data : List Byte) (s : State) : (s.respond e data).keyBits = s.keyBits := rfl
@[simp] theorem respond_ivBits (e : Status) (data : List Byte) (s : State) : (s.respond e data).ivBits = s.ivBits := rfl
@[simp] theorem respond_regime (e : Status) (data : List Byte) (s : State) : (s.respond e data).regime = s.regime := rfl
@[simp] theorem respond_engine (e : Status) (data : List Byte) (s : State) : (s.respond e data).engine = s.engine := rfl
@[simp] theorem respond_res (e : Status) (data : List Byte) (s : State) : (s.respond e data).res = s.res := rfl
@[simp] theorem respond_pos (e : Status) (data : List Byte) (s : State) : (s.respond e data).pos = s.pos := rfl
@[simp] theorem respond_rekey (e : Status) (data : List Byte) (s : State) : (s.respond e data).rekey = s.rekey := rfl
@[simp] theorem respond_keybuf (e : Status) (data : List Byte) (s : State) : (s.respond e data).keybuf = s.keybuf := rfl
@[simp] theorem respond_ivbuf (e : Status) (data : List Byte) (s : State) : (s.respond e data).ivbuf = s.ivbuf := rfl
@[simp] theorem respond_din (e : Status) (data : List Byte) (s : State) : (s.respond e data).din = s.din := rfl
@[simp] theorem respond_dout (e : Status) (data : List Byte) (s : State) : (s.respond e data).dout = s.dout := rfl
@[simp] theorem respond_header (e : Status) (data : List Byte) (s : State) : (s.respond e data).header = s.header := rfl
@[simp] theorem respond_response (e : Status) (data : List Byte) (s : State) : (s.respond e data).response = some ⟨e.word, data⟩ := rfl
@[simp] theorem respond_host (e : Status) (data : List Byte) (s : State) : (s.respond e data).host = s.host := rfl
@[simp] theorem respond_freeCount (e : Status) (data : List Byte) (s : State) : (s.respond e data).freeCount = s.freeCount := rfl

@[simp] theorem setInitDone_initDone (s : State) : (s.setInitDone).initDone = true := rfl
@[simp] theorem setInitDone_phase (s : State) : (s.setInitDone).phase = s.phase := rfl
@[simp] theorem setInitDone_mode (s : State) : (s.setInitDone).mode = s.mode := rfl
@[simp] theorem setInitDone_keyBits (s : State) : (s.setInitDone).keyBits = s.keyBits := rfl
@[simp] theorem setInitDone_ivBits (s : State) : (s.setInitDone).ivBits = s.ivBits := rfl
@[simp] theorem setInitDone_regime (s : State) : (s.setInitDone).regime = s.regime := rfl
@[simp] theorem setInitDone_engine (s : State) : (s.setInitDone).engine = s.engine := rfl
@[simp] theorem setInitDone_res (s : State) : (s.setInitDone).res = s.res := rfl
@[simp] theorem setInitDone_pos (s : State) : (s.setInitDone).pos = s.pos := rfl
@[simp] theorem setInitDone_rekey (s : State) : (s.setInitDone).rekey = s.rekey := rfl
@[simp] theorem setInitDone_keybuf (s : State) : (s.setInitDone).keybuf = s.keybuf := rfl
@[simp] theorem setInitDone_ivbuf (s : State) : (s.setInitDone).ivbuf = s.ivbuf := rfl
@[simp] theorem setInitDone_din (s : State) : (s.setInitDone).din = s.din := rfl
@[simp] theorem setInitDone_dout (s : State) : (s.setInitDone).dout = s.dout := rfl
@[simp] theorem setInitDone_header (s : State) : (s.setInitDone).header = s.header := rfl
@[simp] theorem setInitDone_response (s : State) : (s.setInitDone).response = s.response := rfl
@[simp] theorem setInitDone_host (s : State) : (s.setInitDone).host = s.host := rfl
@[simp] theorem setInitDone_freeCount (s : State) : (s.setInitDone).freeCount = s.freeCount := rfl

@[simp] theorem toIvReady_initDone (s : State) : (s.toIvReady).initDone = s.initDone := rfl
@[simp] theorem toIvReady_phase (s : State) : (s.toIvReady).phase = .ivReady := rfl
@[simp] theorem toIvReady_mode (s : State) : (s.toIvReady).mode = .block := rfl
@[simp] theorem toIvReady_keyBits (s : State) : (s.toIvReady).keyBits = s.keyBits := rfl
@[simp] theorem toIvReady_ivBits (s : State) : (s.toIvReady).ivBits = s.ivBits := rfl
@[simp] theorem toIvReady_regime (s : State) : (s.toIvReady).regime = s.regime := rfl
@[simp] theorem toIvReady_engine (s : State) : (s.toIvReady).engine = s.engine := rfl
@[simp] theorem toIvReady_res (s : State) : (s.toIvReady).res = s.res := rfl
@[simp] theorem toIvReady_pos (s : State) : (s.toIvReady).pos = s.pos := rfl
@[simp] theorem toIvReady_rekey (s : State) : (s.toIvReady).rekey = s.rekey := rfl
@[simp] theorem toIvReady_keybuf (s : State) : (s.toIvReady).keybuf = s.keybuf := rfl
@[simp] theorem toIvReady_ivbuf (s : State) : (s.toIvReady).ivbuf = s.ivbuf := rfl
@[simp] theorem toIvReady_din (s : State) : (s.toIvReady).din = s.din := rfl
@[simp] theorem toIvReady_dout (s : State) : (s.toIvReady).dout = s.dout := rfl
@[simp] theorem toIvReady_header (s : State) : (s.toIvReady).header = s.header := rfl
@[simp] theorem toIvReady_response (s : State) : (s.toIvReady).response = s.response := rfl
@[simp] theorem toIvReady_host (s : State) : (s.toIvReady).host = s.host := rfl
@[simp] theorem toIvReady_freeCount (s : State) : (s.toIvReady).freeCount = s.freeCount := rfl

@[simp] theorem toByteMode_initDone (s : State) : (s.toByteMode).initDone = s.initDone := rfl
@[simp] theorem toByteMode_phase (s : State) : (s.toByteMode).phase = .streaming := rfl
@[simp] theorem toByteMode_mode (s : State) : (s.toByteMode).mode = .byte := rfl
@[simp] theorem toByteMode_keyBits (s : State) : (s.toByteMode).keyBits = s.keyBits := rfl
@[simp] theorem toByteMode_ivBits (s : State) : (s.toByteMode).ivBits = s.ivBits := rfl
@[simp] theorem toByteMode_regime (s : State) : (s.toByteMode).regime = s.regime := rfl
@[simp] theorem toByteMode_engine (s : State) : (s.toByteMode).engine = s.engine := rfl
@[simp] theorem toByteMode_res (s : State) : (s.toByteMode).res = s.res := rfl
@[simp] theorem toByteMode_pos (s : State) : (s.toByteMode).pos = s.pos := rfl
@[simp] theorem toByteMode_rekey (s : State) : (s.toByteMode).rekey = s.rekey := rfl
@[simp] theorem toByteMode_keybuf (s : State) : (s.toByteMode).keybuf = s.keybuf := rfl
@[simp] theorem toByteMode_ivbuf (s : State) : (s.toByteMode).ivbuf = s.ivbuf := rfl
@[simp] theorem toByteMode_din (s : State) : (s.toByteMode).din = s.din := rfl
@[simp] theorem toByteMode_dout (s : State) : (s.toByteMode).dout = s.dout := rfl
@[simp] theorem toByteMode_header (s : State) : (s.toByteMode).header = s.header := rfl
@[simp] theorem toByteMode_response (s : State) : (s.toByteMode).response = s.response := rfl
@[simp] theorem toByteMode_host (s : State) : (s.toByteMode).host = s.host := rfl
@[simp] theorem toByteMode_freeCount (s : State) : (s.toByteMode).freeCount = s.freeCount := rfl

@[simp] theorem toBlockStreaming_initDone (s : State) : (s.toBlockStreaming).initDone = s.initDone := rfl
@[simp] theorem toBlockStreaming_phase (s : State) : (s.toBlockStreaming).phase = .streaming := rfl
@[simp] theorem toBlockStreaming_mode (s : State) : (s.toBlockStreaming).mode = s.mode := rfl
@[simp] theorem toBlockStreaming_keyBits (s : State) : (s.toBlockStreaming).keyBits = s.keyBits := rfl
@[simp] theorem toBlockStreaming_ivBits (s : State) : (s.toBlockStreaming).ivBits = s.ivBits := rfl
@[simp] theorem toBlockStreaming_regime (s : State) : (s.toBlockStreaming).regime = s.regime := rfl
@[simp] theorem toBlockStreaming_engine (s : State) : (s.toBlockStreaming).engine = s.engine := rfl
@[simp] theorem toBlockStreaming_res (s : State) : (s.toBlockStreaming).res = s.res := rfl
@[simp] theorem toBlockStreaming_pos (s : State) : (s.toBlockStreaming).pos = s.pos := rfl
@[simp] theorem toBlockStreaming_rekey (s : State) : (s.toBlockStreaming).rekey = s.rekey := rfl
@[simp] theorem toBlockStreaming_keybuf (s : State) : (s.toBlockStreaming).keybuf = s.keybuf := rfl
@[simp] theorem toBlockStreaming_ivbuf (s : State) : (s.toBlockStreaming).ivbuf = s.ivbuf := rfl
@[simp] theorem toBlockStreaming_din (s : State) : (s.toBlockStreaming).din = s.din := rfl
@[simp] theorem toBlockStreaming_dout (s : State) : (s.toBlockStreaming).dout = s.dout := rfl
@[simp] theorem toBlockStreaming_header (s : State) : (s.toBlockStreaming).header = s.header := rfl
@[simp] theorem toBlockStreaming_response (s : State) : (s.toBlockStreaming).response = s.response := rfl
@[simp] theorem toBlockStreaming_host (s : State) : (s.toBlockStreaming).host = s.host := rfl
@[simp] theorem toBlockStreaming_freeCount (s : State) : (s.toBlockStreaming).freeCount = s.freeCount := rfl

@[simp] theorem resetEngine_initDone (s : State) : (resetEngine s).initDone = false := rfl
@[simp] theorem resetEngine_phase (s : State) : (resetEngine s).phase = .uninitialized := rfl
@[simp] theorem resetEngine_mode (s : State) : (resetEngine s).mode = .block := rfl
@[simp] theorem resetEngine_keyBits (s : State) : (resetEngine s).keyBits = 0 := rfl
@[simp] theorem resetEngine_ivBits (s : State) : (resetEngine s).ivBits = 0 := rfl
@[simp] theorem resetEngine_regime (s : State) : (resetEngine s).regime = .short := rfl
@[simp] theorem resetEngine_engine (s : State) : (resetEngine s).engine = s.engine.atReset := rfl
@[simp] theorem resetEngine_res (s : State) : (resetEngine s).res = [] := rfl
@[simp] theorem resetEngine_pos (s : State) : (resetEngine s).pos = 0 := rfl
@[simp] theorem resetEngine_rekey (s : State) : (resetEngine s).rekey = s.rekey := rfl
@[simp] theorem resetEngine_keybuf (s : State) : (resetEngine s).keybuf = s.keybuf := rfl
@[simp] theorem resetEngine_ivbuf (s : State) : (resetEngine s).ivbuf = s.ivbuf := rfl
@[simp] theorem resetEngine_din (s : State) : (resetEngine s).din = s.din := rfl
@[simp] theorem resetEngine_dout (s : State) : (resetEngine s).dout = s.dout := rfl
@[simp] theorem resetEngine_header (s : State) : (resetEngine s).header = none := rfl
@[simp] theorem resetEngine_response (s : State) : (resetEngine s).response = none := rfl
@[simp] theorem resetEngine_host (s : State) : (resetEngine s).host = s.host := rfl
@[simp] theorem resetEngine_freeCount (s : State) : (resetEngine s).freeCount = s.freeCount := rfl

@[simp] theorem setBuffer_keybuf_initDone (s : State) (m : Memory) : (s.setBuffer m .keybuf).initDone = s.initDone := rfl
@[simp] theorem setBuffer_keybuf_phase (s : State) (m : Memory) : (s.setBuffer m .keybuf).phase = s.phase := rfl
@[simp] theorem setBuffer_keybuf_mode (s : State) (m : Memory) : (s.setBuffer m .keybuf).mode = s.mode := rfl
@[simp] theorem setBuffer_keybuf_keyBits (s : State) (m : Memory) : (s.setBuffer m .keybuf).keyBits = s.keyBits := rfl
@[simp] theorem setBuffer_keybuf_ivBits (s : State) (m : Memory) : (s.setBuffer m .keybuf).ivBits = s.ivBits := rfl
@[simp] theorem setBuffer_keybuf_regime (s : State) (m : Memory) : (s.setBuffer m .keybuf).regime = s.regime := rfl
@[simp] theorem setBuffer_keybuf_engine (s : State) (m : Memory) : (s.setBuffer m .keybuf).engine = s.engine := rfl
@[simp] theorem setBuffer_keybuf_res (s : State) (m : Memory) : (s.setBuffer m .keybuf).res = s.res := rfl
@[simp] theorem setBuffer_keybuf_pos (s : State) (m : Memory) : (s.setBuffer m .keybuf).pos = s.pos := rfl
@[simp] theorem setBuffer_keybuf_rekey (s : State) (m : Memory) : (s.setBuffer m .keybuf).rekey = s.rekey := rfl
@[simp] theorem setBuffer_keybuf_keybuf (s : State) (m : Memory) : (s.setBuffer m .keybuf).keybuf = m := rfl
@[simp] theorem setBuffer_keybuf_ivbuf (s : State) (m : Memory) : (s.setBuffer m .keybuf).ivbuf = s.ivbuf := rfl
@[simp] theorem setBuffer_keybuf_din (s : State) (m : Memory) : (s.setBuffer m .keybuf).din = s.din := rfl
@[simp] theorem setBuffer_keybuf_dout (s : State) (m : Memory) : (s.setBuffer m .keybuf).dout = s.dout := rfl
@[simp] theorem setBuffer_keybuf_header (s : State) (m : Memory) : (s.setBuffer m .keybuf).header = s.header := rfl
@[simp] theorem setBuffer_keybuf_response (s : State) (m : Memory) : (s.setBuffer m .keybuf).response = s.response := rfl
@[simp] theorem setBuffer_keybuf_host (s : State) (m : Memory) : (s.setBuffer m .keybuf).host = s.host := rfl
@[simp] theorem setBuffer_keybuf_freeCount (s : State) (m : Memory) : (s.setBuffer m .keybuf).freeCount = s.freeCount := rfl

@[simp] theorem setBuffer_ivbuf_initDone (s : State) (m : Memory) : (s.setBuffer m .ivbuf).initDone = s.initDone := rfl
@[simp] theorem setBuffer_ivbuf_phase (s : State) (m : Memory) : (s.setBuffer m .ivbuf).phase = s.phase := rfl
@[simp] theorem setBuffer_ivbuf_mode (s : State) (m : Memory) : (s.setBuffer m .ivbuf).mode = s.mode := rfl
@[simp] theorem setBuffer_ivbuf_keyBits (s : State) (m : Memory) : (s.setBuffer m .ivbuf).keyBits = s.keyBits := rfl
@[simp] theorem setBuffer_ivbuf_ivBits (s : State) (m : Memory) : (s.setBuffer m .ivbuf).ivBits = s.ivBits := rfl
@[simp] theorem setBuffer_ivbuf_regime (s : State) (m : Memory) : (s.setBuffer m .ivbuf).regime = s.regime := rfl
@[simp] theorem setBuffer_ivbuf_engine (s : State) (m : Memory) : (s.setBuffer m .ivbuf).engine = s.engine := rfl
@[simp] theorem setBuffer_ivbuf_res (s : State) (m : Memory) : (s.setBuffer m .ivbuf).res = s.res := rfl
@[simp] theorem setBuffer_ivbuf_pos (s : State) (m : Memory) : (s.setBuffer m .ivbuf).pos = s.pos := rfl
@[simp] theorem setBuffer_ivbuf_rekey (s : State) (m : Memory) : (s.setBuffer m .ivbuf).rekey = s.rekey := rfl
@[simp] theorem setBuffer_ivbuf_keybuf (s : State) (m : Memory) : (s.setBuffer m .ivbuf).keybuf = s.keybuf := rfl
@[simp] theorem setBuffer_ivbuf_ivbuf (s : State) (m : Memory) : (s.setBuffer m .ivbuf).ivbuf = m := rfl
@[simp] theorem setBuffer_ivbuf_din (s : State) (m : Memory) : (s.setBuffer m .ivbuf).din = s.din := rfl
@[simp] theorem setBuffer_ivbuf_dout (s : State) (m : Memory) : (s.setBuffer m .ivbuf).dout = s.dout := rfl
@[simp] theorem setBuffer_ivbuf_header (s : State) (m : Memory) : (s.setBuffer m .ivbuf).header = s.header := rfl
@[simp] theorem setBuffer_ivbuf_response (s : State) (m : Memory) : (s.setBuffer m .ivbuf).response = s.response := rfl
@[simp] theorem setBuffer_ivbuf_host (s : State) (m : Memory) : (s.setBuffer m .ivbuf).host = s.host := rfl
@[simp] theorem setBuffer_ivbuf_freeCount (s : State) (m : Memory) : (s.setBuffer m .ivbuf).freeCount = s.freeCount := rfl

@[simp] theorem setBuffer_din_initDone (s : State) (m : Memory) : (s.setBuffer m .din).initDone = s.initDone := rfl
@[simp] theorem setBuffer_din_phase (s : State) (m : Memory) : (s.setBuffer m .din).phase = s.phase := rfl
@[simp] theorem setBuffer_din_mode (s : State) (m : Memory) : (s.setBuffer m .din).mode = s.mode := rfl
@[simp] theorem setBuffer_din_keyBits (s : State) (m : Memory) : (s.setBuffer m .din).keyBits = s.keyBits := rfl
@[simp] theorem setBuffer_din_ivBits (s : State) (m : Memory) : (s.setBuffer m .din).ivBits = s.ivBits := rfl
@[simp] theorem setBuffer_din_regime (s : State) (m : Memory) : (s.setBuffer m .din).regime = s.regime := rfl
@[simp] theorem setBuffer_din_engine (s : State) (m : Memory) : (s.setBuffer m .din).engine = s.engine := rfl
@[simp] theorem setBuffer_din_res (s : State) (m : Memory) : (s.setBuffer m .din).res = s.res := rfl
@[simp] theorem setBuffer_din_pos (s : State) (m : Memory) : (s.setBuffer m .din).pos = s.pos := rfl
@[simp] theorem setBuffer_din_rekey (s : State) (m : Memory) : (s.setBuffer m .din).rekey = s.rekey := rfl
@[simp] theorem setBuffer_din_keybuf (s : State) (m : Memory) : (s.setBuffer m .din).keybuf = s.keybuf := rfl
@[simp] theorem setBuffer_din_ivbuf (s : State) (m : Memory) : (s.setBuffer m .din).ivbuf = s.ivbuf := rfl
@[simp] theorem setBuffer_din_din (s : State) (m : Memory) : (s.setBuffer m .din).din = m := rfl
@[simp] theorem setBuffer_din_dout (s : State) (m : Memory) : (s.setBuffer m .din).dout = s.dout := rfl
@[simp] theorem setBuffer_din_header (s : State) (m : Memory) : (s.setBuffer m .din).header = s.header := rfl
@[simp] theorem setBuffer_din_response (s : State) (m : Memory) : (s.setBuffer m .din).response = s.response := rfl
@[simp] theorem setBuffer_din_host (s : State) (m : Memory) : (s.setBuffer m .din).host = s.host := rfl
@[simp] theorem setBuffer_din_freeCount (s : State) (m : Memory) : (s.setBuffer m .din).freeCount = s.freeCount := rfl

@[simp] theorem setBuffer_dout_initDone (s : State) (m : Memory) : (s.setBuffer m .dout).initDone = s.initDone := rfl
@[simp] theorem setBuffer_dout_phase (s : State) (m : Memory) : (s.setBuffer m .dout).phase = s.phase := rfl
@[simp] theorem setBuffer_dout_mode (s : State) (m : Memory) : (s.setBuffer m .dout).mode = s.mode := rfl
@[simp] theorem setBuffer_dout_keyBits (s : State) (m : Memory) : (s.setBuffer m .dout).keyBits = s.keyBits := rfl
@[simp] theorem setBuffer_dout_ivBits (s : State) (m : Memory) : (s.setBuffer m .dout).ivBits = s.ivBits := rfl
@[simp] theorem setBuffer_dout_regime (s : State) (m : Memory) : (s.setBuffer m .dout).regime = s.regime := rfl
@[simp] theorem setBuffer_dout_engine (s : State) (m : Memory) : (s.setBuffer m .dout).engine = s.engine := rfl
@[simp] theorem setBuffer_dout_res (s : State) (m : Memory) : (s.setBuffer m .dout).res = s.res := rfl
@[simp] theorem setBuffer_dout_pos (s : State) (m : Memory) : (s.setBuffer m .dout).pos = s.pos := rfl
@[simp] theorem setBuffer_dout_rekey (s : State) (m : Memory) : (s.setBuffer m .dout).rekey = s.rekey := rfl
@[simp] theorem setBuffer_dout_keybuf (s : State) (m : Memory) : (s.setBuffer m .dout).keybuf = s.keybuf := rfl
@[simp] theorem setBuffer_dout_ivbuf (s : State) (m : Memory) : (s.setBuffer m .dout).ivbuf = s.ivbuf := rfl
@[simp] theorem setBuffer_dout_din (s : State) (m : Memory) : (s.setBuffer m .dout).din = s.din := rfl
@[simp] theorem setBuffer_dout_dout (s : State) (m : Memory) : (s.setBuffer m .dout).dout = m := rfl
@[simp] theorem setBuffer_dout_header (s : State) (m : Memory) : (s.setBuffer m .dout).header = s.header := rfl
@[simp] theorem setBuffer_dout_response (s : State) (m : Memory) : (s.setBuffer m .dout).response = s.response := rfl
@[simp] theorem setBuffer_dout_host (s : State) (m : Memory) : (s.setBuffer m .dout).host = s.host := rfl
@[simp] theorem setBuffer_dout_freeCount (s : State) (m : Memory) : (s.setBuffer m .dout).freeCount = s.freeCount := rfl

@[simp] theorem genTake_initDone (n : Nat) (s : State) : (genTake n s).1.initDone = s.initDone := rfl
@[simp] theorem genTake_phase (n : Nat) (s : State) : (genTake n s).1.phase = s.phase := rfl
@[simp] theorem genTake_mode (n : Nat) (s : State) : (genTake n s).1.mode = s.mode := rfl
@[simp] theorem genTake_keyBits (n : Nat) (s : State) : (genTake n s).1.keyBits = s.keyBits := rfl
@[simp] theorem genTake_ivBits (n : Nat) (s : State) : (genTake n s).1.ivBits = s.ivBits := rfl
@[simp] theorem genTake_regime (n : Nat) (s : State) : (genTake n s).1.regime = s.regime := rfl
@[simp] theorem genTake_rekey (n : Nat) (s : State) : (genTake n s).1.rekey = s.rekey := rfl
@[simp] theorem genTake_keybuf (n : Nat) (s : State) : (genTake n s).1.keybuf = s.keybuf := rfl
@[simp] theorem genTake_ivbuf (n : Nat) (s : State) : (genTake n s).1.ivbuf = s.ivbuf := rfl
@[simp] theorem genTake_din (n : Nat) (s : State) : (genTake n s).1.din = s.din := rfl
@[simp] theorem genTake_dout (n : Nat) (s : State) : (genTake n s).1.dout = s.dout := rfl
@[simp] theorem genTake_header (n : Nat) (s : State) : (genTake n s).1.header = s.header := rfl
@[simp] theorem genTake_response (n : Nat) (s : State) : (genTake n s).1.response = s.response := rfl
@[simp] theorem genTake_host (n : Nat) (s : State) : (genTake n s).1.host = s.host := rfl
@[simp] theorem genTake_freeCount (n : Nat) (s : State) : (genTake n s).1.freeCount = s.freeCount := rfl
@[simp] theorem genTake_pos (n : Nat) (s : State) : (genTake n s).1.pos = s.pos + n := rfl

@[simp] theorem withFetchWord_header (s : State) (nbits w : Nat) :
    (s.withFetchWord nbits w).header = some (headerOf nbits w) := rfl

end Sys2Proof.Machine
end

