-- ==== Sys2Proof/Laws/Generator.lean ====
section
/-! SUPPORT. What `GEN.take` does: from position `p` of an epoch it delivers the keystream bytes from `p` on and leaves the
generator at the position after them (42_keystream.md R172). -/

namespace Sys2Proof.Machine

@[simp] theorem Engine.afterChunks_variant (rg : Regime) (e : Engine) (m : Nat) :
    (e.afterChunks rg m).variant = e.variant := by
  induction m with
  | zero => rfl
  | succ m ih => simp [Engine.afterChunks, ih]

@[simp] theorem Engine.afterChunks_params (rg : Regime) (e : Engine) (m : Nat) :
    (e.afterChunks rg m).params = e.params :=
  Engine.params_eq_of_variant_eq _ _ (Engine.afterChunks_variant rg e m)

theorem Engine.chunkLen_eq_of_variant_eq (e e' : Engine) (h : e.variant = e'.variant) : e.chunkLen = e'.chunkLen := by
  simp [Engine.chunkLen, Engine.params_eq_of_variant_eq e e' h]

theorem Engine.afterChunks_restore (rg : Regime) (e : Engine) (m : Nat) :
    (e.afterChunks rg m).restore = e.restore := by
  induction m with
  | zero => rfl
  | succ m ih => rw [Engine.afterChunks, Engine.nextChunk_restore, ih]

theorem Engine.chunk_length (rg : Regime) (e : Engine) (m : Nat) : (e.chunk rg m).length = e.chunkLen := by
  rw [Engine.chunk, Engine.nextChunk_length]
  exact Engine.chunkLen_eq_of_variant_eq _ _ (Engine.afterChunks_variant rg e m)

theorem Engine.keystreamBytes_length (rg : Regime) (e : Engine) (p n : Nat) : (e.keystreamBytes rg p n).length = n := by
  simp [Engine.keystreamBytes]

theorem Engine.keystreamBytes_append (rg : Regime) (e : Engine) (p m n : Nat) :
    e.keystreamBytes rg p (m + n) = e.keystreamBytes rg p m ++ e.keystreamBytes rg (p + m) n := by
  simp only [Engine.keystreamBytes, List.range_add, List.map_append, List.map_map]
  congr 1
  apply List.map_congr_left
  intro i _
  simp [Nat.add_assoc]

theorem ceilDiv_whole (c m : Nat) (hc : 0 < c) : ceilDiv (c * m) c = m := by
  rw [ceilDiv, Nat.mul_add_div hc, Nat.div_eq_of_lt (by omega)]; rfl

theorem ceilDiv_part (c m r : Nat) (hr : 0 < r) (hrc : r ≤ c) : ceilDiv (c * m + r) c = m + 1 := by
  have hc : 0 < c := by omega
  rw [ceilDiv, show c * m + r + (c - 1) = c * (m + 1) + (r - 1) by rw [Nat.mul_add]; omega, Nat.mul_add_div hc,
    Nat.div_eq_of_lt (by omega)]

/-- Inside one chunk the keystream is the chunk. -/
theorem Engine.keystreamBytes_in_chunk (rg : Regime) (e : Engine) (m r k : Nat) (h : r + k ≤ e.chunkLen) :
    e.keystreamBytes rg (e.chunkLen * m + r) k = ((e.chunk rg m).drop r).take k := by
  have hl := Engine.chunk_length rg e m
  have hc := Engine.chunkLen_pos e
  apply List.ext_getElem
  · simp [Engine.keystreamBytes]
    omega
  · intro i h1 h2
    have hi : i < k := by simpa [Engine.keystreamBytes] using h1
    have hd : (e.chunkLen * m + r + i) / e.chunkLen = m := by
      rw [Nat.add_assoc, Nat.mul_add_div hc, Nat.div_eq_of_lt (by omega)]; rfl
    have hm : (e.chunkLen * m + r + i) % e.chunkLen = r + i := by
      rw [Nat.add_assoc, Nat.mul_add_mod, Nat.mod_eq_of_lt (by omega)]
    have hlt : r + i < (e.chunk rg m).length := by omega
    simp [Engine.keystreamBytes, Engine.keystream, hd, hm, hlt]

/-- At the start of a turn: the residue is refilled if it is empty, and then holds the rest of the chunk the position
stands in. -/
theorem refill_at (rg : Regime) (e0 e : Engine) (res : List Byte) (m r : Nat) (hr : r < e0.chunkLen)
    (h : GeneratorAt rg e0 e res (e0.chunkLen * m + r)) :
    refill rg e res = (e0.afterChunks rg (m + 1), (e0.chunk rg m).drop r) := by
  obtain ⟨he, hres⟩ := h
  unfold refill
  have hc := Engine.chunkLen_pos e0
  have hmod : (e0.chunkLen * m + r) % e0.chunkLen = r := by rw [Nat.mul_add_mod, Nat.mod_eq_of_lt hr]
  have hdiv : (e0.chunkLen * m + r) / e0.chunkLen = m := by
    rw [Nat.mul_add_div hc, Nat.div_eq_of_lt hr]; rfl
  rw [hmod, hdiv] at hres
  by_cases h0 : r = 0
  · subst h0
    simp only [Nat.add_zero] at he
    rw [ceilDiv_whole _ _ hc] at he
    simp only [if_true] at hres
    simp only [hres, he, if_true, List.drop_zero, Engine.afterChunks, Engine.chunk]
  · rw [ceilDiv_part _ _ _ (by omega) (by omega)] at he
    rw [if_neg h0] at hres
    have hne : (e0.chunk rg m).drop r ≠ [] := by
      rw [Ne, List.drop_eq_nil_iff, Engine.chunk_length]; omega
    simp only [hres, hne, if_false, he]

/-- At the end of a turn that delivers `k` bytes of the chunk. -/
theorem GeneratorAt.deliver (rg : Regime) (e0 : Engine) (m r k : Nat) (hk : 0 < k) (h : r + k ≤ e0.chunkLen) :
    GeneratorAt rg e0 (e0.afterChunks rg (m + 1)) (((e0.chunk rg m).drop r).drop k) (e0.chunkLen * m + r + k) := by
  have hc := Engine.chunkLen_pos e0
  rw [Nat.add_assoc]
  refine ⟨?_, ?_⟩
  · rw [ceilDiv_part _ _ _ (by omega) h]
  · rw [List.drop_drop]
    by_cases heq : r + k = e0.chunkLen
    · rw [heq, ← Nat.mul_succ, Nat.mul_mod_right, if_pos rfl, List.drop_eq_nil_iff, Engine.chunk_length]
    · have hlt : r + k < e0.chunkLen := by omega
      rw [Nat.mul_add_mod, Nat.mod_eq_of_lt hlt, Nat.mul_add_div hc, Nat.div_eq_of_lt hlt, if_neg (by omega)]; rfl

/-- The loop of `GEN.take` delivers the keystream from its position on (42_keystream.md R172). -/
theorem takeLoop_spec (rg : Regime) (e0 : Engine) (fuel need : Nat) (e : Engine) (res : List Byte) (p : Nat)
    (hfuel : need ≤ fuel) (h : GeneratorAt rg e0 e res p) :
    ∃ e' res', takeLoop rg fuel need e res = (e0.keystreamBytes rg p need, e', res') ∧
      GeneratorAt rg e0 e' res' (p + need) := by
  induction fuel generalizing need e res p with
  | zero =>
    obtain rfl : need = 0 := by omega
    exact ⟨e, res, rfl, h⟩
  | succ fuel ih =>
    cases need with
    | zero => exact ⟨e, res, rfl, h⟩
    | succ need =>
      have hc := Engine.chunkLen_pos e0
      obtain ⟨m, r, hr, rfl⟩ : ∃ m r, r < e0.chunkLen ∧ p = e0.chunkLen * m + r :=
        ⟨p / e0.chunkLen, p % e0.chunkLen, Nat.mod_lt _ hc, (Nat.div_add_mod _ _).symm⟩
      have hlen : ((e0.chunk rg m).drop r).length = e0.chunkLen - r := by
        rw [List.length_drop, Engine.chunk_length]
      obtain ⟨k, hk⟩ : ∃ k, k = min (need + 1) (e0.chunkLen - r) := ⟨_, rfl⟩
      have hk1 : 0 < k := by omega
      have hk2 : r + k ≤ e0.chunkLen := by omega
      obtain ⟨e', res', hloop, hpos⟩ := ih (need + 1 - k) (e0.afterChunks rg (m + 1))
        (((e0.chunk rg m).drop r).drop k) (e0.chunkLen * m + r + k) (by omega)
        (GeneratorAt.deliver rg e0 m r k hk1 hk2)
      refine ⟨e', res', ?_, ?_⟩
      · simp only [takeLoop, refill_at rg e0 e res m r hr h, hlen, ← hk, hloop]
        rw [← Engine.keystreamBytes_in_chunk rg e0 m r k hk2, ← Engine.keystreamBytes_append,
          show k + (need + 1 - k) = need + 1 by omega]
      · rw [show e0.chunkLen * m + r + (need + 1) = e0.chunkLen * m + r + k + (need + 1 - k) by omega]
        exact hpos

/-- What `GEN.take(n)` can do, from a state at a position of an epoch (42_keystream.md R172). -/
theorem genTake_spec (n : Nat) (s : State) (e0 : Engine) (p : Nat) (h : s.AtPosition e0 p) :
    (genTake n s).2 = e0.keystreamBytes s.regime p n ∧ (genTake n s).1.AtPosition e0 (p + n) := by
  obtain ⟨e', res', hloop, hpos⟩ := takeLoop_spec s.regime e0 n n s.engine s.res p le_rfl h
  unfold genTake
  rw [hloop]
  exact ⟨rfl, hpos⟩

/-- After a refill there is at least one byte. -/
theorem refill_length_pos (rg : Regime) (e : Engine) (res : List Byte) : 0 < (refill rg e res).2.length := by
  unfold refill
  split
  · rw [Engine.nextChunk_length]; exact Engine.chunkLen_pos e
  · next h => exact List.length_pos_iff.2 h

theorem refill_restore (rg : Regime) (e : Engine) (res : List Byte) : (refill rg e res).1.restore = e.restore := by
  unfold refill
  split
  · exact Engine.nextChunk_restore rg e
  · rfl

/-- One turn of the loop. -/
theorem takeLoop_succ (rg : Regime) (fuel need : Nat) (e : Engine) (res : List Byte) :
    takeLoop rg (fuel + 1) (need + 1) e res =
      (((refill rg e res).2.take (min (need + 1) (refill rg e res).2.length)) ++
        (takeLoop rg fuel (need + 1 - min (need + 1) (refill rg e res).2.length) (refill rg e res).1
          ((refill rg e res).2.drop (min (need + 1) (refill rg e res).2.length))).1,
       (takeLoop rg fuel (need + 1 - min (need + 1) (refill rg e res).2.length) (refill rg e res).1
          ((refill rg e res).2.drop (min (need + 1) (refill rg e res).2.length))).2) := rfl

/-- Any residue and engine will do for the number of bytes: `GEN.take(n)` delivers `n`. -/
theorem takeLoop_length (rg : Regime) (fuel need : Nat) (e : Engine) (res : List Byte) (h : need ≤ fuel) :
    (takeLoop rg fuel need e res).1.length = need := by
  induction fuel generalizing need e res with
  | zero => simp only [takeLoop]; simp; omega
  | succ fuel ih =>
    cases need with
    | zero => rfl
    | succ need =>
      have hpos := refill_length_pos rg e res
      rw [takeLoop_succ, List.length_append, List.length_take, ih _ _ _ (by omega)]
      omega

theorem genTake_length (n : Nat) (s : State) : (genTake n s).2.length = n :=
  takeLoop_length s.regime n n s.engine s.res le_rfl

/-- Streaming keeps the variant and `K0` (10_state.md R41). -/
theorem takeLoop_restore (rg : Regime) (fuel need : Nat) (e : Engine) (res : List Byte) :
    (takeLoop rg fuel need e res).2.1.restore = e.restore := by
  induction fuel generalizing need e res with
  | zero => rfl
  | succ fuel ih =>
    cases need with
    | zero => rfl
    | succ need => rw [takeLoop_succ, ih, refill_restore]

theorem genTake_restore (n : Nat) (s : State) : (genTake n s).1.engine.restore = s.engine.restore :=
  takeLoop_restore s.regime n n s.engine s.res

@[simp] theorem genTake_variant (n : Nat) (s : State) : (genTake n s).1.engine.variant = s.engine.variant := by
  have := congrArg Engine.variant (genTake_restore n s)
  simpa using this

@[simp] theorem genTake_params (n : Nat) (s : State) : (genTake n s).1.engine.params = s.engine.params :=
  Engine.params_eq_of_variant_eq _ _ (genTake_variant n s)

/-- `GEN.take(0)` returns `[]` and changes nothing (42_keystream.md R172). -/
theorem genTake_none (s : State) : genTake 0 s = (s, []) := rfl

end Sys2Proof.Machine
end

