-- ==== Sys2Proof/Laws/Memory.lean ====
section
/-! SUPPORT. What the operations over an operand buffer do: what a write leaves readable, and that it keeps the canonical
form (20_memory.md R75, R76). -/

namespace Sys2Proof.Machine

theorem Memory.wf_iff_pairwise (m : Memory) : Memory.wf m = true ↔ m.Pairwise fun c d => c.1 < d.1 := by
  induction m with
  | nil => simp [Memory.wf]
  | cons c m ih =>
    cases m with
    | nil => simp [Memory.wf]
    | cons d m =>
      rw [Memory.wf, Bool.and_eq_true, decide_eq_true_eq, ih]
      constructor
      · rintro ⟨hcd, hp⟩
        refine List.pairwise_cons.2 ⟨?_, hp⟩
        intro x hx
        rcases List.mem_cons.1 hx with rfl | hx
        · exact hcd
        · exact lt_trans hcd ((List.pairwise_cons.1 hp).1 x hx)
      · intro hp
        exact ⟨(List.pairwise_cons.1 hp).1 d (by simp), (List.pairwise_cons.1 hp).2⟩

@[simp] theorem Memory.read_nil (a : Nat) : Memory.read [] a = none := rfl

theorem Memory.read_eq_none_of_forall_ne (m : Memory) (a : Nat) (h : ∀ c ∈ m, c.1 ≠ a) : Memory.read m a = none := by
  induction m with
  | nil => rfl
  | cons c m ih =>
    have hc : c.1 ≠ a := h c (by simp)
    simp [Memory.read, hc, ih (fun d hd => h d (by simp [hd]))]

theorem Memory.read_append (m n : Memory) (a : Nat) :
    Memory.read (m ++ n) a = (Memory.read m a).or (Memory.read n a) := by
  induction m with
  | nil => simp
  | cons c m ih =>
    by_cases hc : c.1 = a
    · simp [Memory.read, hc]
    · simp [Memory.read, hc, ih]

theorem Memory.read_filter_of_keeps (m : Memory) (p : Host.Cell → Bool) (a : Nat) (h : ∀ b, p (a, b) = true) :
    Memory.read (m.filter p) a = Memory.read m a := by
  induction m with
  | nil => rfl
  | cons c m ih =>
    obtain ⟨x, b⟩ := c
    by_cases hx : x = a
    · subst hx; simp [Memory.read, h]
    · by_cases hp : p (x, b) = true
      · simp [Memory.read, hp, hx, ih]
      · simp [Memory.read, hp, hx, ih]

theorem Memory.read_filter_of_drops (m : Memory) (p : Host.Cell → Bool) (a : Nat) (h : ∀ b, p (a, b) = false) :
    Memory.read (m.filter p) a = none := by
  refine Memory.read_eq_none_of_forall_ne _ _ ?_
  rintro ⟨x, b⟩ hc rfl
  simp [h] at hc

theorem Memory.read_cells_below (a k : Nat) (bs : List Byte) (h : k < a) : Memory.read (Memory.cells a bs) k = none := by
  induction bs generalizing a with
  | nil => rfl
  | cons b bs ih =>
    have hne : a ≠ k := by omega
    simp [Memory.cells, Memory.read, hne, ih (a + 1) (by omega)]

theorem Memory.read_cells (a i : Nat) (bs : List Byte) : Memory.read (Memory.cells a bs) (a + i) = bs[i]? := by
  induction bs generalizing a i with
  | nil => rfl
  | cons b bs ih =>
    cases i with
    | zero => simp [Memory.cells, Memory.read]
    | succ i =>
      have hne : a ≠ a + (i + 1) := by omega
      have := ih (a + 1) i
      rw [show a + 1 + i = a + (i + 1) by omega] at this
      simp [Memory.cells, Memory.read, this]

/-- Reading a byte a write has written gives that byte. -/
theorem Memory.read_write_inside (m : Memory) (a i : Nat) (bs : List Byte) (h : i < bs.length) :
    Memory.read (Memory.write m a bs) (a + i) = bs[i]? := by
  have h1 : Memory.read (m.filter fun c => decide (c.1 < a)) (a + i) = none :=
    Memory.read_filter_of_drops _ _ _ (by intro b; simp)
  have h2 : bs[i]? = some bs[i] := by simp [h]
  simp [Memory.write, Memory.read_append, h1, Memory.read_cells, h2]

/-- Every other index reads as before the write. -/
theorem Memory.read_write_outside (m : Memory) (a k : Nat) (bs : List Byte) (h : k < a ∨ a + bs.length ≤ k) :
    Memory.read (Memory.write m a bs) k = Memory.read m k := by
  rcases h with h | h
  · have h1 := Memory.read_filter_of_keeps m (fun c => decide (c.1 < a)) k (by intro b; simp [h])
    have h3 := Memory.read_filter_of_drops m (fun c => decide (a + bs.length ≤ c.1)) k (by intro b; simp; omega)
    simp only [Memory.write, Memory.read_append, h1, h3, Memory.read_cells_below a k bs h, Option.or_none]
  · have h1 := Memory.read_filter_of_drops m (fun c => decide (c.1 < a)) k (by intro b; simp; omega)
    have h3 := Memory.read_filter_of_keeps m (fun c => decide (a + bs.length ≤ c.1)) k (by intro b; simp [h])
    obtain ⟨i, rfl⟩ : ∃ i, k = a + i := ⟨k - a, by omega⟩
    have h2 : bs[i]? = none := by simp; omega
    simp only [Memory.write, Memory.read_append, h1, h3, Memory.read_cells, h2, Option.none_or]

theorem Memory.mem_cells_bounds (a : Nat) (bs : List Byte) (c : Host.Cell) (h : c ∈ Memory.cells a bs) :
    a ≤ c.1 ∧ c.1 < a + bs.length := by
  induction bs generalizing a with
  | nil => simp [Memory.cells] at h
  | cons b bs ih =>
    rcases List.mem_cons.1 h with rfl | h
    · simp
    · have := ih (a + 1) h
      simp only [List.length_cons]; omega

theorem Memory.wf_cells (a : Nat) (bs : List Byte) : Memory.wf (Memory.cells a bs) = true := by
  rw [Memory.wf_iff_pairwise]
  induction bs generalizing a with
  | nil => simp [Memory.cells]
  | cons b bs ih =>
    refine List.pairwise_cons.2 ⟨?_, ih (a + 1)⟩
    intro c hc
    have := Memory.mem_cells_bounds (a + 1) bs c hc
    simp only; omega

/-- A write keeps the canonical form. -/
theorem Memory.wf_write (m : Memory) (a : Nat) (bs : List Byte) (h : Memory.wf m = true) :
    Memory.wf (Memory.write m a bs) = true := by
  rw [Memory.wf_iff_pairwise] at h ⊢
  have hc := (Memory.wf_iff_pairwise _).1 (Memory.wf_cells a bs)
  unfold Memory.write
  rw [List.pairwise_append, List.pairwise_append]
  refine ⟨⟨h.filter _, hc, ?_⟩, h.filter _, ?_⟩
  · intro c hcm d hd
    have h1 := (List.mem_filter.1 hcm).2
    have h2 := Memory.mem_cells_bounds a bs d hd
    simp only [decide_eq_true_eq] at h1
    omega
  · intro c hcm d hd
    have h2 := (List.mem_filter.1 hd).2
    simp only [decide_eq_true_eq] at h2
    rcases List.mem_append.1 hcm with h1 | h1
    · have h1 := (List.mem_filter.1 h1).2
      simp only [decide_eq_true_eq] at h1
      omega
    · have h1 := Memory.mem_cells_bounds a bs c h1
      omega

theorem Memory.readBytes_length (m : Memory) (a n : Nat) (bs : List Byte) (h : Memory.readBytes m a n = some bs) :
    bs.length = n := by
  induction n generalizing a bs with
  | zero => simp [Memory.readBytes] at h; simp [← h]
  | succ n ih =>
    simp only [Memory.readBytes] at h
    split at h
    · next b rest _ hr => cases h; simp [ih _ _ hr]
    · cases h

/-- The bytes read are the bytes at the indices read. -/
theorem Memory.readBytes_get (m : Memory) (a n i : Nat) (bs : List Byte) (h : Memory.readBytes m a n = some bs)
    (hi : i < n) : Memory.read m (a + i) = bs[i]? := by
  induction n generalizing a bs i with
  | zero => omega
  | succ n ih =>
    simp only [Memory.readBytes] at h
    split at h
    · next b rest hb hr =>
      cases h
      cases i with
      | zero => simp [hb]
      | succ i =>
        have := ih (a + 1) i rest hr (by omega)
        rw [show a + 1 + i = a + (i + 1) by omega] at this
        simp [this]
    · cases h

theorem Memory.readBytes_cells (a : Nat) (bs : List Byte) : Memory.readBytes (Memory.cells a bs) a bs.length = some bs := by
  suffices h : ∀ (pre : Memory) (a : Nat) (bs : List Byte), (∀ c ∈ pre, c.1 < a) →
      Memory.readBytes (pre ++ Memory.cells a bs) a bs.length = some bs by simpa using h [] a bs (by simp)
  intro pre a bs
  induction bs generalizing pre a with
  | nil => intro _; rfl
  | cons b bs ih =>
    intro hpre
    have h1 : Memory.read (pre ++ Memory.cells a (b :: bs)) a = some b := by
      rw [Memory.read_append, Memory.read_eq_none_of_forall_ne pre a (fun c hc => (hpre c hc).ne)]
      simpa using Memory.read_cells a 0 (b :: bs)
    have h2 := ih (pre ++ [(a, b)]) (a + 1) (by
      intro c hc
      rcases List.mem_append.1 hc with hc | hc
      · have := hpre c hc; omega
      · simp at hc; subst hc; simp)
    rw [List.append_assoc] at h2
    change Memory.readBytes (pre ++ Memory.cells a (b :: bs)) (a + 1) bs.length = some bs at h2
    simp only [List.length_cons, Memory.readBytes, h1, h2]

/-- A stretch of bytes can be read exactly where every one of them can. -/
theorem Memory.readBytes_isSome (m : Memory) (a n : Nat) :
    (Memory.readBytes m a n).isSome = true ↔ ∀ k, k < n → (Memory.read m (a + k)).isSome = true := by
  induction n generalizing a with
  | zero => simp [Memory.readBytes]
  | succ n ih =>
    simp only [Memory.readBytes]
    constructor
    · intro h k hk
      split at h
      · next b bs hb hbs =>
        cases k with
        | zero => simp [hb]
        | succ k =>
          have := (ih (a + 1)).1 (by simp [hbs]) k (by omega)
          rwa [show a + (k + 1) = a + 1 + k by omega]
      · cases h
    · intro h
      obtain ⟨b, hb⟩ := Option.isSome_iff_exists.1 (h 0 (by omega))
      obtain ⟨bs, hbs⟩ := Option.isSome_iff_exists.1 ((ih (a + 1)).2 fun k hk => by
        have := h (k + 1) (by omega)
        rwa [show a + (k + 1) = a + 1 + k by omega] at this)
      simp only [Nat.add_zero] at hb
      simp [hb, hbs]

end Sys2Proof.Machine
end

