-- ==== Sys2Proof/Laws/Commands.lean ====
section
/-! SUPPORT. What a command can answer: one inversion lemma for each shared operation, and for `exec` as a whole the two
outcomes of a command that completes, rejected (60_exceptions.md R336) or accepted (`Accepted`). -/

namespace Sys2Proof.Machine

theorem thenDo_next {α : Type} {o : Host.Outcome α Fault Refusal} {f : α → Result} {t : State}
    (h : thenDo o f = .next t) : ∃ a, o = .next a ∧ f a = .next t := by
  cases o with
  | next a => exact ⟨a, rfl, h⟩
  | fault r => cases h
  | refused r => cases h

theorem sequenced_next {legal : State → Bool} {body : State → Result} {s t : State}
    (h : sequenced legal body s = .next t) :
    (t = s.respond .sequenceError [] ∧ (s.initDone = false ∨ legal s = false)) ∨
    (s.initDone = true ∧ legal s = true ∧ body s = .next t) := by
  unfold sequenced at h
  split at h
  · next h1 => cases h; exact .inl ⟨rfl, .inl h1⟩
  · next h1 =>
    split at h
    · next h2 => cases h; exact .inl ⟨rfl, .inr h2⟩
    · next h2 => exact .inr ⟨by simpa using h1, by simpa using h2, h⟩

theorem requiring_next {ok : State → Bool} {e : Status} {body : State → Result} {s t : State}
    (h : requiring ok e body s = .next t) :
    (t = s.respond e [] ∧ ok s = false) ∨ (ok s = true ∧ body s = .next t) := by
  unfold requiring at h
  split at h
  · next h1 => cases h; exact .inl ⟨rfl, h1⟩
  · next h1 => exact .inr ⟨by simpa using h1, h⟩

theorem sequenced_passes {legal : State → Bool} {body : State → Result} {s : State} (h1 : s.initDone = true)
    (h2 : legal s = true) : sequenced legal body s = body s := by simp [sequenced, h1, h2]

theorem requiring_passes {ok : State → Bool} {e : Status} {body : State → Result} {s : State} (h : ok s = true) :
    requiring ok e body s = body s := by simp [requiring, h]

/-- `MemRead` answers the bytes that are there, inside the buffer (20_memory.md R75). -/
theorem memRead_next {s : State} {len : Nat} {space : Space} {a n : Nat} {bs : List Byte} :
    memRead s len space a n = .next bs ↔
      a + n ≤ s.bufferSize len space ∧ Memory.readBytes (s.buffer space) a n = some bs := by
  unfold memRead
  split
  · next h =>
    split
    · next bs' h' => simp [h, h']
    · next h' => simp [h']
  · next h => simp [h]

theorem readDin_next {len : BitVec 28} {s : State} {bs : List Byte} :
    readDin len s = .next bs ↔ Memory.readBytes s.din 0 len.toNat = some bs := by
  simp [readDin, memRead_next, State.bufferSize, State.buffer]

theorem readIv_next {s : State} {bs : List Byte} :
    readIv s = .next bs ↔ ceil8 s.ivBits.toNat ≤ s.engine.params.ivbufBytes ∧
      Memory.readBytes s.ivbuf 0 (ceil8 s.ivBits.toNat) = some bs := by
  simp [readIv, memRead_next, State.bufferSize, State.buffer]

theorem readKey_next {kb : BitVec 14} {s : State} {bs : List Byte} :
    readKey kb s = .next bs ↔ ceil8 kb.toNat ≤ s.engine.params.keybufBytes ∧
      Memory.readBytes s.keybuf 0 (ceil8 kb.toNat) = some bs := by
  simp [readKey, memRead_next, State.bufferSize, State.buffer]

/-- A supported key length fits `KEYBUF` (20_memory.md R75). -/
theorem Params.keybuf_fits (p : Params) (n : Nat) (h : p.keySizeOk n = true) : ceil8 n ≤ p.keybufBytes := by
  simp only [Params.keySizeOk, sizeOk, Bool.and_eq_true, decide_eq_true_eq] at h
  unfold Params.keybufBytes ceil8
  omega

/-- A supported IV length fits `IVBUF` (20_memory.md R75). -/
theorem Params.ivbuf_fits (p : Params) (n : Nat) (h : p.ivSizeOk n = true) : ceil8 n ≤ p.ivbufBytes := by
  simp only [Params.ivSizeOk, sizeOk, Bool.and_eq_true, decide_eq_true_eq] at h
  unfold Params.ivbufBytes ceil8
  omega

/-- What `CMB.process` does, said once (43_combiner.md R190). -/
theorem combine_eq (din : List Byte) (n : Nat) (s : State) :
    combine din n s = (memWrite 0 (xorBytes din (genTake n s).2) (genTake n s).1, xorBytes din (genTake n s).2) := rfl

/-- The state an accepted byte-mode command leaves. -/
def byteResult (din : List Byte) (n : Nat) (s : State) : State :=
  ((combine din n s).1.toByteMode).respond .ok (combine din n s).2

/-- The state an accepted block-mode command leaves. -/
def blockResult (din : List Byte) (n : Nat) (s : State) : State :=
  ((combine din n s).1.toBlockStreaming).respond .ok (combine din n s).2

/-- The state an accepted KEYSTREAM_BYTES leaves. -/
def keystreamResult (n : Nat) (s : State) : State :=
  ((memWrite 0 (genTake n s).2 (genTake n s).1).toByteMode).respond .ok (genTake n s).2

/-- The accepted commands: the checks each passes, the operands it reads, and the state it leaves. -/
inductive Accepted : Instr → State → State → Prop
  | init (s : State) : Accepted .init s (s.setInitDone.respond .ok [])
  | keysetup (kb ib : BitVec 14) (key : List Byte) (s : State) (h1 : s.initDone = true) (h2 : keysetupLegal s = true)
      (h3 : lengthsOk kb ib s = true) (h4 : readKey kb s = .next key) :
      Accepted (.keysetup kb ib) s ((keySchedule key kb ib s).respond .ok [])
  | ivsetup (iv : List Byte) (s : State) (h1 : s.initDone = true) (h2 : ivLegal s = true) (h3 : readIv s = .next iv) :
      Accepted .ivsetup s ((ivStep iv s).toIvReady.respond .ok [])
  | keystreamBytes (len : BitVec 28) (s : State) (h1 : s.initDone = true) (h2 : streamLegal s = true) :
      Accepted (.keystreamBytes len) s (keystreamResult len.toNat s)
  | bytes (i : Instr) (len : BitVec 28) (hi : i = .encryptBytes len ∨ i = .decryptBytes len) (din : List Byte) (s : State)
      (h1 : s.initDone = true) (h2 : streamLegal s = true) (h3 : readDin len s = .next din) :
      Accepted i s (byteResult din len.toNat s)
  | blocks (i : Instr) (len : BitVec 28) (hi : i = .encryptBlocks len ∨ i = .decryptBlocks len) (din : List Byte)
      (s : State) (h1 : s.initDone = true) (h2 : blockLegal s = true) (h3 : blockLenOk len s = true)
      (h4 : readDin len s = .next din) : Accepted i s (blockResult din len.toNat s)
  | packet (i : Instr) (len : BitVec 28) (hi : i = .encryptPacket len ∨ i = .decryptPacket len) (iv din : List Byte)
      (s : State) (h1 : s.initDone = true) (h2 : ivLegal s = true) (h3 : readIv s = .next iv)
      (h4 : readDin len s = .next din) : Accepted i s (byteResult din len.toNat (ivStep iv s))

theorem byteCommand_next {len : BitVec 28} {s t : State} (h : byteCommand len s = .next t) :
    (t = s.respond .sequenceError [] ∧ (s.initDone = false ∨ streamLegal s = false)) ∨
    (s.initDone = true ∧ streamLegal s = true ∧ ∃ din, readDin len s = .next din ∧ t = byteResult din len.toNat s) := by
  rcases sequenced_next h with h | ⟨h1, h2, h⟩
  · exact .inl h
  · obtain ⟨din, h3, h⟩ := thenDo_next h
    cases h
    exact .inr ⟨h1, h2, din, h3, rfl⟩

theorem blockCommand_next {len : BitVec 28} {s t : State} (h : blockCommand len s = .next t) :
    (t = s.respond .sequenceError [] ∧ (s.initDone = false ∨ blockLegal s = false)) ∨
    (t = s.respond .invalidLength [] ∧ s.initDone = true ∧ blockLegal s = true ∧ blockLenOk len s = false) ∨
    (s.initDone = true ∧ blockLegal s = true ∧ blockLenOk len s = true ∧
      ∃ din, readDin len s = .next din ∧ t = blockResult din len.toNat s) := by
  rcases sequenced_next h with h | ⟨h1, h2, h⟩
  · exact .inl h
  · rcases requiring_next h with ⟨h, h3⟩ | ⟨h3, h⟩
    · exact .inr (.inl ⟨h, h1, h2, h3⟩)
    · obtain ⟨din, h4, h⟩ := thenDo_next h
      cases h
      exact .inr (.inr ⟨h1, h2, h3, din, h4, rfl⟩)

theorem packetCommand_next {len : BitVec 28} {s t : State} (h : packetCommand len s = .next t) :
    (t = s.respond .sequenceError [] ∧ (s.initDone = false ∨ ivLegal s = false)) ∨
    (s.initDone = true ∧ ivLegal s = true ∧ ∃ iv din, readIv s = .next iv ∧ readDin len s = .next din ∧
      t = byteResult din len.toNat (ivStep iv s)) := by
  rcases sequenced_next h with h | ⟨h1, h2, h⟩
  · exact .inl h
  · obtain ⟨iv, h3, h⟩ := thenDo_next h
    obtain ⟨din, h4, h⟩ := thenDo_next h
    cases h
    exact .inr ⟨h1, h2, iv, din, h3, h4, rfl⟩

theorem execKeystreamBytes_next {len : BitVec 28} {s t : State} (h : execKeystreamBytes len s = .next t) :
    (t = s.respond .sequenceError [] ∧ (s.initDone = false ∨ streamLegal s = false)) ∨
    (s.initDone = true ∧ streamLegal s = true ∧ t = keystreamResult len.toNat s) := by
  rcases sequenced_next h with h | ⟨h1, h2, h⟩
  · exact .inl h
  · cases h
    exact .inr ⟨h1, h2, rfl⟩

theorem execKeysetup_next {kb ib : BitVec 14} {s t : State} (h : execKeysetup kb ib s = .next t) :
    (t = s.respond .sequenceError [] ∧ (s.initDone = false ∨ keysetupLegal s = false)) ∨
    (t = s.respond .invalidParameter [] ∧ s.initDone = true ∧ keysetupLegal s = true ∧ lengthsOk kb ib s = false) ∨
    (s.initDone = true ∧ keysetupLegal s = true ∧ lengthsOk kb ib s = true ∧
      ∃ key, readKey kb s = .next key ∧ t = (keySchedule key kb ib s).respond .ok []) := by
  rcases sequenced_next h with h | ⟨h1, h2, h⟩
  · exact .inl h
  · rcases requiring_next h with ⟨h, h3⟩ | ⟨h3, h⟩
    · exact .inr (.inl ⟨h, h1, h2, h3⟩)
    · obtain ⟨key, h4, h⟩ := thenDo_next h
      cases h
      exact .inr (.inr ⟨h1, h2, h3, key, h4, rfl⟩)

theorem execIvsetup_next {s t : State} (h : execIvsetup s = .next t) :
    (t = s.respond .sequenceError [] ∧ (s.initDone = false ∨ ivLegal s = false)) ∨
    (s.initDone = true ∧ ivLegal s = true ∧ ∃ iv, readIv s = .next iv ∧
      t = (ivStep iv s).toIvReady.respond .ok []) := by
  rcases sequenced_next h with h | ⟨h1, h2, h⟩
  · exact .inl h
  · obtain ⟨iv, h3, h⟩ := thenDo_next h
    cases h
    exact .inr ⟨h1, h2, iv, h3, rfl⟩

/-- Everything a completed command can have done: it was rejected, and the response is all that changed, or it was
accepted. -/
theorem exec_next {i : Instr} {s t : State} (h : exec i s = .next t) :
    (∃ e, e ≠ .ok ∧ t = s.respond e []) ∨ Accepted i s t := by
  have hseq : Status.sequenceError ≠ .ok := by decide
  have hlen : Status.invalidLength ≠ .ok := by decide
  have hpar : Status.invalidParameter ≠ .ok := by decide
  cases i with
  | init => cases h; exact .inr (.init s)
  | keysetup kb ib =>
    rcases execKeysetup_next h with ⟨h, _⟩ | ⟨h, _⟩ | ⟨h1, h2, h3, key, h4, rfl⟩
    · exact .inl ⟨_, hseq, h⟩
    · exact .inl ⟨_, hpar, h⟩
    · exact .inr (.keysetup kb ib key s h1 h2 h3 h4)
  | ivsetup =>
    rcases execIvsetup_next h with ⟨h, _⟩ | ⟨h1, h2, iv, h3, rfl⟩
    · exact .inl ⟨_, hseq, h⟩
    · exact .inr (.ivsetup iv s h1 h2 h3)
  | encryptBytes len =>
    rcases byteCommand_next h with ⟨h, _⟩ | ⟨h1, h2, din, h3, rfl⟩
    · exact .inl ⟨_, hseq, h⟩
    · exact .inr (.bytes _ len (.inl rfl) din s h1 h2 h3)
  | decryptBytes len =>
    rcases byteCommand_next h with ⟨h, _⟩ | ⟨h1, h2, din, h3, rfl⟩
    · exact .inl ⟨_, hseq, h⟩
    · exact .inr (.bytes _ len (.inr rfl) din s h1 h2 h3)
  | keystreamBytes len =>
    rcases execKeystreamBytes_next h with ⟨h, _⟩ | ⟨h1, h2, rfl⟩
    · exact .inl ⟨_, hseq, h⟩
    · exact .inr (.keystreamBytes len s h1 h2)
  | encryptBlocks len =>
    rcases blockCommand_next h with ⟨h, _⟩ | ⟨h, _⟩ | ⟨h1, h2, h3, din, h4, rfl⟩
    · exact .inl ⟨_, hseq, h⟩
    · exact .inl ⟨_, hlen, h⟩
    · exact .inr (.blocks _ len (.inl rfl) din s h1 h2 h3 h4)
  | decryptBlocks len =>
    rcases blockCommand_next h with ⟨h, _⟩ | ⟨h, _⟩ | ⟨h1, h2, h3, din, h4, rfl⟩
    · exact .inl ⟨_, hseq, h⟩
    · exact .inl ⟨_, hlen, h⟩
    · exact .inr (.blocks _ len (.inr rfl) din s h1 h2 h3 h4)
  | encryptPacket len =>
    rcases packetCommand_next h with ⟨h, _⟩ | ⟨h1, h2, iv, din, h3, h4, rfl⟩
    · exact .inl ⟨_, hseq, h⟩
    · exact .inr (.packet _ len (.inl rfl) iv din s h1 h2 h3 h4)
  | decryptPacket len =>
    rcases packetCommand_next h with ⟨h, _⟩ | ⟨h1, h2, iv, din, h3, h4, rfl⟩
    · exact .inl ⟨_, hseq, h⟩
    · exact .inr (.packet _ len (.inr rfl) iv din s h1 h2 h3 h4)

/-- No command changes the parameters (00_scope.md R4, R11) or the host's side other than the response. -/
theorem exec_next_frame {i : Instr} {s t : State} (h : exec i s = .next t) :
    t.engine.variant = s.engine.variant ∧ t.rekey = s.rekey ∧ t.keybuf = s.keybuf ∧ t.ivbuf = s.ivbuf ∧
    t.din = s.din ∧ t.header = s.header ∧ t.host = s.host ∧ t.freeCount = s.freeCount := by
  rcases exec_next h with ⟨e, _, rfl⟩ | h
  · simp [State.respond]
  · cases h <;>
      simp [State.respond, State.setInitDone, keySchedule, ivStep, State.toIvReady, byteResult, blockResult,
        keystreamResult, combine_eq, memWrite, State.toByteMode, State.toBlockStreaming]

end Sys2Proof.Machine
end

