-- ==== Sys2Proof/Laws/HostPort.lean ====
section
/-! SUPPORT. What a step can answer (20_memory.md R84, 60_exceptions.md R352), and what `Reset` during a command can leave in
`DOUT` (70_reset_and_hazards.md R372). -/

namespace Sys2Proof.Machine

/-- Everything a step can have done: executed the delivered header, idled, or performed the host's next act. -/
theorem step_next {s t : State} (h : step s = .next t) :
    (∃ hd, s.header = some hd ∧ runHeader hd { s with header := none } = .next t) ∨
    (s.header = none ∧ s.host = [] ∧ t = s) ∨
    ∃ ev rest, s.header = none ∧ s.host = ev :: rest ∧ hostEvent ev { s with host := rest } = .next t := by
  unfold step at h
  split at h
  · next hd hh => exact .inl ⟨hd, hh, h⟩
  · next hn =>
    split at h
    · next he => cases h; exact .inr (.inl ⟨hn, he, rfl⟩)
    · next ev rest he => exact .inr (.inr ⟨ev, rest, hn, he, h⟩)

/-- Everything a header can have done: its command, or `IllegalCommand`. -/
theorem runHeader_next {hd : Header} {s t : State} (h : runHeader hd s = .next t) :
    (∃ i, decode hd = .ok i ∧ exec i s = .next t) ∨
    ((∃ e, decode hd = .error e) ∧ t = s.respond .illegalCommand []) := by
  unfold runHeader at h
  split at h
  · next i hi => exact .inl ⟨i, hi, h⟩
  · next e he => cases h; exact .inr ⟨⟨e, he⟩, rfl⟩

/-- `Reset` during a command leaves the state of `Reset` with `DOUT` partly written. -/
theorem resetDuring_next {hd : Header} {s t : State} (h : resetDuring hd s = .next t) :
    ∃ u, runHeader hd s = .next u ∧ t = { resetEngine s with
      dout := partlyWritten s.freeCount 0 (responseData u) s.dout
      freeCount := s.freeCount + (responseData u).length } := by
  obtain ⟨u, h1, h2⟩ := thenDo_next h
  cases h2
  exact ⟨u, h1, rfl⟩

/-- Each byte is as it was or as it would have been written, whatever the free bits are. -/
theorem partlyWritten_read (bs : List Byte) (count a k : Nat) (m : Memory) :
    Memory.read (partlyWritten count a bs m) k = Memory.read m k ∨
    (a ≤ k ∧ k < a + bs.length ∧ Memory.read (partlyWritten count a bs m) k = bs[k - a]?) := by
  induction bs generalizing count a m with
  | nil => exact .inl rfl
  | cons b bs ih =>
    simp only [partlyWritten]
    rcases ih (count + 1) (a + 1) (if Config.freeBit count then Memory.write m a [b] else m) with h | ⟨h1, h2, h3⟩
    · rw [h]
      split
      · by_cases hk : k = a
        · subst hk
          exact .inr ⟨le_rfl, by simp, by simpa using Memory.read_write_inside m k 0 [b] (by simp)⟩
        · exact .inl (Memory.read_write_outside _ _ _ _ (by simp; omega))
      · exact .inl rfl
    · refine .inr ⟨by omega, by simp; omega, ?_⟩
      rw [h3, show k - a = (k - (a + 1)) + 1 by omega]
      simp

theorem partlyWritten_wf (bs : List Byte) (count a : Nat) (m : Memory) (h : Memory.wf m = true) :
    Memory.wf (partlyWritten count a bs m) = true := by
  induction bs generalizing count a m with
  | nil => exact h
  | cons b bs ih =>
    simp only [partlyWritten]
    apply ih
    split
    · exact Memory.wf_write _ _ _ h
    · exact h

end Sys2Proof.Machine
end

