-- ==== Sys2Proof/Laws/PerInstr.lean ====
section
/-! SUPPORT. Facts about the commands as syntax, one lemma per constructor of `Instr`: the header of a command selects its
own row of the opcode map and no other (30_encoding.md R107, R114). -/

namespace Sys2Proof.Laws

/-- The header of `i` selects exactly one row of the opcode map, the one that carries its mnemonic. -/
def SelectsOneRow.Statement (i : Instr) : Prop :=
  ((opcodeMap.filter fun r => r.selects (encode i)).map fun r => r.mnemonic) = [i.mnemonic]

/-- Masking a header masks its opcode and its low field apart. -/
theorem append_and_append (o m : BitVec 4) (l k : BitVec 28) :
    ((o ++ l : BitVec 32) &&& (m ++ k : BitVec 32)) = ((o &&& m) ++ (l &&& k) : BitVec 32) := by
  apply BitVec.eq_of_getLsbD_eq
  intro i _
  simp only [BitVec.getLsbD_and, BitVec.getLsbD_append]
  split <;> simp

/-- Two headers are equal when their opcodes and their low fields are. -/
theorem append_eq_append (o p : BitVec 4) (l k : BitVec 28) :
    (o ++ l : BitVec 32) = (p ++ k : BitVec 32) ↔ o = p ∧ l = k := by
  constructor
  · intro h
    have h1 := congrArg (BitVec.extractLsb' 28 4) h
    have h2 := congrArg (BitVec.extractLsb' 0 28) h
    simp only [BitVec.extractLsb'_append_eq_left, BitVec.extractLsb'_append_eq_right] at h1 h2
    exact ⟨h1, h2⟩
  · rintro ⟨rfl, rfl⟩
    rfl

/-- Selecting a row, opcode and low field apart. -/
theorem selects_append (n : String) (p m o : BitVec 4) (q k l : BitVec 28) :
    OpcodeRow.selects ⟨n, p ++ q, m ++ k⟩ (o ++ l : BitVec 32) = (decide (o &&& m = p) && decide (l &&& k = q)) := by
  unfold OpcodeRow.selects
  rw [append_and_append, Bool.eq_iff_iff]
  simp [append_eq_append]

/-- The opcode map with the opcode and the low field of each pattern and mask apart: all of the low field must be zero in
format `Z`, none of it counts in the other formats. -/
theorem opcodeMap_split : opcodeMap =
    [⟨"INIT", 0#4 ++ 0#28, 15#4 ++ 0xFFFFFFF#28⟩, ⟨"KEYSETUP", 1#4 ++ 0#28, 15#4 ++ 0#28⟩,
     ⟨"IVSETUP", 2#4 ++ 0#28, 15#4 ++ 0xFFFFFFF#28⟩, ⟨"ENCRYPT_BYTES", 3#4 ++ 0#28, 15#4 ++ 0#28⟩,
     ⟨"DECRYPT_BYTES", 4#4 ++ 0#28, 15#4 ++ 0#28⟩, ⟨"KEYSTREAM_BYTES", 5#4 ++ 0#28, 15#4 ++ 0#28⟩,
     ⟨"ENCRYPT_BLOCKS", 6#4 ++ 0#28, 15#4 ++ 0#28⟩, ⟨"DECRYPT_BLOCKS", 7#4 ++ 0#28, 15#4 ++ 0#28⟩,
     ⟨"ENCRYPT_PACKET", 8#4 ++ 0#28, 15#4 ++ 0#28⟩, ⟨"DECRYPT_PACKET", 9#4 ++ 0#28, 15#4 ++ 0#28⟩] := by decide

/-- The mnemonics of the rows selected, row by row. -/
theorem names_cons (r : OpcodeRow) (m : List OpcodeRow) (p : OpcodeRow → Bool) :
    ((r :: m).filter p).map (fun r => r.mnemonic) =
      (if p r = true then [r.mnemonic] else []) ++ (m.filter p).map fun r => r.mnemonic := by
  by_cases h : p r = true <;> simp [h]

/-- Which rows a header with opcode `o` and low field `l` selects, each row in its place. -/
theorem selected_rows (o : BitVec 4) (l : BitVec 28) :
    (opcodeMap.filter fun r => r.selects (o ++ l)).map (fun r => r.mnemonic) =
      (if o = 0 ∧ l = 0 then ["INIT"] else []) ++ (if o = 1 then ["KEYSETUP"] else []) ++
      (if o = 2 ∧ l = 0 then ["IVSETUP"] else []) ++ (if o = 3 then ["ENCRYPT_BYTES"] else []) ++
      (if o = 4 then ["DECRYPT_BYTES"] else []) ++ (if o = 5 then ["KEYSTREAM_BYTES"] else []) ++
      (if o = 6 then ["ENCRYPT_BLOCKS"] else []) ++ (if o = 7 then ["DECRYPT_BLOCKS"] else []) ++
      (if o = 8 then ["ENCRYPT_PACKET"] else []) ++ (if o = 9 then ["DECRYPT_PACKET"] else []) := by
  have ho : o &&& 15#4 = o := BitVec.and_allOnes
  have hl : l &&& 0xFFFFFFF#28 = l := BitVec.and_allOnes
  rw [opcodeMap_split]
  simp only [names_cons, selects_append, ho, hl, BitVec.and_zero, Bool.and_eq_true, decide_eq_true_eq, and_true,
    decide_true, List.filter_nil, List.map_nil, List.append_nil, List.append_assoc, -BitVec.reduceAppend]
  rfl

theorem SelectsOneRow.init : SelectsOneRow.Statement .init := selected_rows _ _

theorem SelectsOneRow.keysetup (kb ib : BitVec 14) : SelectsOneRow.Statement (.keysetup kb ib) :=
  (selected_rows _ _).trans (by simp [Instr.mnemonic])

theorem SelectsOneRow.ivsetup : SelectsOneRow.Statement .ivsetup := selected_rows _ _

theorem SelectsOneRow.encryptBytes (len : BitVec 28) : SelectsOneRow.Statement (.encryptBytes len) :=
  (selected_rows _ _).trans (by simp [Instr.mnemonic])

theorem SelectsOneRow.decryptBytes (len : BitVec 28) : SelectsOneRow.Statement (.decryptBytes len) :=
  (selected_rows _ _).trans (by simp [Instr.mnemonic])

theorem SelectsOneRow.keystreamBytes (len : BitVec 28) : SelectsOneRow.Statement (.keystreamBytes len) :=
  (selected_rows _ _).trans (by simp [Instr.mnemonic])

theorem SelectsOneRow.encryptBlocks (len : BitVec 28) : SelectsOneRow.Statement (.encryptBlocks len) :=
  (selected_rows _ _).trans (by simp [Instr.mnemonic])

theorem SelectsOneRow.decryptBlocks (len : BitVec 28) : SelectsOneRow.Statement (.decryptBlocks len) :=
  (selected_rows _ _).trans (by simp [Instr.mnemonic])

theorem SelectsOneRow.encryptPacket (len : BitVec 28) : SelectsOneRow.Statement (.encryptPacket len) :=
  (selected_rows _ _).trans (by simp [Instr.mnemonic])

theorem SelectsOneRow.decryptPacket (len : BitVec 28) : SelectsOneRow.Statement (.decryptPacket len) :=
  (selected_rows _ _).trans (by simp [Instr.mnemonic])

end Sys2Proof.Laws
end

