-- ==== Sys2Proof/Tests/Slice0.lean ====
section
/-! SUPPORT. The model's own tests: the decoding of words written out from the spec's encodings, the refusal of ill-formed
commands, one-step checks against the spec's vectors (95_test_vectors.md), and a concrete witness for the hypotheses of
every statement that has hypotheses. -/

namespace Sys2Proof.Tests

open Sys2Proof.Machine

/-! ## Decoding: words written out bit by bit from 30_encoding.md R102 to R107 -/

theorem test_decode_init : decode 0b00000000000000000000000000000000 = .ok .init := by decide
theorem test_decode_keysetup : decode 0b00010000000101000000000001010000 = .ok (.keysetup 80 80) := by decide
theorem test_decode_keysetup_fields_apart : decode 0b00010000010000000000000001000000 = .ok (.keysetup 256 64) := by decide
theorem test_decode_ivsetup : decode 0b00100000000000000000000000000000 = .ok .ivsetup := by decide
theorem test_decode_encryptBytes : decode 0b00110000000000000000000000001001 = .ok (.encryptBytes 9) := by decide
theorem test_decode_decryptBytes : decode 0b01000000000000000000000000001001 = .ok (.decryptBytes 9) := by decide
theorem test_decode_keystreamBytes : decode 0b01011111111111111111111111111111 = .ok (.keystreamBytes 268435455) := by
  decide
theorem test_decode_encryptBlocks : decode 0b01100000000000000000000001000000 = .ok (.encryptBlocks 64) := by decide
theorem test_decode_decryptBlocks : decode 0b01110000000000000000000001000000 = .ok (.decryptBlocks 64) := by decide
theorem test_decode_encryptPacket : decode 0b10000000000000000000000000000101 = .ok (.encryptPacket 5) := by decide
theorem test_decode_decryptPacket : decode 0b10010000000000000000000000001011 = .ok (.decryptPacket 11) := by decide

/-- The illegal headers of the spec's vector V2. -/
theorem test_decode_illegal :
    ([0x00000001, 0x0FFFFFFF, 0x20000001, 0x28000000, 0xA0000000, 0xB0000000, 0xC0000000, 0xD0000000, 0xE0000000,
      0xF1234567, 0xFFFFFFFF].map fun h => (decode h).toOption) = List.replicate 11 none := by decide

/-- The host's question on a table word: the decoder gives the row's command, a word that is too long gives none. -/
theorem test_decodeTableWord :
    decodeTableWord 32 0x10140050 = some (.keysetup 80 80) ∧ decodeTableWord 32 0xA0000000 = none ∧
    decodeTableWord 40 0x00000000 = none := by decide

/-! ## Well-formedness: one ill-formed command for each check (30_encoding.md R116) -/

theorem test_wellFormed_accepts : WellFormed (.encryptPacket 5) 8 ⟨0, 1, 5⟩ = true := by decide
theorem test_wellFormed_refuses_short_key : WellFormed (.keysetup 9 0) 0 ⟨1, 9, 9⟩ = false := by decide
theorem test_wellFormed_refuses_short_iv : WellFormed .ivsetup 65 ⟨9, 8, 9⟩ = false := by decide
theorem test_wellFormed_refuses_short_data : WellFormed (.decryptBlocks 8) 8 ⟨9, 9, 7⟩ = false := by decide

/-! ## States for the tests: the fixture `TOY4` with key `10`, IV `03` and data `00 .. 0F` -/

/-- A `TOY4` session at the start of its epoch, as after INIT, KEYSETUP and IVSETUP of vector V10, in a phase and mode of
choice. -/
def toy (p : Phase) (m : Mode) : State :=
  { State.resetOf .toy4 false with
    initDone := true
    phase := p
    mode := m
    keyBits := 8
    ivBits := 8
    engine := .toy4 ⟨⟨0x13, 0⟩, ⟨0x10, 0⟩⟩
    keybuf := Memory.cells 0 [0x10]
    ivbuf := Memory.cells 0 [0x03]
    din := Memory.cells 0 [0x00, 0x01, 0x02, 0x03, 0x04, 0x05, 0x06, 0x07, 0x08, 0x09, 0x0A, 0x0B] }

/-- The same instance before KEYSETUP. -/
def toyNew : State := { toy .uninitialized .block with engine := Engine.blank .toy4, keyBits := 0, ivBits := 0 }

/-- A session of another build, for checks on its registers. -/
def session (e : Engine) (p : Phase) : State := { toy p .block with engine := e }

/-- Status word and data of an answer. -/
def answer : Result → Option (Word32 × List Byte)
  | .next t => t.response.map fun r => (r.st, r.data)
  | .fault _ => none
  | .refused _ => none

/-- A property of the state an answer leaves. -/
def leaves (o : Result) (p : State → Bool) : Bool :=
  match o with
  | .next t => p t
  | .fault _ => false
  | .refused _ => false

/-! ## One step of each command, against the spec's vectors -/

/-- V10 command 1. -/
theorem test_init : exec .init (State.resetOf .toy4 false) =
    .next { State.resetOf .toy4 false with initDone := true, response := some ⟨0, []⟩ } := rfl

/-- V10 command 2: `K0 = S = (10, 00)`. -/
theorem test_keysetup : leaves (exec (.keysetup 8 8) toyNew)
    (fun t => decide (t.engine = .toy4 ⟨⟨0x10, 0⟩, ⟨0x10, 0⟩⟩ ∧ t.phase = .keyed ∧ t.regime = .short)) = true := by decide

/-- V37: `K0` of a counting 128-bit key on `CHACHA20`. -/
theorem test_keysetup_chacha20 :
    chaLoadKey ((List.range 16).map (BitVec.ofNat 8)) 128 64 =
      #v[0x61707865, 0x3120646E, 0x79622D36, 0x6B206574, 0x03020100, 0x07060504, 0x0B0A0908, 0x0F0E0D0C,
         0x03020100, 0x07060504, 0x0B0A0908, 0x0F0E0D0C, 0, 0, 0, 0] := by decide

/-- V10 command 3: `S = (13, 00)` from `K0 = (10, 00)` and IV `03`. -/
theorem test_ivsetup : leaves (exec .ivsetup (toy .streaming .byte))
    (fun t => decide (t.engine = .toy4 ⟨⟨0x13, 0⟩, ⟨0x10, 0⟩⟩ ∧ t.phase = .ivReady ∧ t.mode = .block)) = true := by decide

/-- V51: IVSETUP before KEYSETUP. -/
theorem test_ivsetup_before_keysetup : answer (exec .ivsetup toyNew) = some (2, []) := by decide

/-- V17: `AA BB` becomes `B9 E8`. -/
theorem test_encryptBytes : answer (exec (.encryptBytes 2)
    { toy .ivReady .block with din := Memory.cells 0 [0xAA, 0xBB, 0xCC, 0xDD] }) = some (0, [0xB9, 0xE8]) := by decide

/-- V12 command 5: from `S = (14, 00)`. -/
theorem test_decryptBytes : answer (exec (.decryptBytes 4)
    { toy .streaming .byte with
      engine := .toy4 ⟨⟨0x14, 0⟩, ⟨0x10, 0⟩⟩, pos := 4, din := Memory.cells 0 [0, 0, 0, 0] }) =
    some (0, [0x14, 0x54, 0x94, 0xD4]) := by decide

/-- V11 command 5: the residue is used first, and what is left of the next chunk is kept. -/
theorem test_keystreamBytes : leaves (exec (.keystreamBytes 3)
    { toy .streaming .byte with engine := .toy4 ⟨⟨0x14, 0⟩, ⟨0x10, 0⟩⟩, res := [0xD3], pos := 3 })
    (fun t => decide (t.response = some ⟨0, [0xD3, 0x14, 0x54]⟩ ∧ t.res = [0x94, 0xD4] ∧ t.pos = 6)) = true := by decide

/-- V13 command 4, with `K0 = S = (10, A5)`. -/
theorem test_encryptBlocks : answer (exec (.encryptBlocks 8)
    { toy .ivReady .block with engine := .toy4 ⟨⟨0x10, 0xA5⟩, ⟨0x10, 0xA5⟩⟩ }) =
    some (0, [0xB5, 0xF4, 0x37, 0x76, 0xB0, 0xF1, 0x32, 0x73]) := by decide

/-- V13 command 5: no whole number of blocks. -/
theorem test_encryptBlocks_length : answer (exec (.encryptBlocks 4) (toy .streaming .block)) = some (3, []) := by decide

/-- V13 command 4 turned back. -/
theorem test_decryptBlocks : answer (exec (.decryptBlocks 8)
    { toy .ivReady .block with
      engine := .toy4 ⟨⟨0x10, 0xA5⟩, ⟨0x10, 0xA5⟩⟩,
      din := Memory.cells 0 [0xB5, 0xF4, 0x37, 0x76, 0xB0, 0xF1, 0x32, 0x73] }) =
    some (0, [0, 1, 2, 3, 4, 5, 6, 7]) := by decide

/-- V13 command 8: in byte mode the sequence error comes before the length error. -/
theorem test_decryptBlocks_after_bytes : answer (exec (.decryptBlocks 4) (toy .streaming .byte)) = some (2, []) := by decide

/-- V15 command 3. -/
theorem test_encryptPacket : leaves (exec (.encryptPacket 5)
    { toy .keyed .block with din := Memory.cells 0 [1, 2, 3, 4, 5] })
    (fun t => decide (t.response = some ⟨0, [0x12, 0x51, 0x90, 0xD7, 0x11]⟩ ∧ t.res = [0x54, 0x94, 0xD4] ∧ t.pos = 5)) =
    true := by decide

/-- V15 command 6. -/
theorem test_decryptPacket : answer (exec (.decryptPacket 5)
    { toy .streaming .byte with din := Memory.cells 0 [0x12, 0x51, 0x90, 0xD7, 0x11] }) = some (0, [1, 2, 3, 4, 5]) := by
  decide

/-- V27 steps 0 and 2 of `TRIVIUM.step`. -/
theorem test_triStep :
    triStep (triPut 286 true ||| triPut 287 true ||| triPut 288 true) = (triPut 287 true ||| triPut 288 true, 1) ∧
    triStep (triPut 1 true ||| triPut 288 true) = (triPut 1 true ||| triPut 2 true, 1) := ⟨rfl, rfl⟩

/-- 47_variant_chacha.md R285: the check value of the quarter round. -/
theorem test_quarterRound :
    quarterRound 0x11111111 0x01020304 0x9B8D6F43 0x01234567 = (0xEA2A92F4, 0xCB1CF8CE, 0x4581472E, 0x5881C4BB) := by
  decide

/-- The host's second question: a table word placed in the reset state is the command of the very next step. -/
theorem test_step_runs_the_fetched_word :
    step (State.reset.withFetchWord 32 0x00000000) = exec .init State.reset ∧
    leaves (step (State.reset.withFetchWord 32 0x00000000)) (fun t => t.initDone) = true := ⟨rfl, rfl⟩

/-! ## Witnesses: concrete states and operands that meet the hypotheses of each statement -/

/-- `toy` between commands: all six invariants of 10_state.md R47. -/
theorem toy_inv : (toy .ivReady .block).Inv where
  keyed _ := ⟨rfl, by decide, by decide, by decide, [0x10], by decide, rfl⟩
  before_epoch _ := ⟨rfl, rfl, rfl⟩
  iv_ready _ := ⟨rfl, rfl, rfl⟩
  block_mode _ := ⟨rfl, rfl⟩
  residue := by decide
  position _ := ⟨[0x03], by decide, rfl, rfl⟩

theorem witness_EncodeAndDecodeAreInverse : decode 0x1FFFFFFF = .ok (.keysetup 16383 16383) := by decide

/-- Both kinds of reserved header, each at the ends of its range. -/
theorem witness_ReservedHeaderAnswersIllegalCommand :
    (toy .keyed .block).header = none ∧
    { toy .keyed .block with header := some (0xA0000000 : Header) }.header = some 0xA0000000 ∧
    10 ≤ (0xA0000000 : Header).toNat / 2 ^ 28 ∧ 10 ≤ (0xFFFFFFFF : Header).toNat / 2 ^ 28 ∧
    ((0x00000001 : Header).toNat / 2 ^ 28 = 0 ∧ (0x00000001 : Header).toNat % 2 ^ 28 ≠ 0) ∧
    ((0x0FFFFFFF : Header).toNat / 2 ^ 28 = 0 ∧ (0x0FFFFFFF : Header).toNat % 2 ^ 28 ≠ 0) ∧
    ((0x20000001 : Header).toNat / 2 ^ 28 = 2 ∧ (0x20000001 : Header).toNat % 2 ^ 28 ≠ 0) ∧
    ((0x2FFFFFFF : Header).toNat / 2 ^ 28 = 2 ∧ (0x2FFFFFFF : Header).toNat % 2 ^ 28 ≠ 0) := by decide

theorem witness_StepExecutesTheDecodedCommand :
    { toy .keyed .block with header := some (0x20000000 : Header) }.header = some 0x20000000 ∧
    decode 0x20000000 = .ok .ivsetup ∧ decodeTableWord 32 0x20000000 = some .ivsetup := by decide

theorem witness_IdleEngineHoldsItsState : State.reset.header = none ∧ State.reset.host = [] := ⟨rfl, rfl⟩

/-- An empty fill, one at index 0 and one that overlaps bytes already written. -/
theorem witness_HostFillWritesOnlyItsBytes :
    { toy .keyed .block with host := [.fill .din 0 []] }.host = [.fill .din 0 []] ∧
    { toy .keyed .block with host := [.fill .din 0 [1]] }.host = [.fill .din 0 [1]] ∧
    { toy .keyed .block with host := [.fill .keybuf 0 [1, 2]] }.host = [.fill .keybuf 0 [1, 2]] ∧
    (toy .keyed .block).header = none := ⟨rfl, rfl, rfl, rfl⟩

theorem witness_IssuedCommandIsExecutedNext :
    (toy .keyed .block).header = none ∧
    { toy .keyed .block with host := [.issue 0x20000000] }.host = [.issue 0x20000000] ∧
    decode 0x20000000 = .ok .ivsetup := by decide

theorem witness_ResetEventReturnsToUninitialized :
    (toy .streaming .byte).header = none ∧ { toy .streaming .byte with host := [.reset] }.host = [.reset] := ⟨rfl, rfl⟩

theorem witness_ResetDuringCommandLeavesEachByteOldOrNew : ∃ u : State,
    (toy .ivReady .block).header = none ∧
    { toy .ivReady .block with host := [.resetDuring 0x50000003] }.host = [.resetDuring 0x50000003] ∧
    runHeader 0x50000003 { toy .ivReady .block with host := [] } = .next u :=
  ⟨_, rfl, rfl, rfl⟩

/-- Reading the whole of a buffer, and nothing at its end. -/
theorem witness_MemReadReturnsTheBytesOfTheBuffer :
    (0 + 12 ≤ (toy .keyed .block).bufferSize 12 .din ∧
      ∀ k, k < 12 → (Memory.read ((toy .keyed .block).buffer .din) (0 + k)).isSome = true) ∧
    (2 + 0 ≤ (toy .keyed .block).bufferSize 0 .keybuf) := by decide

/-- Each clause at the first unwritten byte; the fault for an IV length just past `IVBUF`. -/
theorem witness_UnreadableOperandStopsTheCommandByName :
    (toyNew.initDone = true ∧ toyNew.phase = .uninitialized ∧ toyNew.engine.params.keySizeOk (16 : BitVec 14).toNat = true ∧
      toyNew.engine.params.ivSizeOk (0 : BitVec 14).toNat = true ∧ 1 < ceil8 (16 : BitVec 14).toNat ∧
      Memory.read toyNew.keybuf 1 = none) ∧
    (let s := { toy .keyed .block with ivBits := 9 };
      s.phase ≠ .uninitialized ∧ s.engine.params.ivbufBytes < ceil8 s.ivBits.toNat) ∧
    (let s := { toy .keyed .block with ivbuf := [] };
      s.phase ≠ .uninitialized ∧ ceil8 s.ivBits.toNat ≤ s.engine.params.ivbufBytes ∧ 0 < ceil8 s.ivBits.toNat ∧
        Memory.read s.ivbuf 0 = none) ∧
    (let s := toy .ivReady .block;
      12 < (16 : BitVec 28).toNat ∧ Memory.read s.din 12 = none ∧ (s.initDone = true ∧ s.phase = .ivReady) ∧
        s.mode = .block ∧ (16 : BitVec 28).toNat % s.engine.params.blockLen = 0 ∧
        ceil8 s.ivBits.toNat ≤ s.engine.params.ivbufBytes ∧
        (Memory.readBytes s.ivbuf 0 (ceil8 s.ivBits.toNat)).isSome = true) := by decide

theorem witness_CommandsWriteNoInputBuffer : (∃ t, exec (.encryptBytes 3) (toy .ivReady .block) = .next t) ∧
    ∃ t, exec (.keysetup 8 8) toyNew = .next t := ⟨⟨_, rfl⟩, ⟨_, rfl⟩⟩

theorem witness_StepKeepsBuffersCanonical : (toy .ivReady .block).BuffersCanonical ∧
    ∃ t, step { toy .ivReady .block with header := some 0x50000003 } = .next t := ⟨⟨rfl, rfl, rfl, rfl⟩, _, rfl⟩

/-- Both ways in: a first key, and a second one where `REKEY` holds. -/
theorem witness_KeysetupLoadsAndSavesTheKey :
    (toyNew.initDone = true ∧ toyNew.phase = .uninitialized) ∧
    (let s := { toy .keyed .block with rekey := true };
      s.initDone = true ∧ s.rekey = true ∧ s.phase = .keyed) ∧
    toyNew.engine.params.keySizeOk (8 : BitVec 14).toNat = true ∧
    toyNew.engine.params.ivSizeOk (8 : BitVec 14).toNat = true ∧
    Memory.readBytes toyNew.keybuf 0 (ceil8 (8 : BitVec 14).toNat) = some [0x10] := by decide

/-- The same key byte, with other bytes behind it. -/
theorem witness_KeysetupForgetsTheOldState : ∃ t t' : State,
    let s' := { toy .uninitialized .block with keybuf := Memory.cells 0 [0x10, 0x55], engine := .toy4 ⟨⟨9, 9⟩, ⟨8, 8⟩⟩ }
    toyNew.engine.variant = s'.engine.variant ∧
    Memory.readBytes toyNew.keybuf 0 (ceil8 (8 : BitVec 14).toNat) =
      Memory.readBytes s'.keybuf 0 (ceil8 (8 : BitVec 14).toNat) ∧
    exec (.keysetup 8 8) toyNew = .next t ∧ t.response = some ⟨0, []⟩ ∧
    exec (.keysetup 8 8) s' = .next t' ∧ t'.response = some ⟨0, []⟩ :=
  ⟨_, _, rfl, rfl, rfl, rfl, rfl, rfl⟩

theorem witness_IvsetupStartsAnEpoch :
    let s := toy .keyed .block
    s.initDone = true ∧ s.phase ≠ .uninitialized ∧ s.engine.params.ivSizeOk s.ivBits.toNat = true ∧
    Memory.readBytes s.ivbuf 0 (ceil8 s.ivBits.toNat) = some [0x03] := by decide

/-- The session of `toy` in the middle of another epoch, with a longer `IVBUF` that begins with the same IV. -/
def toyLater : State :=
  { toy .streaming .byte with
    engine := .toy4 ⟨⟨0x77, 0⟩, ⟨0x10, 0⟩⟩
    pos := 5
    res := [1, 2, 3]
    ivbuf := Memory.cells 0 [0x03, 0x55]
    din := Memory.cells 0 [7, 9] }

theorem toyLater_same : (toy .keyed .block).SameKeyAndIv toyLater := ⟨rfl, rfl, rfl, rfl, rfl⟩

theorem witness_IvsetupForgetsTheOldEpoch : ∃ t t' : State,
    (toy .keyed .block).SameKeyAndIv toyLater ∧
    exec .ivsetup (toy .keyed .block) = .next t ∧ t.response = some ⟨0, []⟩ ∧
    exec .ivsetup toyLater = .next t' ∧ t'.response = some ⟨0, []⟩ :=
  ⟨_, _, toyLater_same, rfl, rfl, rfl, rfl⟩

/-- At the start of an epoch, with no data and with all the data there is. -/
theorem witness_ByteCommandsXorTheKeystream :
    (toy .ivReady .block).Streamable ∧ (toy .ivReady .block).AtPosition (toy .ivReady .block).engine 0 ∧
    Memory.readBytes (toy .ivReady .block).din 0 (0 : BitVec 28).toNat = some [] ∧
    Memory.readBytes (toy .ivReady .block).din 0 (3 : BitVec 28).toNat = some [0, 1, 2] :=
  ⟨⟨rfl, .inl rfl⟩, ⟨rfl, rfl⟩, rfl, rfl⟩

/-- In the middle of a chunk: position 3, one byte of residue (vector V11 after command 4). -/
theorem witness_KeystreamBytesDeliversTheKeystream :
    let s := { toy .streaming .byte with engine := .toy4 ⟨⟨0x14, 0⟩, ⟨0x10, 0⟩⟩, res := [0xD3], pos := 3 }
    s.Streamable ∧ s.AtPosition (.toy4 ⟨⟨0x13, 0⟩, ⟨0x10, 0⟩⟩) s.pos := ⟨⟨rfl, .inr rfl⟩, rfl, rfl⟩

theorem witness_BlockCommandsXorTheKeystream :
    let s := toy .ivReady .block
    s.Streamable ∧ s.mode = .block ∧ (8 : BitVec 28).toNat % s.engine.params.blockLen = 0 ∧
    s.AtPosition s.engine s.pos ∧ s.pos % s.engine.params.blockLen = 0 ∧
    Memory.readBytes s.din 0 (8 : BitVec 28).toNat = some [0, 1, 2, 3, 4, 5, 6, 7] :=
  ⟨⟨rfl, .inl rfl⟩, rfl, rfl, ⟨rfl, rfl⟩, rfl, rfl⟩

theorem witness_PacketCommandsStartAnEpochAndXor :
    let s := toy .streaming .byte
    s.initDone = true ∧ s.phase ≠ .uninitialized ∧ s.engine.params.ivSizeOk s.ivBits.toNat = true ∧
    Memory.readBytes s.ivbuf 0 (ceil8 s.ivBits.toNat) = some [0x03] ∧
    Memory.readBytes s.din 0 (2 : BitVec 28).toNat = some [0, 1] := by decide

theorem witness_PacketIsIvsetupThenByteCommand :
    let s := toy .keyed .block
    s.initDone = true ∧ s.phase ≠ .uninitialized ∧ s.engine.params.ivSizeOk s.ivBits.toNat = true ∧
    Memory.readBytes s.ivbuf 0 (ceil8 s.ivBits.toNat) = some [0x03] ∧
    Memory.readBytes s.din 0 (12 : BitVec 28).toNat = some [0, 1, 2, 3, 4, 5, 6, 7, 8, 9, 10, 11] := by decide

theorem witness_KeystreamBytesIsEncryptionOfZeros :
    Memory.readBytes { toy .ivReady .block with din := Memory.cells 0 [0, 0, 0] }.din 0 (3 : BitVec 28).toNat =
      some (List.replicate (3 : BitVec 28).toNat 0) := by decide

/-- A pair of one direction and a pair of both. -/
theorem witness_BlockAndByteCommandsShareOneDatapath : ∃ (t u t' u' : State) (data data' : List Byte),
    exec (.encryptBlocks 8) (toy .ivReady .block) = .next t ∧ t.response = some ⟨0, data⟩ ∧
    exec (.encryptBytes 8) (toy .ivReady .block) = .next u ∧
    exec (.decryptBlocks 0) (toy .ivReady .block) = .next t' ∧ t'.response = some ⟨0, data'⟩ ∧
    exec (.encryptBytes 0) (toy .ivReady .block) = .next u' := ⟨_, _, _, _, _, _, rfl, rfl, rfl, rfl, rfl, rfl⟩

theorem witness_AcceptedCommandsReturnLenBytes :
    (∃ (t : State) (data : List Byte), exec (.encryptPacket 3) (toy .keyed .block) = .next t ∧
      t.response = some ⟨0, data⟩) ∧
    ∃ t : State, exec .ivsetup (toy .keyed .block) = .next t ∧ t.response = some ⟨0, []⟩ :=
  ⟨⟨_, _, rfl, rfl⟩, ⟨_, rfl, rfl⟩⟩

theorem witness_KeystreamIsResumable : ∃ (t u w : State) (dm dn dk : List Byte),
    let s := toy .ivReady .block
    (7 : BitVec 28).toNat = (3 : BitVec 28).toNat + (4 : BitVec 28).toNat ∧ s.AtPosition s.engine s.pos ∧
    exec (.keystreamBytes 3) s = .next t ∧ t.response = some ⟨0, dm⟩ ∧
    exec (.keystreamBytes 4) t = .next u ∧ u.response = some ⟨0, dn⟩ ∧
    exec (.keystreamBytes 7) s = .next w ∧ w.response = some ⟨0, dk⟩ :=
  ⟨_, _, _, _, _, _, rfl, ⟨rfl, rfl⟩, rfl, rfl, rfl, rfl, rfl, rfl⟩

/-- A message of one block and a tail of three bytes. -/
def blocksOf (i : Instr) : List Order := [⟨i, [0, 1, 2, 3, 4, 5, 6, 7]⟩]

theorem blocksOf_good (o : Order) (h : o ∈ blocksOf (.encryptBlocks 8)) : o.IsBlockData 8 := by
  obtain rfl := List.mem_singleton.1 h
  exact ⟨8, rfl, rfl, .inl rfl⟩

theorem tail_good (i : Instr) (bs : List Byte) (len : BitVec 28) (hl : len.toNat = bs.length)
    (hi : i = .encryptBytes len ∨ i = .decryptBytes len) (o : Order) (h : o ∈ [(⟨i, bs⟩ : Order)]) : o.IsByteData := by
  obtain rfl := List.mem_singleton.1 h
  exact ⟨len, hl, hi⟩

theorem witness_SegmentationDoesNotMatter :
    let s := toy .ivReady .block
    s.Streamable ∧ s.AtPosition s.engine s.pos ∧ s.mode = .block ∧
    (∀ o ∈ blocksOf (.encryptBlocks 8), o.IsBlockData s.engine.params.blockLen) ∧
    (∀ o ∈ [(⟨.encryptBytes 3, [8, 9, 10]⟩ : Order)], o.IsByteData) :=
  ⟨⟨rfl, .inl rfl⟩, ⟨rfl, rfl⟩, rfl, blocksOf_good, tail_good _ _ 3 rfl (.inl rfl)⟩

/-- Encrypted as a block and a tail, decrypted in one piece, in an epoch begun after other streaming. -/
theorem witness_SecondPassUnderTheSameIvRestoresTheMessage : ∃ (u v w : State) (c : List Byte),
    let s := toy .keyed .block
    s.SameKeyAndIv toyLater ∧ exec .ivsetup s = .next u ∧ u.response = some ⟨0, []⟩ ∧
    (∀ o ∈ blocksOf (.encryptBlocks 8), o.IsBlockData s.engine.params.blockLen) ∧
    (∀ o ∈ [(⟨.encryptBytes 3, [8, 9, 10]⟩ : Order)], o.IsByteData) ∧
    runOrders (blocksOf (.encryptBlocks 8) ++ [⟨.encryptBytes 3, [8, 9, 10]⟩]) u = some (v, c) ∧
    exec .ivsetup toyLater = .next w ∧ w.response = some ⟨0, []⟩ ∧
    (∀ o ∈ [(⟨.decryptBytes 11, c⟩ : Order)], o.IsByteData) ∧ ordersInput ([] ++ [⟨.decryptBytes 11, c⟩]) = c :=
  ⟨_, _, _, _, toyLater_same, rfl, rfl, blocksOf_good, tail_good _ _ 3 rfl (.inl rfl), rfl, rfl, rfl,
    tail_good _ _ 11 rfl (.inr rfl), rfl⟩

/-- One message in an epoch begun by IVSETUP, the other in a packet command. -/
theorem witness_ReusedIvRevealsTheXorOfTheMessages : ∃ c c' : List Byte,
    (toy .keyed .block).SameKeyAndIv toyLater ∧ ([8, 9] : List Byte).length = ([7, 9] : List Byte).length ∧
    EpochMaps (toy .keyed .block) [8, 9] c ∧ EpochMaps toyLater [7, 9] c' :=
  ⟨_, _, toyLater_same, rfl,
    .inl ⟨[], [⟨.encryptBytes 2, [8, 9]⟩], _, _, rfl, rfl, fun _ h => absurd h List.not_mem_nil,
      tail_good _ _ 2 rfl (.inl rfl), rfl, rfl⟩,
    .inr ⟨.encryptPacket 2, 2, _, .inl rfl, rfl, rfl, rfl⟩⟩

theorem witness_StreamingNeverInspectsTheData :
    (∃ t, commandClass (.encryptBytes 1) = .bytes ∧
      exec (.encryptBytes 1) { toy .ivReady .block with din := [(0, 1)] } = .next t) ∧
    ∀ k, (Memory.read [(0, 1)] k).isSome = true → (Memory.read [(0, 2)] k).isSome = true :=
  ⟨⟨_, rfl, rfl⟩, fun k h => by
    by_cases hk : 0 = k
    · subst hk; rfl
    · simp [Memory.read, hk] at h⟩

/-- A command out of order and an illegal header. -/
theorem witness_RejectedCommandChangesAndReadsNothing :
    (∃ (t : State) (r : Response), runHeader 0x20000000 toyNew = .next t ∧ t.response = some r ∧ r.st ≠ 0) ∧
    ∃ (t : State) (r : Response), runHeader 0xA0000000 toyNew = .next t ∧ t.response = some r ∧ r.st ≠ 0 :=
  ⟨⟨_, _, rfl, rfl, by decide⟩, ⟨_, _, rfl, rfl, by decide⟩⟩

theorem witness_StatusIsOneTheTableAllows : ∃ t, exec (.encryptBlocks 4) (toy .streaming .block) = .next t := ⟨_, rfl⟩

/-- Exactly the bytes each command reads. -/
theorem witness_WellFormedCommandsAlwaysComplete :
    (toy .ivReady .block).Inv ∧ (toy .ivReady .block).Supplies ⟨1, 1, 12⟩ ∧
    WellFormed (.encryptPacket 12) (toy .ivReady .block).ivBits.toNat ⟨1, 1, 12⟩ = true :=
  ⟨toy_inv, ⟨rfl, rfl, rfl⟩, by decide⟩

/-- An illegal header, a command before INIT and one after it. -/
theorem witness_SessionFollowsTheTransitionTable :
    decode 0xA0000000 = .error (.reservedOpcode 10) ∧
    (∃ t, exec .ivsetup (State.resetOf .toy4 false) = .next t ∧ (State.resetOf .toy4 false).initDone = false) ∧
    ∃ t, exec .ivsetup (toy .keyed .block) = .next t ∧ (toy .keyed .block).initDone = true :=
  ⟨rfl, ⟨_, rfl, rfl⟩, ⟨_, rfl, rfl⟩⟩

theorem witness_NoCommandLeadsBackToUninitialized :
    (∃ t, exec .init toyNew = .next t ∧ t.phase = .uninitialized) ∧
    ∃ t, exec .ivsetup (toy .keyed .block) = .next t ∧ (toy .keyed .block).initDone = true :=
  ⟨⟨_, rfl, rfl⟩, ⟨_, rfl, rfl⟩⟩

/-- Another command, and a KEYSETUP that is rejected. -/
theorem witness_OnlyAcceptedKeysetupWritesTheKeySchedule :
    (∃ t, exec .ivsetup (toy .keyed .block) = .next t ∧ commandClass .ivsetup ≠ .keysetup) ∧
    ∃ t, exec (.keysetup 8 8) (toy .keyed .block) = .next t ∧ t.response ≠ some ⟨0, []⟩ :=
  ⟨⟨_, rfl, by decide⟩, ⟨_, rfl, by decide⟩⟩

theorem witness_BlocksAreRefusedAfterBytesUntilIvsetup : ∃ t,
    (toy .streaming .byte).mode = .byte ∧ (toy .streaming .byte).phase = .streaming ∧
    exec (.encryptPacket 2) (toy .streaming .byte) = .next t ∧ Instr.encryptPacket 2 ≠ .ivsetup :=
  ⟨_, rfl, rfl, rfl, by decide⟩

theorem witness_NoStepChangesTheParameters : ∃ t, step { toy .keyed .block with host := [.reset] } = .next t := ⟨_, rfl⟩

theorem witness_StepKeepsTheInvariants : (toy .ivReady .block).Inv ∧
    ∃ t, step { toy .ivReady .block with header := some 0x50000003 } = .next t := ⟨toy_inv, _, rfl⟩

/-- Two states after reset that differ in all five unspecified values, and the KEYSETUP that makes them equal. -/
theorem witness_UnspecifiedResetValuesAreNeverRead : ∃ t : State,
    let s := { toyNew with header := some 0x10020008 }
    let s' := { s with keyBits := 5, ivBits := 7, regime := .long, engine := .toy4 ⟨⟨9, 9⟩, ⟨8, 8⟩⟩ }
    s.phase = .uninitialized ∧ s.AgreeButUnspecified s' ∧ step s = .next t ∧ t.phase ≠ .uninitialized :=
  ⟨_, rfl, ⟨rfl, rfl⟩, rfl, by decide⟩

/-- The indices of the clauses for one bit at the ends of their ranges, and at the places left out. -/
theorem witness_TriviumStepMovesEveryBit :
    (1 ≤ 1 ∧ 1 ≤ 287 ∧ 1 ≠ 93 ∧ 1 ≠ 177) ∧ (1 ≤ 287 ∧ 287 ≤ 287 ∧ 287 ≠ 93 ∧ 287 ≠ 177) ∧
    (92 ≠ 93 ∧ 94 ≠ 93 ∧ 176 ≠ 177 ∧ 178 ≠ 177) := by decide

theorem witness_TriviumLoadsTheKeyBits :
    (List.replicate 10 (0x80 : Byte)).length = 10 ∧ triviumVariant.keySizeOk 80 = true ∧
    triviumVariant.ivSizeOk 80 = true ∧
    triLoadKey (List.replicate 10 0x80) 80 0 = triLoadKey (List.replicate 10 0x80) 80 0 :=
  ⟨rfl, by decide, by decide, rfl⟩

theorem witness_TriviumPadsAShortIvWithZeros :
    ([] : List Byte).length ≤ 10 ∧ (List.replicate 10 (1 : Byte)).length ≤ 10 := by decide

theorem witness_ChaChaUnitIsTheFeedForwardSum : 0 < 16 ∧ 15 < 16 := by decide

theorem witness_ChaChaKeyLoadingIsInjective :
    ((List.replicate 32 (1 : Byte)).length = 256 / 8 ∧
      chaLoadKey (List.replicate 32 1) 256 64 = chaLoadKey (List.replicate 32 1) 256 64) ∧
    (List.replicate 16 (1 : Byte)).length = 128 / 8 := ⟨⟨rfl, rfl⟩, rfl⟩

theorem witness_Rc4TableStaysAPermutation : IsPermutationTable rc4Blank.p := by
  intro a b h
  simpa [rc4Blank, rc4Identity, rc4At] using h

theorem witness_Rc4RepeatedKeyGivesTheSameTable :
    (1 ≤ [(0x4B : Byte)].length ∧ [(0x4B : Byte)].length ≤ 128) ∧ (List.replicate 128 (1 : Byte)).length ≤ 128 := by simp

theorem witness_Rc4EveryEpochRestartsTheSameKeystream :
    (session (.rc4 ⟨rc4Blank, rc4Blank⟩) .keyed).engine = .rc4 ⟨rc4Blank, rc4Blank⟩ := rfl

end Sys2Proof.Tests
end

section
/-! PROOF. The parameters of an instance (00_scope.md): which key and IV sizes it supports (R10), and that `VARIANT` and
`REKEY` are fixed for its life (R4, R11). -/

namespace Sys2Proof.Machine

/-- The size test without its case split on the step: 0 divides the distance from the base exactly where that is 0. -/
theorem sizeOk_iff_dvd (base step max n : Nat) :
    sizeOk base step max n = true ↔ base ≤ n ∧ n ≤ max ∧ step ∣ n - base := by
  simp only [sizeOk, Bool.and_eq_true, Bool.or_eq_true, decide_eq_true_eq, and_assoc]
  rcases Nat.eq_zero_or_pos step with rfl | hstep
  · simp only [Nat.zero_dvd, lt_irrefl, true_and, false_and, or_false]
    omega
  · simp only [hstep, hstep.ne', Nat.dvd_iff_mod_eq_zero, true_and, false_and, false_or]

/-- R10: the size test is membership in the arithmetic progression, for keys and IVs alike. -/
theorem sizeOk_iff_exists (base step max n : Nat) :
    sizeOk base step max n = true ↔ ∃ i, n = base + i * step ∧ base + i * step ≤ max := by
  rw [sizeOk_iff_dvd]
  constructor
  · rintro ⟨hbase, hmax, i, hi⟩
    have hn : n = base + i * step := by rw [Nat.mul_comm, ← hi]; omega
    exact ⟨i, hn, hn ▸ hmax⟩
  · rintro ⟨i, rfl, hmax⟩
    exact ⟨Nat.le_add_right _ _, hmax, by rw [Nat.add_sub_cancel_left]; exact Nat.dvd_mul_left _ _⟩

/-- Settles O19: both size tests are `sizeOk`. -/
theorem sizeTestIsTheArithmeticProgression : Obligations.SizeTestIsTheArithmeticProgression :=
  fun _ _ => ⟨sizeOk_iff_exists _ _ _ _, sizeOk_iff_exists _ _ _ _⟩

/-- The parameters of one instance are those of another: the same `VARIANT` (R4) and the same `REKEY` (R11). -/
def State.SameParameters (s t : State) : Prop := t.engine.variant = s.engine.variant ∧ t.rekey = s.rekey

theorem runHeader_sameParameters {hd : Header} {s t : State} (h : runHeader hd s = .next t) : s.SameParameters t := by
  rcases runHeader_next h with ⟨i, _, hexec⟩ | ⟨_, rfl⟩
  · obtain ⟨hvariant, hrekey, _⟩ := exec_next_frame hexec
    exact ⟨hvariant, hrekey⟩
  · exact ⟨rfl, rfl⟩

theorem setBuffer_sameParameters (s : State) (m : Memory) (space : Space) : s.SameParameters (s.setBuffer m space) := by
  cases space <;> exact ⟨rfl, rfl⟩

/-- `Reset` blanks the registers within the layout they have. -/
theorem resetEngine_sameParameters (s : State) : s.SameParameters (resetEngine s) :=
  ⟨Engine.atReset_variant s.engine, resetEngine_rekey s⟩

theorem hostEvent_sameParameters {ev : HostEvent} {s t : State} (h : hostEvent ev s = .next t) :
    s.SameParameters t := by
  cases ev with
  | fill space addr bytes => cases h; exact setBuffer_sameParameters s _ space
  | issue hd => cases h; exact ⟨rfl, rfl⟩
  | reset => cases h; exact resetEngine_sameParameters s
  | resetDuring hd =>
    obtain ⟨u, _, rfl⟩ := resetDuring_next h
    exact resetEngine_sameParameters s

/-- Settles O46, along the three things a step can do: execute the delivered header, idle, or let the host act. -/
theorem noStepChangesTheParameters : Obligations.NoStepChangesTheParameters := by
  intro s t h
  rcases step_next h with ⟨hd, _, hrun⟩ | ⟨_, _, rfl⟩ | ⟨ev, rest, _, _, hev⟩
  · obtain ⟨hvariant, hrekey⟩ := runHeader_sameParameters hrun
    exact ⟨hvariant, hrekey⟩
  · exact ⟨rfl, rfl⟩
  · obtain ⟨hvariant, hrekey⟩ := hostEvent_sameParameters hev
    exact ⟨hvariant, hrekey⟩

end Sys2Proof.Machine
end

section
/-! PROOF. The state of an instance (10_state.md): its values after reset (R48), who writes the key schedule (R49), and the
six invariants, which hold after reset and which every step keeps (R47). -/

namespace Sys2Proof.Machine

/-! ### After reset -/

@[simp] theorem Engine.blank_variant (v : VariantName) : (Engine.blank v).variant = v := by cases v <;> rfl

/-- Settles O10. -/
theorem resetStateHasTheSpecsValues : Obligations.ResetStateHasTheSpecsValues :=
  fun v _ => ⟨rfl, rfl, rfl, rfl, rfl, Engine.blank_variant v, rfl⟩

/-! ### Who writes the key schedule -/

/-- `t` has the key schedule of `s`: `K0`, `key_bits`, `iv_bits` and `regime` (R49). -/
structure State.KeepsKeySchedule (s t : State) : Prop where
  k0 : t.engine.SameKeySchedule s.engine
  keyBits : t.keyBits = s.keyBits
  ivBits : t.ivBits = s.ivBits
  regime : t.regime = s.regime

/-- Streaming advances `S` and leaves `K0` alone (R41). -/
theorem genTake_keepsKeySchedule (n : Nat) (s : State) : s.KeepsKeySchedule (genTake n s).1 :=
  ⟨genTake_restore n s, rfl, rfl, rfl⟩

/-- An IV step works on a copy of `K0`. -/
theorem ivStep_keepsKeySchedule (iv : List Byte) (s : State) : s.KeepsKeySchedule (ivStep iv s) :=
  ⟨Engine.mixIv_restore _ _ _ _ _, rfl, rfl, rfl⟩

theorem State.KeepsKeySchedule.trans {s t u : State} (h : s.KeepsKeySchedule t) (h' : t.KeepsKeySchedule u) :
    s.KeepsKeySchedule u :=
  ⟨h'.k0.trans h.k0, h'.keyBits.trans h.keyBits, h'.ivBits.trans h.ivBits, h'.regime.trans h.regime⟩

/-- The session fields, the response and `DOUT`, which a byte command writes beside `GEN.take`, are not of the key
schedule. -/
theorem byteResult_keepsKeySchedule (din : List Byte) (n : Nat) (s : State) :
    s.KeepsKeySchedule (byteResult din n s) := (genTake_keepsKeySchedule n s).trans ⟨rfl, rfl, rfl, rfl⟩

theorem blockResult_keepsKeySchedule (din : List Byte) (n : Nat) (s : State) :
    s.KeepsKeySchedule (blockResult din n s) := (genTake_keepsKeySchedule n s).trans ⟨rfl, rfl, rfl, rfl⟩

theorem keystreamResult_keepsKeySchedule (n : Nat) (s : State) : s.KeepsKeySchedule (keystreamResult n s) :=
  (genTake_keepsKeySchedule n s).trans ⟨rfl, rfl, rfl, rfl⟩

/-- Of the accepted commands KEYSETUP alone writes the key schedule. -/
theorem Accepted.keepsKeySchedule_or_keysetup {i : Instr} {s t : State} (h : Accepted i s t) :
    s.KeepsKeySchedule t ∨ (commandClass i = .keysetup ∧ t.response = some ⟨0, []⟩) := by
  cases h with
  | init => exact .inl ⟨rfl, rfl, rfl, rfl⟩
  | keysetup kb ib key => exact .inr ⟨rfl, rfl⟩
  | ivsetup iv => exact .inl ((ivStep_keepsKeySchedule iv s).trans ⟨rfl, rfl, rfl, rfl⟩)
  | keystreamBytes len => exact .inl (keystreamResult_keepsKeySchedule _ s)
  | bytes _ len _ din => exact .inl (byteResult_keepsKeySchedule din _ s)
  | blocks _ len _ din => exact .inl (blockResult_keepsKeySchedule din _ s)
  | packet _ len _ iv din =>
    exact .inl ((ivStep_keepsKeySchedule iv s).trans (byteResult_keepsKeySchedule din _ (ivStep iv s)))

/-- Settles O44: a rejection changes the response alone, and of the accepted commands only KEYSETUP is in question. -/
theorem onlyAcceptedKeysetupWritesTheKeySchedule : Obligations.OnlyAcceptedKeysetupWritesTheKeySchedule := by
  intro i s t hexec hnot
  have hkeeps : s.KeepsKeySchedule t := by
    rcases exec_next hexec with ⟨e, _, rfl⟩ | haccepted
    · exact ⟨rfl, rfl, rfl, rfl⟩
    · rcases haccepted.keepsKeySchedule_or_keysetup with h | ⟨hclass, hresponse⟩
      · exact h
      · exact absurd hnot (by simp [hclass, hresponse])
  exact ⟨hkeeps.k0, hkeeps.keyBits, hkeeps.ivBits, hkeeps.regime⟩

/-! ### The key and the epoch of a session

Items 1 and 6 of R47, by name, and what carries them from state to state. -/

/-- What item 1 of R47 says of a session with a key. -/
def State.HasKey (s : State) : Prop :=
  s.initDone = true ∧ s.engine.params.keySizeOk s.keyBits.toNat = true ∧
  s.engine.params.ivSizeOk s.ivBits.toNat = true ∧ s.regime = s.engine.regimeOf s.keyBits.toNat ∧
  ∃ key, key.length = ceil8 s.keyBits.toNat ∧ s.engine.HoldsKey key s.keyBits.toNat s.ivBits.toNat

/-- What item 6 of R47 says of a session in an epoch: some IV of the right length began it, and the generator stands at
`pos` of it. -/
def State.InEpoch (s : State) : Prop :=
  ∃ iv, iv.length = ceil8 s.ivBits.toNat ∧ s.AtPosition (s.epochStart iv) s.pos

theorem State.HasKey.initDone {s : State} (h : s.HasKey) : s.initDone = true := h.1

theorem Engine.SameKeySchedule.variant_eq {e e' : Engine} (h : e.SameKeySchedule e') : e.variant = e'.variant := by
  simpa using congrArg Engine.variant h

theorem State.HasKey.of_keepsKeySchedule {s t : State} (hkey : s.HasKey) (h : s.KeepsKeySchedule t)
    (hinit : t.initDone = true) : t.HasKey := by
  obtain ⟨_, hkb, hib, hregime, key, hlen, hholds⟩ := hkey
  have hvariant := h.k0.variant_eq
  have hparams := Engine.params_eq_of_variant_eq _ _ hvariant
  unfold State.HasKey
  rw [hparams, h.keyBits, h.ivBits, h.regime, Engine.regimeOf_eq_of_variant_eq _ _ _ hvariant]
  exact ⟨hinit, hkb, hib, hregime, key, hlen, Engine.holdsKey_of_restore_eq _ _ _ _ _ h.k0.symm hholds⟩

/-- An epoch is fixed by the key schedule and the IV (41_scheduler.md R158). -/
theorem State.KeepsKeySchedule.epochStart_eq {s t : State} (h : s.KeepsKeySchedule t) (iv : List Byte) :
    t.epochStart iv = s.epochStart iv := by
  have hk0 : t.engine.restore = s.engine.restore := h.k0
  simp only [State.epochStart, hk0, h.keyBits, h.ivBits, h.regime]

@[simp] theorem State.epochStart_variant (s : State) (iv : List Byte) :
    (s.epochStart iv).variant = s.engine.variant := by simp [State.epochStart]

/-- Position 0 of an epoch is its beginning with nothing left over (42_keystream.md R171). -/
theorem GeneratorAt.start (rg : Regime) (e : Engine) : GeneratorAt rg e e [] 0 := by
  have hzero : ceilDiv 0 e.chunkLen = 0 := ceilDiv_whole e.chunkLen 0 e.chunkLen_pos
  exact ⟨by rw [hzero]; rfl, by simp⟩

/-- At the end of a chunk nothing is left over. -/
theorem GeneratorAt.res_eq_nil {rg : Regime} {e0 e : Engine} {res : List Byte} {p : Nat}
    (h : GeneratorAt rg e0 e res p) (hp : p % e0.chunkLen = 0) : res = [] := h.2.trans (if_pos hp)

/-- What is left over is the rest of the chunk the position stands in. -/
theorem GeneratorAt.res_length {rg : Regime} {e0 e : Engine} {res : List Byte} {p : Nat}
    (h : GeneratorAt rg e0 e res p) : res.length = (e0.chunkLen - p % e0.chunkLen) % e0.chunkLen := by
  have hlt := Nat.mod_lt p e0.chunkLen_pos
  by_cases hp : p % e0.chunkLen = 0
  · simp [h.res_eq_nil hp, hp]
  · rw [h.2, if_neg hp, List.length_drop, Engine.chunk_length,
      Nat.mod_eq_of_lt (a := e0.chunkLen - p % e0.chunkLen) (by omega)]

/-- An IV step begins an epoch. -/
theorem ivStep_inEpoch {iv : List Byte} {s : State} (hiv : readIv s = .next iv) : (ivStep iv s).InEpoch := by
  obtain ⟨_, hread⟩ := readIv_next.1 hiv
  refine ⟨iv, Memory.readBytes_length _ _ _ _ hread, ?_⟩
  rw [(ivStep_keepsKeySchedule iv s).epochStart_eq]
  exact GeneratorAt.start s.regime (s.epochStart iv)

/-- `GEN.take` moves on within the epoch. -/
theorem genTake_inEpoch (n : Nat) {s : State} (h : s.InEpoch) : (genTake n s).1.InEpoch := by
  obtain ⟨iv, hlen, hpos⟩ := h
  refine ⟨iv, hlen, ?_⟩
  rw [(genTake_keepsKeySchedule n s).epochStart_eq]
  exact (genTake_spec n s _ _ hpos).2

theorem State.InEpoch.residue {s : State} (h : s.InEpoch) :
    s.res.length = (s.engine.chunkLen - s.pos % s.engine.chunkLen) % s.engine.chunkLen := by
  obtain ⟨iv, _, hpos⟩ := h
  rw [← Engine.chunkLen_eq_of_variant_eq _ _ (s.epochStart_variant iv)]
  exact hpos.res_length

/-- At a block boundary nothing is left over, since a block is a whole number of chunks (40_engine.md R136). -/
theorem State.InEpoch.res_eq_nil {s : State} (h : s.InEpoch) (hblock : s.pos % s.engine.params.blockLen = 0) :
    s.res = [] := by
  obtain ⟨iv, _, hpos⟩ := h
  have hchunk : s.engine.chunkLen ∣ s.pos :=
    (Nat.dvd_of_mod_eq_zero s.engine.blockLen_law.2).trans (Nat.dvd_of_mod_eq_zero hblock)
  refine hpos.res_eq_nil ?_
  rw [Engine.chunkLen_eq_of_variant_eq _ _ (s.epochStart_variant iv)]
  exact Nat.mod_eq_zero_of_dvd hchunk

/-! ### The invariants, in two shapes of state -/

/-- With the stream at its start, items 1 and 6 are all that is left to know: after reset, KEYSETUP and IVSETUP. -/
theorem State.Inv.of_start {s : State} (hmode : s.mode = .block) (hres : s.res = []) (hpos : s.pos = 0)
    (hkey : s.phase ≠ .uninitialized → s.HasKey) (hepoch : s.phase = .ivReady ∨ s.phase = .streaming → s.InEpoch) :
    s.Inv where
  keyed := hkey
  before_epoch _ := ⟨hmode, hres, hpos⟩
  iv_ready _ := ⟨hmode, hres, hpos⟩
  block_mode _ := ⟨hres, by rw [hpos, Nat.zero_mod]⟩
  residue := by simpa [hres, hpos] using s.engine.chunkLen_pos
  position := hepoch

/-- While streaming, the residue follows from the position in the epoch. -/
theorem State.Inv.of_streaming {s : State} (hphase : s.phase = .streaming) (hkey : s.HasKey) (hepoch : s.InEpoch)
    (hblock : s.mode = .block → s.pos % s.engine.params.blockLen = 0) : s.Inv where
  keyed _ := hkey
  before_epoch h := by simp [hphase] at h
  iv_ready h := by simp [hphase] at h
  block_mode h := ⟨hepoch.res_eq_nil (hblock h), hblock h⟩
  residue := ⟨hepoch.residue ▸ Nat.mod_lt _ s.engine.chunkLen_pos, hepoch.residue⟩
  position _ := hepoch

/-- Settles O47: the stream is at its start and there is no key. -/
theorem invariantsHoldAfterReset : Obligations.InvariantsHoldAfterReset :=
  fun _ _ => .of_start rfl rfl rfl (fun h => absurd rfl h) (fun h => by simp [State.resetOf] at h)

theorem resetEngine_inv (s : State) : (resetEngine s).Inv :=
  .of_start rfl rfl rfl (fun h => absurd rfl h) (fun h => by simp at h)

/-- `t` is `s` but for the buffers, the command interface and the host's script, none of which R47 speaks of. -/
def State.SameEngineState (s t : State) : Prop :=
  t = { s with
    keybuf := t.keybuf, ivbuf := t.ivbuf, din := t.din, dout := t.dout, header := t.header, response := t.response,
    host := t.host, freeCount := t.freeCount }

theorem State.Inv.of_sameEngineState {s t : State} (hs : s.Inv) (h : s.SameEngineState t) : t.Inv := by
  rw [h]
  exact ⟨hs.keyed, hs.before_epoch, hs.iv_ready, hs.block_mode, hs.residue, hs.position⟩

theorem setBuffer_sameEngineState (s : State) (m : Memory) (space : Space) :
    s.SameEngineState (s.setBuffer m space) := by cases space <;> rfl

/-! ### The invariants after each accepted command -/

theorem streamLegal_iff {s : State} : streamLegal s = true ↔ s.phase = .ivReady ∨ s.phase = .streaming := by
  simp [streamLegal]

theorem ivLegal_iff {s : State} : ivLegal s = true ↔ s.phase ≠ .uninitialized := by simp [ivLegal]

theorem blockLegal_iff {s : State} :
    blockLegal s = true ↔ (s.phase = .ivReady ∨ s.phase = .streaming) ∧ s.mode = .block := by
  cases hmode : s.mode <;> simp [blockLegal, streamLegal, hmode]

theorem State.Inv.hasKey_of_streamLegal {s : State} (hs : s.Inv) (h : streamLegal s = true) : s.HasKey :=
  hs.keyed (by rcases streamLegal_iff.1 h with h | h <;> simp [h])

/-- An IV step needs a key and keeps it. -/
theorem State.Inv.hasKey_ivStep {s : State} (hs : s.Inv) (hinit : s.initDone = true) (h : ivLegal s = true)
    (iv : List Byte) : (ivStep iv s).HasKey :=
  State.HasKey.of_keepsKeySchedule (hs.keyed (ivLegal_iff.1 h)) (ivStep_keepsKeySchedule iv s) hinit

/-- INIT serves item 1 and touches none of the others. -/
theorem setInitDone_inv {s : State} (hs : s.Inv) : s.setInitDone.Inv where
  keyed h := ⟨rfl, (hs.keyed h).2⟩
  before_epoch := hs.before_epoch
  iv_ready := hs.iv_ready
  block_mode := hs.block_mode
  residue := hs.residue
  position := hs.position

/-- `K0` is the schedule of the key KEYSETUP has read, of supported lengths. -/
theorem keySchedule_hasKey {key : List Byte} {kb ib : BitVec 14} {s : State} (hinit : s.initDone = true)
    (hlengths : lengthsOk kb ib s = true) (hread : readKey kb s = .next key) : (keySchedule key kb ib s).HasKey := by
  obtain ⟨hkb, hib⟩ := Bool.and_eq_true_iff.1 hlengths
  obtain ⟨_, hbytes⟩ := readKey_next.1 hread
  refine ⟨hinit, by simpa using hkb, by simpa using hib, ?_, key, Memory.readBytes_length _ _ _ _ hbytes, ?_⟩
  · exact Engine.regimeOf_eq_of_variant_eq _ _ _ (by simp)
  · exact (Engine.restore_save_loadKey _ _ _ _).trans (Engine.loadKey_save_loadKey _ _ _ _).symm

theorem byteResult_inv (din : List Byte) (n : Nat) {s : State} (hkey : s.HasKey) (hepoch : s.InEpoch) :
    (byteResult din n s).Inv :=
  .of_streaming rfl (hkey.of_keepsKeySchedule (byteResult_keepsKeySchedule din n s) hkey.initDone)
    (genTake_inEpoch n hepoch) (fun h => by cases h)

theorem keystreamResult_inv (n : Nat) {s : State} (hkey : s.HasKey) (hepoch : s.InEpoch) :
    (keystreamResult n s).Inv :=
  .of_streaming rfl (hkey.of_keepsKeySchedule (keystreamResult_keepsKeySchedule n s) hkey.initDone)
    (genTake_inEpoch n hepoch) (fun h => by cases h)

/-- A whole number of blocks leads from block boundary to block boundary. -/
theorem blockResult_inv (din : List Byte) (n : Nat) {s : State} (hkey : s.HasKey) (hepoch : s.InEpoch)
    (hpos : s.pos % s.engine.params.blockLen = 0) (hn : n % s.engine.params.blockLen = 0) :
    (blockResult din n s).Inv := by
  have hsum : (s.pos + n) % s.engine.params.blockLen = 0 :=
    Nat.mod_eq_zero_of_dvd (Nat.dvd_add (Nat.dvd_of_mod_eq_zero hpos) (Nat.dvd_of_mod_eq_zero hn))
  refine .of_streaming rfl (hkey.of_keepsKeySchedule (blockResult_keepsKeySchedule din n s) hkey.initDone)
    (genTake_inEpoch n hepoch) fun _ => ?_
  simpa [blockResult, combine_eq] using hsum

theorem Accepted.inv {i : Instr} {s t : State} (h : Accepted i s t) (hs : s.Inv) : t.Inv := by
  cases h with
  | init => exact (setInitDone_inv hs).of_sameEngineState rfl
  | keysetup kb ib key _ hinit _ hlengths hread =>
    exact .of_start rfl rfl rfl (fun _ => keySchedule_hasKey hinit hlengths hread) (fun h => by simp at h)
  | ivsetup iv _ hinit hlegal hread =>
    exact .of_start rfl rfl rfl (fun _ => hs.hasKey_ivStep hinit hlegal iv) (fun _ => ivStep_inEpoch hread)
  | keystreamBytes len _ _ hlegal =>
    exact keystreamResult_inv _ (hs.hasKey_of_streamLegal hlegal) (hs.position (streamLegal_iff.1 hlegal))
  | bytes _ len _ din _ _ hlegal _ =>
    exact byteResult_inv din _ (hs.hasKey_of_streamLegal hlegal) (hs.position (streamLegal_iff.1 hlegal))
  | blocks _ len _ din _ _ hlegal hlen _ =>
    obtain ⟨hphase, hmode⟩ := blockLegal_iff.1 hlegal
    obtain ⟨_, hpos⟩ := hs.block_mode hmode
    exact blockResult_inv din _ (hs.hasKey_of_streamLegal (streamLegal_iff.2 hphase)) (hs.position hphase) hpos
      (of_decide_eq_true hlen)
  | packet _ len _ iv din _ hinit hlegal hiv _ =>
    exact byteResult_inv din _ (hs.hasKey_ivStep hinit hlegal iv) (ivStep_inEpoch hiv)

/-! ### The invariants after every step -/

theorem runHeader_inv {hd : Header} {s t : State} (h : runHeader hd s = .next t) (hs : s.Inv) : t.Inv := by
  rcases runHeader_next h with ⟨i, _, hexec⟩ | ⟨_, rfl⟩
  · rcases exec_next hexec with ⟨e, _, rfl⟩ | haccepted
    · exact hs.of_sameEngineState rfl
    · exact haccepted.inv hs
  · exact hs.of_sameEngineState rfl

theorem hostEvent_inv {ev : HostEvent} {s t : State} (h : hostEvent ev s = .next t) (hs : s.Inv) : t.Inv := by
  cases ev with
  | fill space addr bytes => cases h; exact hs.of_sameEngineState (setBuffer_sameEngineState s _ space)
  | issue hd => cases h; exact hs.of_sameEngineState rfl
  | reset => cases h; exact resetEngine_inv s
  | resetDuring hd =>
    obtain ⟨u, _, rfl⟩ := resetDuring_next h
    exact (resetEngine_inv s).of_sameEngineState rfl

/-- Settles O48, along the three things a step can do: execute the delivered header, idle, or let the host act. Taking a
header or an act of the script away touches none of the invariants. -/
theorem stepKeepsTheInvariants : Obligations.StepKeepsTheInvariants := by
  intro s t hs h
  rcases step_next h with ⟨hd, _, hrun⟩ | ⟨_, _, rfl⟩ | ⟨ev, rest, _, _, hev⟩
  · exact runHeader_inv hrun (hs.of_sameEngineState rfl)
  · exact hs
  · exact hostEvent_inv hev (hs.of_sameEngineState rfl)

end Sys2Proof.Machine
end

section
/-! PROOF. Until a key is set up, `key_bits`, `iv_bits`, `regime`, `S` and `K0` are not read, but for the layout of `S` and
`K0`, which is the parameter `VARIANT` (10_state.md R50, 70_reset_and_hazards.md R362). -/

namespace Sys2Proof.Machine

/-- `s` with the five unspecified values taken from `u`. -/
def State.withUnspecified (s u : State) : State :=
  { s with keyBits := u.keyBits, ivBits := u.ivBits, regime := u.regime, engine := u.engine }

theorem State.agreeButUnspecified_iff {s s' : State} :
    s.AgreeButUnspecified s' ↔ s.engine.variant = s'.engine.variant ∧ s' = s.withUnspecified s' := Iff.rfl

theorem State.agreeButUnspecified_withUnspecified {s u : State} (h : s.engine.variant = u.engine.variant) :
    s.AgreeButUnspecified (s.withUnspecified u) := ⟨h, rfl⟩

theorem State.agreeButUnspecified_refl (s : State) : s.AgreeButUnspecified s := ⟨rfl, rfl⟩

/-- The answer `o` agrees with `t`: it is a state that agrees with `t`, and is `t` itself once `t` has a key. -/
def AnswerAgrees (t : State) (o : Result) : Prop :=
  ∃ t', o = .next t' ∧ t.AgreeButUnspecified t' ∧ (t.phase ≠ .uninitialized → t' = t)

theorem answerAgrees_self (t : State) : AnswerAgrees t (.next t) := ⟨t, rfl, t.agreeButUnspecified_refl, fun _ => rfl⟩

/-- While there is no key, agreeing is enough. -/
theorem answerAgrees_of_uninitialized {t u : State} (hphase : t.phase = .uninitialized)
    (hvariant : t.engine.variant = u.engine.variant) : AnswerAgrees t (.next (t.withUnspecified u)) :=
  ⟨_, rfl, t.agreeButUnspecified_withUnspecified hvariant, fun h => absurd hphase h⟩

theorem sequenced_before_init {legal : State → Bool} {body : State → Result} {s : State} (h : s.initDone = false) :
    sequenced legal body s = reject .sequenceError s := by simp [sequenced, h]

theorem requiring_fails {ok : State → Bool} {e : Status} {body : State → Result} {s : State} (h : ok s = false) :
    requiring ok e body s = reject e s := by simp [requiring, h]

theorem sequenced_illegal {legal : State → Bool} {body : State → Result} {s : State} (h : legal s = false) :
    sequenced legal body s = reject .sequenceError s := by simp [sequenced, h]

/-- Without a key every command but INIT and KEYSETUP is a sequence error (60_exceptions.md R331). -/
theorem exec_of_uninitialized {i : Instr} {s : State} (hphase : s.phase = .uninitialized)
    (hinit : commandClass i ≠ .init) (hkeysetup : commandClass i ≠ .keysetup) :
    exec i s = reject .sequenceError s := by
  have hiv : ivLegal s = false := by simp [ivLegal, hphase]
  have hstream : streamLegal s = false := by simp [streamLegal, hphase]
  have hblock : blockLegal s = false := by simp [blockLegal, hstream]
  cases i with
  | init => exact absurd rfl hinit
  | keysetup kb ib => exact absurd rfl hkeysetup
  | ivsetup => simp only [exec, execIvsetup, sequenced_illegal hiv]
  | encryptBytes len => simp only [exec, execEncryptBytes, byteCommand, sequenced_illegal hstream]
  | decryptBytes len => simp only [exec, execDecryptBytes, byteCommand, sequenced_illegal hstream]
  | keystreamBytes len => simp only [exec, execKeystreamBytes, sequenced_illegal hstream]
  | encryptBlocks len => simp only [exec, execEncryptBlocks, blockCommand, sequenced_illegal hblock]
  | decryptBlocks len => simp only [exec, execDecryptBlocks, blockCommand, sequenced_illegal hblock]
  | encryptPacket len => simp only [exec, execEncryptPacket, packetCommand, sequenced_illegal hiv]
  | decryptPacket len => simp only [exec, execDecryptPacket, packetCommand, sequenced_illegal hiv]

section KeysetupReads

variable {s u : State} {kb ib : BitVec 14}

/-- The length check reads `VARIANT` only. -/
theorem lengthsOk_withUnspecified (h : s.engine.variant = u.engine.variant) :
    lengthsOk kb ib (s.withUnspecified u) = lengthsOk kb ib s := by
  have hparams : u.engine.params = s.engine.params := (Engine.params_eq_of_variant_eq _ _ h).symm
  simp [lengthsOk, State.withUnspecified, hparams]

/-- The key is read from `KEYBUF`, whose size is a matter of `VARIANT`. -/
theorem readKey_withUnspecified (h : s.engine.variant = u.engine.variant) :
    readKey kb (s.withUnspecified u) = readKey kb s := by
  have hparams : u.engine.params = s.engine.params := (Engine.params_eq_of_variant_eq _ _ h).symm
  simp [readKey, memRead, State.bufferSize, State.buffer, State.withUnspecified, hparams]

/-- KEYSETUP writes all five (41_scheduler.md R154). -/
theorem keySchedule_withUnspecified (key : List Byte) (h : s.engine.variant = u.engine.variant) :
    keySchedule key kb ib (s.withUnspecified u) = keySchedule key kb ib s := by
  have hregime : u.engine.regimeOf kb.toNat = s.engine.regimeOf kb.toNat :=
    (Engine.regimeOf_eq_of_variant_eq _ _ _ h).symm
  have hengine := Engine.save_loadKey_eq_of_variant_eq key kb.toNat ib.toNat _ _ h.symm
  simp [keySchedule, State.withUnspecified, hregime, hengine]

/-- So both KEYSETUPs make the same checks, and where they are accepted they leave one state. -/
theorem execKeysetup_answerAgrees {t : State} (hphase : s.phase = .uninitialized)
    (hvariant : s.engine.variant = u.engine.variant) (h : execKeysetup kb ib s = .next t) :
    AnswerAgrees t (execKeysetup kb ib (s.withUnspecified u)) := by
  have hlegal : keysetupLegal s = true := by simp [keysetupLegal, hphase]
  have hinit' : (s.withUnspecified u).initDone = s.initDone := rfl
  have hlegal' : keysetupLegal (s.withUnspecified u) = true := hlegal
  rcases execKeysetup_next h with ⟨rfl, hcheck⟩ | ⟨rfl, hinit, _, hlengths⟩ | ⟨hinit, _, hlengths, key, hread, rfl⟩
  · have hinit : s.initDone = false := by simpa [hlegal] using hcheck
    rw [execKeysetup, sequenced_before_init (hinit'.trans hinit)]
    exact answerAgrees_of_uninitialized hphase hvariant
  · have hlengths' := (lengthsOk_withUnspecified hvariant).trans hlengths
    rw [execKeysetup, sequenced_passes (hinit'.trans hinit) hlegal', requiring_fails hlengths']
    exact answerAgrees_of_uninitialized hphase hvariant
  · have hlengths' := (lengthsOk_withUnspecified hvariant).trans hlengths
    have hread' := (readKey_withUnspecified hvariant).trans hread
    rw [execKeysetup, sequenced_passes (hinit'.trans hinit) hlegal', requiring_passes hlengths', hread', thenDo,
      keySchedule_withUnspecified key hvariant]
    exact answerAgrees_self _

end KeysetupReads

theorem exec_answerAgrees {i : Instr} {s u t : State} (hphase : s.phase = .uninitialized)
    (hvariant : s.engine.variant = u.engine.variant) (h : exec i s = .next t) :
    AnswerAgrees t (exec i (s.withUnspecified u)) := by
  cases i with
  | init =>
    cases h
    exact answerAgrees_of_uninitialized hphase hvariant
  | keysetup kb ib => exact execKeysetup_answerAgrees hphase hvariant h
  | _ =>
    rw [exec_of_uninitialized hphase (by simp [commandClass]) (by simp [commandClass])] at h
    cases h
    rw [exec_of_uninitialized (s := s.withUnspecified u) hphase (by simp [commandClass]) (by simp [commandClass])]
    exact answerAgrees_of_uninitialized hphase hvariant

theorem runHeader_answerAgrees {hd : Header} {s u t : State} (hphase : s.phase = .uninitialized)
    (hvariant : s.engine.variant = u.engine.variant) (h : runHeader hd s = .next t) :
    AnswerAgrees t (runHeader hd (s.withUnspecified u)) := by
  unfold runHeader
  rcases runHeader_next h with ⟨i, hdecode, hexec⟩ | ⟨⟨e, hdecode⟩, rfl⟩
  · rw [hdecode]
    exact exec_answerAgrees hphase hvariant hexec
  · rw [hdecode]
    exact answerAgrees_of_uninitialized hphase hvariant

/-- `Reset` leaves nothing of the registers but their layout. -/
theorem Engine.atReset_eq_blank (e : Engine) : e.atReset = Engine.blank e.variant := by cases e <;> rfl

/-- `Reset` writes all five. -/
theorem resetEngine_withUnspecified {s u : State} (h : s.engine.variant = u.engine.variant) :
    resetEngine (s.withUnspecified u) = resetEngine s := by
  simp [resetEngine, State.withUnspecified, Engine.atReset_eq_blank, h]

theorem responseData_eq_of_agree {s t : State} (h : s.AgreeButUnspecified t) : responseData t = responseData s := by
  rw [h.2]; rfl

/-- A command that `Reset` strikes would have given either state the same response, and `Reset` does the rest. -/
theorem resetDuring_answerAgrees {hd : Header} {s u t : State} (hphase : s.phase = .uninitialized)
    (hvariant : s.engine.variant = u.engine.variant) (h : resetDuring hd s = .next t) :
    AnswerAgrees t (resetDuring hd (s.withUnspecified u)) := by
  obtain ⟨v, hrun, rfl⟩ := resetDuring_next h
  obtain ⟨v', hrun', hagree, _⟩ := runHeader_answerAgrees hphase hvariant hrun
  rw [resetDuring, hrun', thenDo, resetEngine_withUnspecified hvariant, responseData_eq_of_agree hagree]
  exact answerAgrees_self _

theorem hostEvent_answerAgrees {ev : HostEvent} {s u t : State} (hphase : s.phase = .uninitialized)
    (hvariant : s.engine.variant = u.engine.variant) (h : hostEvent ev s = .next t) :
    AnswerAgrees t (hostEvent ev (s.withUnspecified u)) := by
  cases ev with
  | fill space addr bytes =>
    cases h
    cases space <;> exact answerAgrees_of_uninitialized hphase hvariant
  | issue hd => cases h; exact answerAgrees_of_uninitialized hphase hvariant
  | reset =>
    cases h
    rw [hostEvent, resetEngine_withUnspecified hvariant]
    exact answerAgrees_self _
  | resetDuring hd => exact resetDuring_answerAgrees hphase hvariant h

theorem step_of_header {s : State} {hd : Header} (h : s.header = some hd) :
    step s = runHeader hd { s with header := none } := by rw [step, h]

theorem step_of_idle {s : State} (hheader : s.header = none) (hhost : s.host = []) : step s = .next s := by
  rw [step, hheader, hhost]

theorem step_of_host {s : State} {ev : HostEvent} {rest : List HostEvent} (hheader : s.header = none)
    (hhost : s.host = ev :: rest) : step s = hostEvent ev { s with host := rest } := by
  simp only [step, hheader, hhost]

theorem step_answerAgrees {s u t : State} (hphase : s.phase = .uninitialized)
    (hvariant : s.engine.variant = u.engine.variant) (h : step s = .next t) :
    AnswerAgrees t (step (s.withUnspecified u)) := by
  have hheader : (s.withUnspecified u).header = s.header := rfl
  have hhost : (s.withUnspecified u).host = s.host := rfl
  rcases step_next h with ⟨hd, hs, hrun⟩ | ⟨hs, hidle, rfl⟩ | ⟨ev, rest, hs, hact, hev⟩
  · rw [step_of_header (hheader.trans hs)]
    exact runHeader_answerAgrees (s := { s with header := none }) hphase hvariant hrun
  · rw [step_of_idle (hheader.trans hs) (hhost.trans hidle)]
    exact answerAgrees_of_uninitialized hphase hvariant
  · rw [step_of_host (hheader.trans hs) (hhost.trans hact)]
    exact hostEvent_answerAgrees (s := { s with host := rest }) hphase hvariant hev

/-- Settles O49: the second state is the first with the five values of the second. -/
theorem unspecifiedResetValuesAreNeverRead : Obligations.UnspecifiedResetValuesAreNeverRead := by
  intro s s' t hphase hagree h
  obtain ⟨hvariant, heq⟩ := State.agreeButUnspecified_iff.1 hagree
  rw [heq]
  exact step_answerAgrees hphase hvariant h

end Sys2Proof.Machine
end

section
/-! PROOF. The operand buffers (20_memory.md): what `MemRead` and `MemWrite` do (R75, R76), who writes which buffer (R70),
and the canonical form of all four (log entry 5). -/

namespace Sys2Proof.Machine

/-! ### `MemRead` and `MemWrite` -/

/-- Every index after a write: the bytes written where they were written, the old contents elsewhere. -/
theorem Memory.read_write (m : Memory) (a k : Nat) (bs : List Byte) :
    Memory.read (Memory.write m a bs) k = if a ≤ k ∧ k < a + bs.length then bs[k - a]? else Memory.read m k := by
  split
  · next hin =>
    obtain ⟨i, rfl⟩ := Nat.exists_eq_add_of_le hin.1
    rw [Memory.read_write_inside m a i bs (by omega), Nat.add_sub_cancel_left]
  · next hout => exact Memory.read_write_outside m a k bs (by omega)

/-- Settles O12. -/
theorem memWriteSetsExactlyItsBytes : Obligations.MemWriteSetsExactlyItsBytes :=
  fun s a v => ⟨fun k => Memory.read_write s.dout a k v, rfl⟩

section MemRead

variable {s : State} {len : Nat} {space : Space} {a n : Nat}

theorem memRead_of_written (hfits : a + n ≤ s.bufferSize len space)
    (hwritten : ∀ k, k < n → (Memory.read (s.buffer space) (a + k)).isSome = true) :
    ∃ bs, memRead s len space a n = .next bs := by
  obtain ⟨bs, hbs⟩ := Option.isSome_iff_exists.1 ((Memory.readBytes_isSome _ a n).2 hwritten)
  exact ⟨bs, memRead_next.2 ⟨hfits, hbs⟩⟩

/-- One byte nobody has written is enough for a refusal (R89). -/
theorem memRead_of_unwritten {k : Nat} (hfits : a + n ≤ s.bufferSize len space) (hk : k < n)
    (hunwritten : Memory.read (s.buffer space) (a + k) = none) :
    memRead s len space a n = .refused (.bufferNotWritten space) := by
  have hnone : Memory.readBytes (s.buffer space) a n = none := by
    rw [← Option.not_isSome_iff_eq_none, Memory.readBytes_isSome]
    intro h
    simpa [hunwritten] using h k hk
  simp [memRead, hfits, hnone]

theorem memRead_outside (h : s.bufferSize len space < a + n) :
    memRead s len space a n = .fault (.outsideBuffer space) := by simp [memRead, h]

end MemRead

/-- Settles O13. -/
theorem memReadReturnsTheBytesOfTheBuffer : Obligations.MemReadReturnsTheBytesOfTheBuffer := by
  intro s len space a n hfits hwritten
  obtain ⟨bs, hread⟩ := memRead_of_written hfits hwritten
  obtain ⟨_, hbytes⟩ := memRead_next.1 hread
  exact ⟨bs, hread, Memory.readBytes_length _ _ _ _ hbytes,
    fun k hk => (Memory.readBytes_get _ _ _ k _ hbytes hk).symm⟩

/-! ### What a command writes -/

/-- An accepted command leaves `DOUT` alone, or it is a streaming command and writes there from index 0 on. -/
theorem Accepted.dout_eq_or_write {i : Instr} {s t : State} (h : Accepted i s t) :
    t.dout = s.dout ∨
    ((commandClass i = .bytes ∨ commandClass i = .blocks ∨ commandClass i = .packet) ∧
      ∃ bs, t.dout = Memory.write s.dout 0 bs) := by
  cases h with
  | init => exact .inl rfl
  | keysetup kb ib key => exact .inl rfl
  | ivsetup iv => exact .inl rfl
  | keystreamBytes len => exact .inr ⟨.inl rfl, _, rfl⟩
  | bytes _ len hi din => exact .inr ⟨.inl (by rcases hi with rfl | rfl <;> rfl), _, rfl⟩
  | blocks _ len hi din => exact .inr ⟨.inr (.inl (by rcases hi with rfl | rfl <;> rfl)), _, rfl⟩
  | packet _ len hi iv din => exact .inr ⟨.inr (.inr (by rcases hi with rfl | rfl <;> rfl)), _, rfl⟩

theorem exec_dout_eq_or_write {i : Instr} {s t : State} (h : exec i s = .next t) :
    t.dout = s.dout ∨
    ((commandClass i = .bytes ∨ commandClass i = .blocks ∨ commandClass i = .packet) ∧
      ∃ bs, t.dout = Memory.write s.dout 0 bs) := by
  rcases exec_next h with ⟨e, _, rfl⟩ | haccepted
  · exact .inl rfl
  · exact haccepted.dout_eq_or_write

/-- Settles O15: of `DOUT` only the streaming commands are in question, and a setup command is none of them. -/
theorem commandsWriteNoInputBuffer : Obligations.CommandsWriteNoInputBuffer := by
  intro i s t h
  obtain ⟨_, _, hkey, hiv, hdin, _⟩ := exec_next_frame h
  refine ⟨hkey, hiv, hdin, fun hsetup => ?_⟩
  rcases exec_dout_eq_or_write h with hdout | ⟨hstreaming, _⟩
  · exact hdout
  · rcases hsetup with hclass | hclass | hclass <;> simp [hclass] at hstreaming

/-! ### The canonical form -/

/-- Settles O17: nothing is listed in any buffer. -/
theorem resetBuffersAreCanonical : Obligations.ResetBuffersAreCanonical := fun _ _ => ⟨rfl, rfl, rfl, rfl⟩

theorem runHeader_buffersCanonical {hd : Header} {s t : State} (h : runHeader hd s = .next t)
    (hs : s.BuffersCanonical) : t.BuffersCanonical := by
  rcases runHeader_next h with ⟨i, _, hexec⟩ | ⟨_, rfl⟩
  · obtain ⟨hkey, hiv, hdin, hdout⟩ := hs
    obtain ⟨_, _, hkeyEq, hivEq, hdinEq, _⟩ := exec_next_frame hexec
    refine ⟨hkeyEq ▸ hkey, hivEq ▸ hiv, hdinEq ▸ hdin, ?_⟩
    rcases exec_dout_eq_or_write hexec with heq | ⟨_, bs, heq⟩
    · rw [heq]; exact hdout
    · rw [heq]; exact Memory.wf_write s.dout 0 bs hdout
  · exact hs

theorem setBuffer_buffersCanonical {s : State} {m : Memory} (space : Space) (hs : s.BuffersCanonical)
    (hm : Memory.wf m = true) : (s.setBuffer m space).BuffersCanonical := by
  obtain ⟨hkey, hiv, hdin, hdout⟩ := hs
  cases space with
  | keybuf => exact ⟨hm, hiv, hdin, hdout⟩
  | ivbuf => exact ⟨hkey, hm, hdin, hdout⟩
  | din => exact ⟨hkey, hiv, hm, hdout⟩
  | dout => exact ⟨hkey, hiv, hdin, hm⟩

theorem State.BuffersCanonical.buffer_wf {s : State} (hs : s.BuffersCanonical) (space : Space) :
    Memory.wf (s.buffer space) = true := by
  obtain ⟨hkey, hiv, hdin, hdout⟩ := hs
  cases space with
  | keybuf => exact hkey
  | ivbuf => exact hiv
  | din => exact hdin
  | dout => exact hdout

theorem hostEvent_buffersCanonical {ev : HostEvent} {s t : State} (h : hostEvent ev s = .next t)
    (hs : s.BuffersCanonical) : t.BuffersCanonical := by
  cases ev with
  | fill space addr bytes =>
    cases h
    exact setBuffer_buffersCanonical space hs (Memory.wf_write _ addr bytes (hs.buffer_wf space))
  | issue hd => cases h; exact hs
  | reset => cases h; exact hs
  | resetDuring hd =>
    obtain ⟨u, _, rfl⟩ := resetDuring_next h
    obtain ⟨hkey, hiv, hdin, hdout⟩ := hs
    exact ⟨hkey, hiv, hdin, partlyWritten_wf _ _ _ _ hdout⟩

/-- Settles O16, along the three things a step can do: execute the delivered header, idle, or let the host act. -/
theorem stepKeepsBuffersCanonical : Obligations.StepKeepsBuffersCanonical := by
  intro s t hs h
  rcases step_next h with ⟨hd, _, hrun⟩ | ⟨_, _, rfl⟩ | ⟨ev, rest, _, _, hev⟩
  · exact runHeader_buffersCanonical hrun hs
  · exact hs
  · exact hostEvent_buffersCanonical hev hs

end Sys2Proof.Machine
end

section
/-! PROOF. From the issue of a command to its answer (20_memory.md): a command is executed in the step after its issue (R84);
with its operands in place it completes, and without them it stops by name (R75, R89; log entries 5, 6 and 19). -/

namespace Sys2Proof.Machine

/-! ### Issue and execution -/

theorem runHeader_of_decode {hd : Header} {i : Instr} (h : decode hd = .ok i) (s : State) :
    runHeader hd s = exec i s := by rw [runHeader, h]

/-- Settles O8: the first step is the host's act, the second the engine's. -/
theorem issuedCommandIsExecutedNext : Obligations.IssuedCommandIsExecutedNext := by
  intro s hd i rest hheader hhost hdecode
  refine ⟨_, step_of_host hheader hhost, by rw [hheader], ?_⟩
  rw [step_of_header rfl, runHeader_of_decode hdecode]

/-! ### The operands -/

theorem readKey_of_unwritten {s : State} {kb : BitVec 14} {k : Nat} (hsize : s.engine.params.keySizeOk kb.toNat = true)
    (hk : k < ceil8 kb.toNat) (h : Memory.read s.keybuf k = none) :
    readKey kb s = .refused (.bufferNotWritten .keybuf) :=
  memRead_of_unwritten (by simpa [State.bufferSize] using Params.keybuf_fits _ _ hsize) hk
    (by simpa [State.buffer] using h)

theorem readIv_of_unwritten {s : State} {k : Nat} (hfits : ceil8 s.ivBits.toNat ≤ s.engine.params.ivbufBytes)
    (hk : k < ceil8 s.ivBits.toNat) (h : Memory.read s.ivbuf k = none) :
    readIv s = .refused (.bufferNotWritten .ivbuf) :=
  memRead_of_unwritten (by simpa [State.bufferSize] using hfits) hk (by simpa [State.buffer] using h)

theorem readIv_outside {s : State} (h : s.engine.params.ivbufBytes < ceil8 s.ivBits.toNat) :
    readIv s = .fault (.outsideBuffer .ivbuf) := memRead_outside (by simpa [State.bufferSize] using h)

theorem readDin_of_unwritten {s : State} {len : BitVec 28} {k : Nat} (hk : k < len.toNat)
    (h : Memory.read s.din k = none) : readDin len s = .refused (.bufferNotWritten .din) :=
  memRead_of_unwritten (by simp [State.bufferSize]) hk (by simpa [State.buffer] using h)

/-! ### A command past its checks

With the checks of R338 behind it, a command reads its operands and completes with them. -/

theorem keysetupLegal_iff {s : State} :
    keysetupLegal s = true ↔ s.phase = .uninitialized ∨ (s.rekey = true ∧ s.phase = .keyed) := by
  simp [keysetupLegal]

section PastTheChecks

variable {s : State} {len : BitVec 28}

theorem execKeysetup_past_checks {kb ib : BitVec 14} (hinit : s.initDone = true) (hlegal : keysetupLegal s = true)
    (hlengths : lengthsOk kb ib s = true) :
    execKeysetup kb ib s = thenDo (readKey kb s) fun key => .next ((keySchedule key kb ib s).respond .ok []) := by
  rw [execKeysetup, sequenced_passes hinit hlegal, requiring_passes hlengths]; rfl

theorem execIvsetup_past_checks (hinit : s.initDone = true) (hlegal : ivLegal s = true) :
    execIvsetup s = thenDo (readIv s) fun iv => .next ((ivStep iv s).toIvReady.respond .ok []) :=
  sequenced_passes hinit hlegal

theorem byteCommand_past_checks (hinit : s.initDone = true) (hlegal : streamLegal s = true) :
    byteCommand len s = thenDo (readDin len s) fun din => .next (byteResult din len.toNat s) :=
  sequenced_passes hinit hlegal

theorem blockCommand_past_checks (hinit : s.initDone = true) (hlegal : blockLegal s = true)
    (hlen : blockLenOk len s = true) :
    blockCommand len s = thenDo (readDin len s) fun din => .next (blockResult din len.toNat s) := by
  rw [blockCommand, sequenced_passes hinit hlegal, requiring_passes hlen]; rfl

theorem packetCommand_past_checks (hinit : s.initDone = true) (hlegal : ivLegal s = true) :
    packetCommand len s = thenDo (readIv s) fun iv => thenDo (readDin len s) fun din =>
      .next (byteResult din len.toNat (ivStep iv s)) :=
  sequenced_passes hinit hlegal

end PastTheChecks

/-! ### Operands that cannot be read -/

section Unreadable

variable {s : State} {len : BitVec 28}

theorem execKeysetup_of_unwritten {kb ib : BitVec 14} {k : Nat} (hinit : s.initDone = true)
    (hphase : s.phase = .uninitialized ∨ (s.rekey = true ∧ s.phase = .keyed))
    (hkb : s.engine.params.keySizeOk kb.toNat = true) (hib : s.engine.params.ivSizeOk ib.toNat = true)
    (hk : k < ceil8 kb.toNat) (h : Memory.read s.keybuf k = none) :
    execKeysetup kb ib s = .refused (.bufferNotWritten .keybuf) := by
  rw [execKeysetup_past_checks hinit (keysetupLegal_iff.2 hphase) (Bool.and_eq_true_iff.2 ⟨hkb, hib⟩),
    readKey_of_unwritten hkb hk h, thenDo]

/-- The three commands with an IV read it before anything else, so they stop as that read stops. -/
theorem exec_reads_iv_first {i : Instr} (hinit : s.initDone = true) (hphase : s.phase ≠ .uninitialized)
    (hi : i = .ivsetup ∨ i = .encryptPacket len ∨ i = .decryptPacket len) :
    ∃ f, exec i s = thenDo (readIv s) f := by
  have hlegal := ivLegal_iff.2 hphase
  rcases hi with rfl | rfl | rfl
  · exact ⟨_, execIvsetup_past_checks hinit hlegal⟩
  · exact ⟨_, packetCommand_past_checks hinit hlegal⟩
  · exact ⟨_, packetCommand_past_checks hinit hlegal⟩

theorem byteCommand_of_unwritten {k : Nat} (hs : s.Streamable) (hk : k < len.toNat) (h : Memory.read s.din k = none) :
    byteCommand len s = .refused (.bufferNotWritten .din) := by
  obtain ⟨hinit, hphase⟩ := hs
  rw [byteCommand_past_checks hinit (streamLegal_iff.2 hphase), readDin_of_unwritten hk h, thenDo]

theorem blockCommand_of_unwritten {k : Nat} (hs : s.Streamable) (hmode : s.mode = .block)
    (hlen : len.toNat % s.engine.params.blockLen = 0) (hk : k < len.toNat) (h : Memory.read s.din k = none) :
    blockCommand len s = .refused (.bufferNotWritten .din) := by
  obtain ⟨hinit, hphase⟩ := hs
  rw [blockCommand_past_checks hinit (blockLegal_iff.2 ⟨hphase, hmode⟩) (decide_eq_true hlen),
    readDin_of_unwritten hk h, thenDo]

/-- A packet command whose IV can be read. -/
theorem packetCommand_of_unwritten {k : Nat} (hinit : s.initDone = true) (hphase : s.phase ≠ .uninitialized)
    (hfits : ceil8 s.ivBits.toNat ≤ s.engine.params.ivbufBytes)
    (hiv : (Memory.readBytes s.ivbuf 0 (ceil8 s.ivBits.toNat)).isSome = true) (hk : k < len.toNat)
    (h : Memory.read s.din k = none) : packetCommand len s = .refused (.bufferNotWritten .din) := by
  obtain ⟨iv, hbytes⟩ := Option.isSome_iff_exists.1 hiv
  rw [packetCommand_past_checks hinit (ivLegal_iff.2 hphase), readIv_next.2 ⟨hfits, hbytes⟩, thenDo,
    readDin_of_unwritten hk h, thenDo]

end Unreadable

/-- Settles O14, buffer by buffer: the key, the IV, the data. -/
theorem unreadableOperandStopsTheCommandByName : Obligations.UnreadableOperandStopsTheCommandByName := by
  intro s len hinit
  refine ⟨fun kb ib k => execKeysetup_of_unwritten hinit, fun i hphase hi => ?_, fun k hk h => ⟨fun hs => ?_,
    fun hs hmode hlen => ?_, fun hphase hfits hiv => ?_⟩⟩
  · obtain ⟨f, hexec⟩ := exec_reads_iv_first hinit hphase hi
    exact ⟨fun hlong => by rw [hexec, readIv_outside hlong, thenDo],
      fun k hfits hk h => by rw [hexec, readIv_of_unwritten hfits hk h, thenDo]⟩
  · exact ⟨byteCommand_of_unwritten hs hk h, byteCommand_of_unwritten hs hk h⟩
  · exact ⟨blockCommand_of_unwritten hs hmode hlen hk h, blockCommand_of_unwritten hs hmode hlen hk h⟩
  · have hstops := packetCommand_of_unwritten hinit hphase hfits hiv hk h
    exact ⟨hstops, hstops⟩

/-! ### Well-formed commands -/

/-- The operation gives a value: neither a fault nor a refusal. -/
def Answers {α : Type} (o : Host.Outcome α Fault Refusal) : Prop := ∃ a, o = .next a

theorem answers_next {α : Type} (a : α) : Answers (.next a) := ⟨a, rfl⟩

theorem thenDo_answers {α : Type} {o : Host.Outcome α Fault Refusal} {f : α → Result} (ho : Answers o)
    (hf : ∀ a, Answers (f a)) : Answers (thenDo o f) := by
  obtain ⟨a, rfl⟩ := ho
  exact hf a

/-- A failed check is answered too, so only the body past the checks is in question. -/
theorem sequenced_answers {legal : State → Bool} {body : State → Result} {s : State}
    (h : legal s = true → Answers (body s)) : Answers (sequenced legal body s) := by
  unfold sequenced
  split
  · exact answers_next _
  · split
    · exact answers_next _
    · next hlegal => exact h (by simpa using hlegal)

theorem requiring_answers {ok : State → Bool} {e : Status} {body : State → Result} {s : State}
    (h : ok s = true → Answers (body s)) : Answers (requiring ok e body s) := by
  unfold requiring
  split
  · exact answers_next _
  · next hok => exact h (by simpa using hok)

/-- What holds for the bytes supplied holds for a prefix of them. -/
theorem Memory.readBytes_prefix {m : Memory} {a n k : Nat} (hk : k ≤ n)
    (h : (Memory.readBytes m a n).isSome = true) : ∃ bs, Memory.readBytes m a k = some bs := by
  rw [Memory.readBytes_isSome] at h
  exact Option.isSome_iff_exists.1 ((Memory.readBytes_isSome m a k).2 fun j hj => h j (hj.trans_le hk))

section Supplied

variable {s : State} {b : Supplied}

/-- A supported key length fits `KEYBUF`. -/
theorem readKey_answers {kb : BitVec 14} (hb : s.Supplies b) (hsize : s.engine.params.keySizeOk kb.toNat = true)
    (hlen : ceil8 kb.toNat ≤ b.key) : Answers (readKey kb s) := by
  obtain ⟨hkey, _, _⟩ := hb
  obtain ⟨bs, hbs⟩ := Memory.readBytes_prefix hlen hkey
  exact ⟨bs, readKey_next.2 ⟨Params.keybuf_fits _ _ hsize, hbs⟩⟩

/-- Once there is a key, `iv_bits` is a supported length, which fits `IVBUF` (10_state.md R47 item 1). -/
theorem readIv_answers (hs : s.Inv) (hb : s.Supplies b) (hlegal : ivLegal s = true)
    (hlen : ceil8 s.ivBits.toNat ≤ b.iv) : Answers (readIv s) := by
  obtain ⟨_, hiv, _⟩ := hb
  obtain ⟨_, _, hsize, _⟩ := hs.keyed (ivLegal_iff.1 hlegal)
  obtain ⟨bs, hbs⟩ := Memory.readBytes_prefix hlen hiv
  exact ⟨bs, readIv_next.2 ⟨Params.ivbuf_fits _ _ hsize, hbs⟩⟩

theorem readDin_answers {len : BitVec 28} (hb : s.Supplies b) (hlen : len.toNat ≤ b.din) :
    Answers (readDin len s) := by
  obtain ⟨_, _, hdin⟩ := hb
  obtain ⟨bs, hbs⟩ := Memory.readBytes_prefix hlen hdin
  exact ⟨bs, readDin_next.2 hbs⟩

theorem execKeysetup_answers {kb ib : BitVec 14} (hb : s.Supplies b) (hlen : ceil8 kb.toNat ≤ b.key) :
    Answers (execKeysetup kb ib s) := by
  refine sequenced_answers fun _ => requiring_answers fun hlengths => ?_
  obtain ⟨hsize, _⟩ := Bool.and_eq_true_iff.1 hlengths
  exact thenDo_answers (readKey_answers hb hsize hlen) fun _ => answers_next _

theorem execIvsetup_answers (hs : s.Inv) (hb : s.Supplies b) (hlen : ceil8 s.ivBits.toNat ≤ b.iv) :
    Answers (execIvsetup s) :=
  sequenced_answers fun hlegal => thenDo_answers (readIv_answers hs hb hlegal hlen) fun _ => answers_next _

theorem byteCommand_answers {len : BitVec 28} (hb : s.Supplies b) (hlen : len.toNat ≤ b.din) :
    Answers (byteCommand len s) :=
  sequenced_answers fun _ => thenDo_answers (readDin_answers hb hlen) fun _ => answers_next _

theorem blockCommand_answers {len : BitVec 28} (hb : s.Supplies b) (hlen : len.toNat ≤ b.din) :
    Answers (blockCommand len s) :=
  sequenced_answers fun _ => requiring_answers fun _ =>
    thenDo_answers (readDin_answers hb hlen) fun _ => answers_next _

theorem packetCommand_answers {len : BitVec 28} (hs : s.Inv) (hb : s.Supplies b)
    (hiv : ceil8 s.ivBits.toNat ≤ b.iv) (hdin : len.toNat ≤ b.din) : Answers (packetCommand len s) :=
  sequenced_answers fun hlegal => thenDo_answers (readIv_answers hs hb hlegal hiv) fun _ =>
    thenDo_answers (readDin_answers hb hdin) fun _ => answers_next _

/-- KEYSTREAM_BYTES reads no buffer. -/
theorem execKeystreamBytes_answers (len : BitVec 28) (s : State) : Answers (execKeystreamBytes len s) :=
  sequenced_answers fun _ => answers_next _

end Supplied

/-- Settles O41: being well formed gives each command the operands it reads. -/
theorem wellFormedCommandsAlwaysComplete : Obligations.WellFormedCommandsAlwaysComplete := by
  intro i s b hs hb hwf
  simp only [WellFormed, Bool.and_eq_true] at hwf
  obtain ⟨⟨hkey, hiv⟩, hdin⟩ := hwf
  cases i with
  | init => exact answers_next _
  | keysetup kb ib => exact execKeysetup_answers hb (of_decide_eq_true hkey)
  | ivsetup => exact execIvsetup_answers hs hb (of_decide_eq_true hiv)
  | encryptBytes len => exact byteCommand_answers hb (of_decide_eq_true hdin)
  | decryptBytes len => exact byteCommand_answers hb (of_decide_eq_true hdin)
  | keystreamBytes len => exact execKeystreamBytes_answers len s
  | encryptBlocks len => exact blockCommand_answers hb (of_decide_eq_true hdin)
  | decryptBlocks len => exact blockCommand_answers hb (of_decide_eq_true hdin)
  | encryptPacket len => exact packetCommand_answers hs hb (of_decide_eq_true hiv) (of_decide_eq_true hdin)
  | decryptPacket len => exact packetCommand_answers hs hb (of_decide_eq_true hiv) (of_decide_eq_true hdin)

end Sys2Proof.Machine
end

section
/-! PROOF. The command headers (30_encoding.md): what the decoder reads in a header (R107 to R109, R113), that the encoder is
its inverse (R114), and what a step does with a delivered header (R100, R113). The key fact is `decode_reading`: a header is
the encoding of the command it decodes to, or it is reserved. -/

namespace Sys2Proof

/-! ### The fields of a header -/

@[simp] theorem opcOf_encodeL (opc : BitVec 4) (len : BitVec 28) : opcOf (encodeL opc len) = opc :=
  BitVec.extractLsb'_append_eq_left

@[simp] theorem lenOf_encodeL (opc : BitVec 4) (len : BitVec 28) : lenOf (encodeL opc len) = len :=
  BitVec.extractLsb'_append_eq_right

@[simp] theorem opcOf_encodeS (opc : BitVec 4) (kb ib : BitVec 14) : opcOf (encodeS opc kb ib) = opc :=
  opcOf_encodeL opc (kb ++ ib)

@[simp] theorem kbOf_encodeS (opc : BitVec 4) (kb ib : BitVec 14) : kbOf (encodeS opc kb ib) = kb :=
  (BitVec.extractLsb'_append_eq_of_add_le (by decide)).trans BitVec.extractLsb'_append_eq_left

@[simp] theorem ibOf_encodeS (opc : BitVec 4) (kb ib : BitVec 14) : ibOf (encodeS opc kb ib) = ib :=
  (BitVec.extractLsb'_append_eq_of_add_le (by decide)).trans BitVec.extractLsb'_append_eq_right

/-- A format `L` header is its two fields, and a format `Z` header with them. -/
theorem encodeL_fields (h : Header) : encodeL (opcOf h) (lenOf h) = h :=
  (BitVec.extractLsb'_append_extractLsb'_eq_extractLsb' rfl).trans BitVec.extractLsb'_eq_self

/-- A format `S` header is its three fields. -/
theorem encodeS_fields (h : Header) : encodeS (opcOf h) (kbOf h) (ibOf h) = h := by
  have hlow : (kbOf h ++ ibOf h : BitVec 28) = lenOf h := BitVec.extractLsb'_append_extractLsb'_eq_extractLsb' rfl
  rw [encodeS, hlow]
  exact encodeL_fields h

/-! ### The fields as numbers -/

/-- Appending bit strings as arithmetic on unsigned numbers. -/
theorem toNat_append_eq_add {m n : Nat} (x : BitVec m) (y : BitVec n) :
    (x ++ y).toNat = x.toNat * 2 ^ n + y.toNat := by
  rw [BitVec.toNat_append, ← Nat.shiftLeft_add_eq_or_of_lt y.isLt, Nat.shiftLeft_eq]

theorem encodeL_toNat (opc : BitVec 4) (len : BitVec 28) :
    (encodeL opc len).toNat = opc.toNat * 2 ^ 28 + len.toNat := toNat_append_eq_add opc len

theorem encodeS_toNat (opc : BitVec 4) (kb ib : BitVec 14) :
    (encodeS opc kb ib).toNat = opc.toNat * 2 ^ 28 + kb.toNat * 2 ^ 14 + ib.toNat := by
  rw [encodeS, toNat_append_eq_add, toNat_append_eq_add, Nat.add_assoc]

theorem lenOf_toNat (h : Header) : (lenOf h).toNat = h.toNat % 2 ^ 28 := BitVec.extractLsb'_toNat 0 28 h

theorem opcOf_toNat (h : Header) : (opcOf h).toNat = h.toNat / 2 ^ 28 := by
  have hlt : h.toNat / 2 ^ 28 < 2 ^ 4 := Nat.div_lt_of_lt_mul h.isLt
  rw [opcOf, BitVec.extractLsb'_toNat, Nat.shiftRight_eq_div_pow, Nat.mod_eq_of_lt hlt]

/-! ### What the decoder reads in a header -/

/-- The reserved headers: an opcode from 10 on (R108), or a low field that must be zero and is not (R109). -/
def IsReserved (h : Header) : Prop :=
  10 ≤ (opcOf h).toNat ∨ ((opcOf h).toNat = 0 ∨ (opcOf h).toNat = 2) ∧ lenOf h ≠ 0

theorem isReserved_iff (h : Header) : IsReserved h ↔
    10 ≤ h.toNat / 2 ^ 28 ∨ (h.toNat / 2 ^ 28 = 0 ∨ h.toNat / 2 ^ 28 = 2) ∧ h.toNat % 2 ^ 28 ≠ 0 := by
  rw [IsReserved, opcOf_toNat, ← lenOf_toNat, Ne, Ne, ← BitVec.toNat_inj]
  rfl

/-- No command is encoded by a reserved header. -/
theorem not_isReserved_encode (i : Instr) : ¬ IsReserved (encode i) := by
  cases i <;> simp [IsReserved, encode]

/-- The two ways a reading `r` of the header `h` can be right. -/
inductive Reading (h : Header) : Except DecodeError Instr → Prop
  | command (i : Instr) (henc : encode i = h) : Reading h (.ok i)
  | reserved (e : DecodeError) (hres : IsReserved h) : Reading h (.error e)

theorem encodeL_of_opc {h : Header} {opc : BitVec 4} (hopc : (opcOf h).toNat = opc.toNat) :
    encodeL opc (lenOf h) = h := by rw [← BitVec.eq_of_toNat_eq hopc, encodeL_fields]

theorem encodeS_of_opc {h : Header} {opc : BitVec 4} (hopc : (opcOf h).toNat = opc.toNat) :
    encodeS opc (kbOf h) (ibOf h) = h := by rw [← BitVec.eq_of_toNat_eq hopc, encodeS_fields]

theorem decodeZ_reading {h : Header} {i : Instr} (hopc : (opcOf h).toNat = 0 ∨ (opcOf h).toNat = 2)
    (henc : encode i = encodeL (opcOf h) 0) : Reading h (decodeZ h i) := by
  unfold decodeZ
  split
  · next hlen => exact .command i (by rw [henc, ← hlen, encodeL_fields])
  · next hlen => exact .reserved _ (.inr ⟨hopc, hlen⟩)

/-- Whatever the decoder answers is right, opcode by opcode: 0 and 2 are format `Z`, 1 is format `S`, 3 to 9 are format `L`,
and the others are reserved (R107, R108). -/
theorem decode_reading (h : Header) : Reading h (decode h) := by
  unfold decode
  split
  case h_1 hopc => exact decodeZ_reading (.inl hopc) (by rw [BitVec.eq_of_toNat_eq (y := 0#4) hopc]; rfl)
  case h_2 hopc => exact .command _ (encodeS_of_opc hopc)
  case h_3 hopc => exact decodeZ_reading (.inr hopc) (by rw [BitVec.eq_of_toNat_eq (y := 2#4) hopc]; rfl)
  case h_11 =>
    have hopc : 10 ≤ (opcOf h).toNat := by grind
    exact .reserved _ (.inl hopc)
  all_goals next hopc => exact .command _ (encodeL_of_opc hopc)

/-- `decode` after `encode`, constructor by constructor: the fields written are the fields read. -/
theorem decode_encode (i : Instr) : decode (encode i) = .ok i := by
  cases i <;> simp [encode, decode, decodeZ]

/-- `encode` after `decode`. -/
theorem encode_of_decode {h : Header} {i : Instr} (hdecode : decode h = .ok i) : encode i = h := by
  have hreading := decode_reading h
  rw [hdecode] at hreading
  cases hreading with
  | command _ henc => exact henc

/-- Reserved headers, and by `decode_reading` only those, decode to nothing. -/
theorem decode_of_isReserved {h : Header} (hres : IsReserved h) : ∃ e, decode h = .error e := by
  cases hdecode : decode h with
  | error e => exact ⟨e, rfl⟩
  | ok i => exact absurd (encode_of_decode hdecode ▸ hres) (not_isReserved_encode i)

/-- Settles O1. -/
theorem encodeAndDecodeAreInverse : Obligations.EncodeAndDecodeAreInverse :=
  ⟨decode_encode, fun _ _ => encode_of_decode, rfl, rfl, encodeS_toNat 1, fun len =>
    ⟨encodeL_toNat 3 len, encodeL_toNat 4 len, encodeL_toNat 5 len, encodeL_toNat 6 len, encodeL_toNat 7 len,
      encodeL_toNat 8 len, encodeL_toNat 9 len⟩⟩

/-- Settles O4: fourteen rows are encodings of commands, and two are reserved headers. -/
theorem workedHeadersDecodeAsTheSpecLists : Obligations.WorkedHeadersDecodeAsTheSpecLists :=
  ⟨decode_encode .init, decode_encode (.keysetup 80 80), decode_encode (.keysetup 80 0),
    decode_encode (.keysetup 128 64), decode_encode (.keysetup 256 64), decode_encode (.keysetup 40 0),
    decode_encode .ivsetup, decode_encode (.encryptBytes 9), decode_encode (.decryptBytes 9),
    decode_encode (.keystreamBytes 256), decode_encode (.encryptBlocks 64), decode_encode (.decryptBlocks 64),
    decode_encode (.encryptPacket 5), decode_encode (.decryptPacket 5), rfl, rfl⟩

/-! ### The opcode map -/

/-- Every command selects the row of its mnemonic and no other. -/
theorem selectsOneRow (i : Instr) : Laws.SelectsOneRow.Statement i := by
  cases i with
  | init => exact Laws.SelectsOneRow.init
  | keysetup kb ib => exact Laws.SelectsOneRow.keysetup kb ib
  | ivsetup => exact Laws.SelectsOneRow.ivsetup
  | encryptBytes len => exact Laws.SelectsOneRow.encryptBytes len
  | decryptBytes len => exact Laws.SelectsOneRow.decryptBytes len
  | keystreamBytes len => exact Laws.SelectsOneRow.keystreamBytes len
  | encryptBlocks len => exact Laws.SelectsOneRow.encryptBlocks len
  | decryptBlocks len => exact Laws.SelectsOneRow.decryptBlocks len
  | encryptPacket len => exact Laws.SelectsOneRow.encryptPacket len
  | decryptPacket len => exact Laws.SelectsOneRow.decryptPacket len

theorem selects_nothing_of_isReserved {h : Header} (hres : IsReserved h) :
    (opcodeMap.filter fun r => r.selects h) = [] := by
  rw [← List.map_eq_nil_iff (f := fun r => r.mnemonic), ← encodeL_fields h, encodeL, Laws.selected_rows]
  simp only [← BitVec.toNat_inj (x := opcOf h)]
  rcases hres with hopc | ⟨hopc | hopc, hlen⟩
  · have hne (k : Nat) (hk : k < 10) : (opcOf h).toNat ≠ k := by omega
    simp [hne]
  · simpa [hopc] using hlen
  · simpa [hopc] using hlen

/-- Settles O2. -/
theorem headerSelectsExactlyItsOpcodeRow : Obligations.HeaderSelectsExactlyItsOpcodeRow := by
  intro h
  have hreading := decode_reading h
  generalize decode h = r at hreading ⊢
  cases hreading with
  | command i henc => exact henc ▸ selectsOneRow i
  | reserved _ hres => exact selects_nothing_of_isReserved hres

end Sys2Proof

namespace Sys2Proof.Machine

/-! ### The delivered header -/

theorem runHeader_of_isReserved {hd : Header} (hres : IsReserved hd) (s : State) :
    runHeader hd s = .next (s.respond .illegalCommand []) := by
  obtain ⟨e, hdecode⟩ := decode_of_isReserved hres
  rw [runHeader, hdecode]; rfl

/-- Settles O3. -/
theorem reservedHeaderAnswersIllegalCommand : Obligations.ReservedHeaderAnswersIllegalCommand := by
  intro s hd hheader hres
  rw [step_of_header hheader, runHeader_of_isReserved ((isReserved_iff hd).2 hres)]
  rfl

theorem step_of_decode {s : State} {hd : Header} {i : Instr} (hheader : s.header = some hd)
    (hdecode : decode hd = .ok i) : step s = exec i { s with header := none } := by
  rw [step_of_header hheader, runHeader_of_decode hdecode]

/-- A table word stands for a header that decodes. -/
theorem decode_of_decodeTableWord {nbits w : Nat} {i : Instr} (h : decodeTableWord nbits w = some i) :
    decode (headerOf nbits w) = .ok i := by
  obtain ⟨_, hdecode⟩ := Option.ite_none_right_eq_some.1 h
  cases hres : decode (headerOf nbits w) with
  | ok j => rw [hres] at hdecode; cases hdecode; rfl
  | error e => rw [hres] at hdecode; cases hdecode

/-- Settles O5: a table word is delivered as the header it stands for. -/
theorem stepExecutesTheDecodedCommand : Obligations.StepExecutesTheDecodedCommand :=
  ⟨fun _ _ _ => step_of_decode, fun s nbits w _ hword =>
    step_of_decode (s := s.withFetchWord nbits w) rfl (decode_of_decodeTableWord hword)⟩

end Sys2Proof.Machine
end

section
/-! PROOF. The micro-operations of the engine (40_engine.md): saving and restoring the key schedule (R138, R139). -/

namespace Sys2Proof.Machine

/-- Settles O50: both operations are `Engine.map` of one record update, which computes once the build is given. -/
theorem saveAndRestoreCopyTheRegisters : Obligations.SaveAndRestoreCopyTheRegisters := by
  refine ⟨?ach13, ?tbl, ?trivium, ?chacha20, ?rc4, ?other, ?toy4⟩ <;> exact fun _ => ⟨rfl, rfl⟩

end Sys2Proof.Machine
end

section
/-! PROOF. The setup commands (41_scheduler.md): what an accepted INIT (R150), KEYSETUP (R152) and IVSETUP (R156) write, and
that neither setup step reads anything of what it replaces (R154, R158). -/

namespace Sys2Proof.Machine

/-- Settles O18: every state passes, since INIT makes no check. -/
theorem initSetsInitDoneAlone : Obligations.InitSetsInitDoneAlone := fun _ => rfl

/-! ### Acceptance, read off the response -/

theorem Status.word_eq_zero_iff {e : Status} : e.word = 0 ↔ e = .ok := by cases e <;> decide

/-- A command that answers `OK` was accepted: a rejection answers some other status (60_exceptions.md R336). -/
theorem Accepted.of_response_ok {i : Instr} {s t : State} {data : List Byte} (hexec : exec i s = .next t)
    (hok : t.response = some ⟨0, data⟩) : Accepted i s t := by
  rcases exec_next hexec with ⟨e, hne, rfl⟩ | haccepted
  · obtain ⟨hword, _⟩ := Response.mk.inj (Option.some.inj hok)
    exact absurd (Status.word_eq_zero_iff.1 hword) hne
  · exact haccepted

/-- What an accepted KEYSETUP has read and left. -/
theorem Accepted.keysetup_result {kb ib : BitVec 14} {s t : State} (h : Accepted (.keysetup kb ib) s t) :
    ∃ key, readKey kb s = .next key ∧ t = (keySchedule key kb ib s).respond .ok [] := by
  cases h with
  | keysetup _ _ key _ _ _ _ hread => exact ⟨key, hread, rfl⟩
  | bytes _ _ hi | blocks _ _ hi | packet _ _ hi => simp at hi

/-- What an accepted IVSETUP has read and left. -/
theorem Accepted.ivsetup_result {s t : State} (h : Accepted .ivsetup s t) :
    ∃ iv, readIv s = .next iv ∧ t = (ivStep iv s).toIvReady.respond .ok [] := by
  cases h with
  | ivsetup iv _ _ _ hread => exact ⟨iv, hread, rfl⟩
  | bytes _ _ hi | blocks _ _ hi | packet _ _ hi => simp at hi

/-! ### KEYSETUP -/

/-- `load_key` overwrites what `ENG.reset` left in `S` (40_engine.md R137). -/
theorem Engine.toBlank_loadKey (key : List Byte) (kb ib : Nat) (e : Engine) :
    e.toBlank.loadKey key kb ib = e.loadKey key kb ib := by
  simp only [Engine.toBlank, Engine.loadKey, Engine.map_map]

/-- `load_key`, then `ENG.save`: `K0` is the key's schedule. -/
theorem Engine.save_loadKey_holdsKey (key : List Byte) (kb ib : Nat) (e : Engine) :
    ((e.loadKey key kb ib).save).HoldsKey key kb ib :=
  (Engine.restore_save_loadKey key kb ib e).trans (Engine.loadKey_save_loadKey key kb ib e).symm

theorem execKeysetup_of_read {kb ib : BitVec 14} {key : List Byte} {s : State} (hinit : s.initDone = true)
    (hlegal : keysetupLegal s = true) (hlengths : lengthsOk kb ib s = true) (hread : readKey kb s = .next key) :
    execKeysetup kb ib s = .next ((keySchedule key kb ib s).respond .ok []) := by
  rw [execKeysetup_past_checks hinit hlegal hlengths, hread, thenDo]

/-- Settles O20: a supported key length fits `KEYBUF`, so the key is read and the schedule written. -/
theorem keysetupLoadsAndSavesTheKey : Obligations.KeysetupLoadsAndSavesTheKey := by
  intro s kb ib key hinit hphase hkb hib hbytes
  have hread : readKey kb s = .next key := readKey_next.2 ⟨Params.keybuf_fits _ _ hkb, hbytes⟩
  have hlengths : lengthsOk kb ib s = true := Bool.and_eq_true_iff.2 ⟨hkb, hib⟩
  refine ⟨_, execKeysetup_of_read hinit (keysetupLegal_iff.2 hphase) hlengths hread, ?_, ?_⟩
  · rw [keySchedule, Engine.toBlank_loadKey]; rfl
  · exact Engine.save_loadKey_holdsKey key kb.toNat ib.toNat s.engine.toBlank

/-- The key is the bytes of `KEYBUF` that KEYSETUP reads (20_memory.md R71). -/
theorem readKey_eq_of_keybuf_eq {kb : BitVec 14} {s s' : State} {key key' : List Byte}
    (h : Memory.readBytes s.keybuf 0 (ceil8 kb.toNat) = Memory.readBytes s'.keybuf 0 (ceil8 kb.toNat))
    (hread : readKey kb s = .next key) (hread' : readKey kb s' = .next key') : key' = key := by
  obtain ⟨_, hbytes⟩ := readKey_next.1 hread
  obtain ⟨_, hbytes'⟩ := readKey_next.1 hread'
  exact Option.some.inj (hbytes'.symm.trans (h.symm.trans hbytes))

/-- Settles O21: both commands have read the same key, and everything KEYSETUP writes is fixed by the key, the lengths and
the variant. -/
theorem keysetupForgetsTheOldState : Obligations.KeysetupForgetsTheOldState := by
  intro s s' t t' kb ib hvariant hkeybuf hexec hok hexec' hok'
  obtain ⟨key, hread, rfl⟩ := (Accepted.of_response_ok hexec hok).keysetup_result
  obtain ⟨key', hread', rfl⟩ := (Accepted.of_response_ok hexec' hok').keysetup_result
  obtain rfl : key' = key := readKey_eq_of_keybuf_eq hkeybuf hread hread'
  have hengine := Engine.save_loadKey_eq_of_variant_eq key' kb.toNat ib.toNat _ _ hvariant.symm
  have hregime := Engine.regimeOf_eq_of_variant_eq _ _ kb.toNat hvariant.symm
  exact ⟨hengine, rfl, rfl, hregime, rfl, rfl, rfl, rfl⟩

/-! ### IVSETUP -/

theorem execIvsetup_of_read {iv : List Byte} {s : State} (hinit : s.initDone = true) (hlegal : ivLegal s = true)
    (hread : readIv s = .next iv) : execIvsetup s = .next ((ivStep iv s).toIvReady.respond .ok []) := by
  rw [execIvsetup_past_checks hinit hlegal, hread, thenDo]

/-- Settles O22: a supported IV length fits `IVBUF`, so the IV is read; the IV step works on a copy of `K0`. -/
theorem ivsetupStartsAnEpoch : Obligations.IvsetupStartsAnEpoch := by
  intro s iv hinit hphase hsize hbytes
  have hread : readIv s = .next iv := readIv_next.2 ⟨Params.ivbuf_fits _ _ hsize, hbytes⟩
  exact ⟨_, execIvsetup_of_read hinit (ivLegal_iff.2 hphase) hread, rfl,
    GeneratorAt.start s.regime (s.epochStart iv), (ivStep_keepsKeySchedule iv s).k0⟩

/-- Two states with the same key and IV have the same key schedule, whatever else has become of the session. -/
theorem State.SameKeyAndIv.keepsKeySchedule {s s' : State} (h : s.SameKeyAndIv s') : s'.KeepsKeySchedule s := by
  obtain ⟨hk0, hkeyBits, hivBits, hregime, _⟩ := h
  exact ⟨hk0, hkeyBits, hivBits, hregime⟩

/-- Both states read the same IV. -/
theorem State.SameKeyAndIv.iv_eq {s s' : State} {iv iv' : List Byte} (h : s.SameKeyAndIv s')
    (hread : readIv s = .next iv) (hread' : readIv s' = .next iv') : iv' = iv := by
  obtain ⟨_, _, hivBits, _, hivbuf⟩ := h
  obtain ⟨_, hbytes⟩ := readIv_next.1 hread
  obtain ⟨_, hbytes'⟩ := readIv_next.1 hread'
  rw [← hivBits] at hbytes'
  exact Option.some.inj (hbytes'.symm.trans (hivbuf.symm.trans hbytes))

/-- Settles O23: both commands have read the same IV, and the epoch is fixed by the key schedule and the IV. -/
theorem ivsetupForgetsTheOldEpoch : Obligations.IvsetupForgetsTheOldEpoch := by
  intro s s' t t' hsame hexec hok hexec' hok'
  obtain ⟨iv, hread, rfl⟩ := (Accepted.of_response_ok hexec hok).ivsetup_result
  obtain ⟨iv', hread', rfl⟩ := (Accepted.of_response_ok hexec' hok').ivsetup_result
  obtain rfl : iv' = iv := hsame.iv_eq hread hread'
  exact ⟨(hsame.keepsKeySchedule.epochStart_eq iv').symm, rfl, rfl, rfl, rfl⟩

end Sys2Proof.Machine
end

section
/-! PROOF. The keystream command (42_keystream.md): what an accepted KEYSTREAM_BYTES delivers (R173), that it is encryption
of zeros (R174), and that it resumes where the one before it stopped (R176). -/

namespace Sys2Proof.Machine

/-! ### What an accepted KEYSTREAM_BYTES leaves -/

theorem Engine.getElem?_keystreamBytes {n k : Nat} (rg : Regime) (e : Engine) (p : Nat) (hk : k < n) :
    (e.keystreamBytes rg p n)[k]? = some (e.keystream rg (p + k)) := by simp [Engine.keystreamBytes, hk]

/-- What a byte string written to `DOUT` from index 0 on leaves there (20_memory.md R76). -/
theorem Memory.read_write_zero (m : Memory) (bs : List Byte) (k : Nat) :
    Memory.read (Memory.write m 0 bs) k = if k < bs.length then bs[k]? else Memory.read m k := by
  simp [Memory.read_write]

@[simp] theorem keystreamResult_dout (n : Nat) (s : State) :
    (keystreamResult n s).dout = Memory.write s.dout 0 (genTake n s).2 := rfl

@[simp] theorem keystreamResult_response (n : Nat) (s : State) :
    (keystreamResult n s).response = some ⟨0, (genTake n s).2⟩ := rfl

@[simp] theorem keystreamResult_pos (n : Nat) (s : State) : (keystreamResult n s).pos = s.pos + n := rfl
@[simp] theorem keystreamResult_regime (n : Nat) (s : State) : (keystreamResult n s).regime = s.regime := rfl
@[simp] theorem keystreamResult_phase (n : Nat) (s : State) : (keystreamResult n s).phase = .streaming := rfl
@[simp] theorem keystreamResult_mode (n : Nat) (s : State) : (keystreamResult n s).mode = .byte := rfl

/-- The command moves the generator as `GEN.take` does; what it does beside that is no part of the generator. -/
theorem keystreamResult_atPosition (n : Nat) {s : State} {e0 : Engine} {p : Nat} (h : s.AtPosition e0 p) :
    (keystreamResult n s).AtPosition e0 (p + n) := (genTake_spec n s e0 p h).2

/-- Past its sequence checks the command reads no operand that could stop it. -/
theorem execKeystreamBytes_past_checks {len : BitVec 28} {s : State} (hinit : s.initDone = true)
    (hlegal : streamLegal s = true) : execKeystreamBytes len s = .next (keystreamResult len.toNat s) :=
  sequenced_passes hinit hlegal

/-- Settles O25: the bytes `GEN.take` delivers are the keystream from the position on, and they are written as they are. -/
theorem keystreamBytesDeliversTheKeystream : Obligations.KeystreamBytesDeliversTheKeystream := by
  rintro len s e0 ⟨hinit, hphase⟩ hpos
  obtain ⟨htake, _⟩ := genTake_spec len.toNat s e0 s.pos hpos
  have hlength := e0.keystreamBytes_length s.regime s.pos len.toNat
  refine ⟨_, execKeystreamBytes_past_checks hinit (streamLegal_iff.2 hphase), ?written, ?untouched,
    keystreamResult_atPosition len.toNat hpos, (keystreamResult_keepsKeySchedule len.toNat s).k0, ?response, rfl⟩
  case written =>
    intro k hk
    rw [keystreamResult_dout, htake, Memory.read_write_zero, if_pos (hlength.symm ▸ hk),
      Engine.getElem?_keystreamBytes _ _ _ hk]
  case untouched =>
    intro k hk
    rw [keystreamResult_dout, htake, Memory.read_write_zero, if_neg (by omega)]
  case response => rw [keystreamResult_response, htake]

/-! ### Encryption of zeros -/

/-- Zeros are neutral in the combiner (43_combiner.md R190). -/
theorem xorBytes_zeros (ks : List Byte) : xorBytes (List.replicate ks.length 0) ks = ks := by
  induction ks with
  | nil => rfl
  | cons b ks ih =>
    rw [List.length_cons, List.replicate_succ]
    exact congrArg₂ List.cons (BitVec.zero_xor) ih

theorem byteResult_zeros (n : Nat) (s : State) : byteResult (List.replicate n 0) n s = keystreamResult n s := by
  have hzeros : xorBytes (List.replicate n 0) (genTake n s).2 = (genTake n s).2 := by
    simpa only [genTake_length] using xorBytes_zeros (genTake n s).2
  rw [byteResult, combine_eq, hzeros]; rfl

/-- Two commands with the same sequence checks answer alike where they do alike past them. -/
theorem sequenced_congr {legal : State → Bool} {body body' : State → Result} {s : State} (h : body s = body' s) :
    sequenced legal body s = sequenced legal body' s := by simp only [sequenced, h]

/-- Settles O29: both commands make the same sequence checks; past them the one reads zeros and combines them with the bytes
the other delivers. -/
theorem keystreamBytesIsEncryptionOfZeros : Obligations.KeystreamBytesIsEncryptionOfZeros := by
  intro len s hzeros
  change execKeystreamBytes len s = byteCommand len s
  rw [execKeystreamBytes, byteCommand]
  refine sequenced_congr ?_
  rw [readDin_next.2 hzeros]
  exact congrArg Host.Outcome.next (byteResult_zeros len.toNat s).symm

/-! ### Resumability -/

/-- A position of an epoch fixes the state of the generator (42_keystream.md R171). -/
theorem GeneratorAt.unique {rg : Regime} {e0 e e' : Engine} {res res' : List Byte} {p : Nat}
    (h : GeneratorAt rg e0 e res p) (h' : GeneratorAt rg e0 e' res' p) : e' = e ∧ res' = res :=
  ⟨h'.1.trans h.1.symm, h'.2.trans h.2.symm⟩

theorem Accepted.keystreamBytes_result {len : BitVec 28} {s t : State} (h : Accepted (.keystreamBytes len) s t) :
    t = keystreamResult len.toNat s := by
  cases h with
  | keystreamBytes => rfl
  | bytes _ _ hi | blocks _ _ hi | packet _ _ hi => simp at hi

/-- What KEYSTREAM_BYTES is known to have done by its `OK` alone: its data are the keystream from the position on. -/
theorem exec_keystreamBytes_ok {len : BitVec 28} {s t : State} {e0 : Engine} {p : Nat} {data : List Byte}
    (hpos : s.AtPosition e0 p) (hexec : exec (.keystreamBytes len) s = .next t) (hok : t.response = some ⟨0, data⟩) :
    t = keystreamResult len.toNat s ∧ data = e0.keystreamBytes s.regime p len.toNat := by
  obtain rfl := (Accepted.of_response_ok hexec hok).keystreamBytes_result
  obtain ⟨_, hdata⟩ := Response.mk.inj (Option.some.inj hok)
  obtain ⟨htake, _⟩ := genTake_spec len.toNat s e0 p hpos
  exact ⟨rfl, hdata.symm.trans htake⟩

/-- Settles O32: both ways deliver the keystream of one stretch of the epoch and end at the same position of it, which fixes
the generator. -/
theorem keystreamIsResumable : Obligations.KeystreamIsResumable := by
  intro m n k s t u w e0 dm dn dk hsum hs ht htok hu huok hw hwok
  obtain ⟨rfl, rfl⟩ := exec_keystreamBytes_ok hs ht htok
  have hmid := keystreamResult_atPosition m.toNat hs
  obtain ⟨rfl, rfl⟩ := exec_keystreamBytes_ok hmid hu huok
  obtain ⟨rfl, rfl⟩ := exec_keystreamBytes_ok hs hw hwok
  have hsplit := keystreamResult_atPosition n.toNat hmid
  have hwhole := keystreamResult_atPosition k.toNat hs
  rw [Nat.add_assoc, ← hsum] at hsplit
  obtain ⟨hengine, hres⟩ := GeneratorAt.unique hsplit hwhole
  refine ⟨?data, hengine, hres, ?pos, rfl, rfl⟩
  case data => rw [hsum, Engine.keystreamBytes_append, keystreamResult_regime]
  case pos => simp only [keystreamResult_pos, hsum, Nat.add_assoc]

end Sys2Proof.Machine
end

section
/-! PROOF. The byte combiner (43_combiner.md): what the accepted data commands deliver (R190 to R197, R200), how they relate to
one another (R195, R196), and that the data itself decides nothing (R206). -/

namespace Sys2Proof.Machine

/-! ### The exclusive-or of data and keystream -/

/-- Data combined with as much keystream is as long as the data. -/
theorem xorBytes_keystreamBytes_length {din : List Byte} {n : Nat} (rg : Regime) (e : Engine) (p : Nat)
    (hlen : din.length = n) : (xorBytes din (e.keystreamBytes rg p n)).length = n := by
  rw [xorBytes, List.length_zipWith, Engine.keystreamBytes_length, hlen, Nat.min_self]

theorem getElem?_xorBytes_keystreamBytes {din : List Byte} {n k : Nat} (rg : Regime) (e : Engine) (p : Nat)
    (hlen : din.length = n) (hk : k < n) :
    (xorBytes din (e.keystreamBytes rg p n))[k]? = some (din.getD k 0 ^^^ e.keystream rg (p + k)) := by
  have hdin : din[k]? = some (din.getD k 0) := by simp [hlen, hk]
  rw [xorBytes, List.getElem?_zipWith, hdin, Engine.getElem?_keystreamBytes rg e p hk]

/-! ### The three operations, dispatched and past their checks -/

section Dispatch

variable {i : Instr} {len : BitVec 28}

theorem exec_byteCommand (hi : i = .encryptBytes len ∨ i = .decryptBytes len) (s : State) :
    exec i s = byteCommand len s := by rcases hi with rfl | rfl <;> rfl

theorem exec_blockCommand (hi : i = .encryptBlocks len ∨ i = .decryptBlocks len) (s : State) :
    exec i s = blockCommand len s := by rcases hi with rfl | rfl <;> rfl

theorem exec_packetCommand (hi : i = .encryptPacket len ∨ i = .decryptPacket len) (s : State) :
    exec i s = packetCommand len s := by rcases hi with rfl | rfl <;> rfl

variable {s : State} {iv din : List Byte}

theorem byteCommand_of_read (hs : s.Streamable) (hread : readDin len s = .next din) :
    byteCommand len s = .next (byteResult din len.toNat s) := by
  obtain ⟨hinit, hphase⟩ := hs
  rw [byteCommand_past_checks hinit (streamLegal_iff.2 hphase), hread, thenDo]

theorem blockCommand_of_read (hs : s.Streamable) (hmode : s.mode = .block)
    (hlen : len.toNat % s.engine.params.blockLen = 0) (hread : readDin len s = .next din) :
    blockCommand len s = .next (blockResult din len.toNat s) := by
  obtain ⟨hinit, hphase⟩ := hs
  rw [blockCommand_past_checks hinit (blockLegal_iff.2 ⟨hphase, hmode⟩) (decide_eq_true hlen), hread, thenDo]

theorem packetCommand_of_read (hinit : s.initDone = true) (hphase : s.phase ≠ .uninitialized)
    (hiv : readIv s = .next iv) (hread : readDin len s = .next din) :
    packetCommand len s = .next (byteResult din len.toNat (ivStep iv s)) := by
  rw [packetCommand_past_checks hinit (ivLegal_iff.2 hphase), hiv, thenDo, hread, thenDo]

end Dispatch

theorem length_of_readDin {len : BitVec 28} {s : State} {din : List Byte} (h : readDin len s = .next din) :
    din.length = len.toNat := Memory.readBytes_length _ _ _ _ (readDin_next.1 h)

/-- A supported IV length fits `IVBUF`. -/
theorem readIv_of_supported {s : State} {iv : List Byte} (hsize : s.engine.params.ivSizeOk s.ivBits.toNat = true)
    (hbytes : Memory.readBytes s.ivbuf 0 (ceil8 s.ivBits.toNat) = some iv) : readIv s = .next iv :=
  readIv_next.2 ⟨Params.ivbuf_fits _ _ hsize, hbytes⟩

/-! ### The datapath at a position of an epoch -/

/-- The datapath has taken `s` to `t`: the `n` bytes `din` combined with the keystream from position `p` on are returned and
stand in `DOUT`, the rest of `DOUT` is as it was, and the generator has moved on by `n` (43_combiner.md R190). -/
structure XorsKeystream (s t : State) (e0 : Engine) (p : Nat) (din : List Byte) (n : Nat) : Prop where
  written : ∀ k, k < n → Memory.read t.dout k = some (din.getD k 0 ^^^ e0.keystream s.regime (p + k))
  untouched : ∀ k, n ≤ k → Memory.read t.dout k = Memory.read s.dout k
  position : t.AtPosition e0 (p + n)
  k0 : t.engine.SameKeySchedule s.engine
  response : t.response = some ⟨0, xorBytes din (e0.keystreamBytes s.regime p n)⟩

section Datapath

variable {s : State} {e0 : Engine} {p n : Nat} {din : List Byte}

/-- What `GEN.take` delivers to the combiner is the keystream from the position on. -/
theorem combine_at (hpos : s.AtPosition e0 p) :
    combine din n s = (memWrite 0 (xorBytes din (e0.keystreamBytes s.regime p n)) (genTake n s).1,
      xorBytes din (e0.keystreamBytes s.regime p n)) := by
  obtain ⟨htake, _⟩ := genTake_spec n s e0 p hpos
  rw [combine_eq, htake]

theorem byteResult_dout_at (hpos : s.AtPosition e0 p) :
    (byteResult din n s).dout = Memory.write s.dout 0 (xorBytes din (e0.keystreamBytes s.regime p n)) := by
  rw [byteResult, combine_at hpos]; rfl

theorem byteResult_xorsKeystream (hlen : din.length = n) (hpos : s.AtPosition e0 p) :
    XorsKeystream s (byteResult din n s) e0 p din n where
  written k hk := by
    rw [byteResult_dout_at hpos, Memory.read_write_zero, xorBytes_keystreamBytes_length _ _ _ hlen, if_pos hk,
      getElem?_xorBytes_keystreamBytes _ _ _ hlen hk]
  untouched k hk := by
    rw [byteResult_dout_at hpos, Memory.read_write_zero, xorBytes_keystreamBytes_length _ _ _ hlen, if_neg (by omega)]
  position := (genTake_spec n s e0 p hpos).2
  k0 := (byteResult_keepsKeySchedule din n s).k0
  response := by rw [byteResult, combine_at hpos]; rfl

end Datapath

/-- R195: a byte command does what a block command does, and leaves byte mode. -/
theorem byteResult_eq_blockResult (din : List Byte) (n : Nat) (s : State) :
    byteResult din n s = { blockResult din n s with mode := .byte } := rfl

theorem blockResult_xorsKeystream {s : State} {e0 : Engine} {p n : Nat} {din : List Byte} (hlen : din.length = n)
    (hpos : s.AtPosition e0 p) : XorsKeystream s (blockResult din n s) e0 p din n := by
  have h := byteResult_xorsKeystream hlen hpos
  rw [byteResult_eq_blockResult] at h
  exact ⟨h.written, h.untouched, h.position, h.k0, h.response⟩

/-- At a block boundary of an epoch nothing is left over, since a block is a whole number of chunks (40_engine.md R136). -/
theorem State.AtPosition.res_eq_nil {s : State} {e0 : Engine} {p : Nat} (h : s.AtPosition e0 p)
    (hblock : p % s.engine.params.blockLen = 0) : s.res = [] := by
  have hvariant : s.engine.variant = e0.variant := by rw [h.1, Engine.afterChunks_variant]
  have hchunk : e0.chunkLen ∣ s.engine.params.blockLen := by
    rw [Engine.params_eq_of_variant_eq _ _ hvariant]
    exact Nat.dvd_of_mod_eq_zero e0.blockLen_law.2
  exact GeneratorAt.res_eq_nil h (Nat.mod_eq_zero_of_dvd (hchunk.trans (Nat.dvd_of_mod_eq_zero hblock)))

/-- Settles O24: past its checks and its read the command is the datapath. -/
theorem byteCommandsXorTheKeystream : Obligations.ByteCommandsXorTheKeystream := by
  intro i len s din e0 hi hs hpos hbytes
  have hread := readDin_next.2 hbytes
  have h := byteResult_xorsKeystream (length_of_readDin hread) hpos
  exact ⟨_, (exec_byteCommand hi s).trans (byteCommand_of_read hs hread),
    h.written, h.untouched, h.position, h.k0, h.response, rfl⟩

/-- Settles O26: from a block boundary a whole number of blocks leads to a block boundary. -/
theorem blockCommandsXorTheKeystream : Obligations.BlockCommandsXorTheKeystream := by
  intro i len s din e0 hi hs hmode hlen hpos hbytes
  have hread := readDin_next.2 hbytes
  have h := blockResult_xorsKeystream (length_of_readDin hread) hpos
  refine ⟨_, (exec_blockCommand hi s).trans (blockCommand_of_read hs hmode hlen hread),
    h.written, h.untouched, h.position, h.k0, h.response, fun hboundary => ?_, rfl⟩
  have hsum : (s.pos + len.toNat) % s.engine.params.blockLen = 0 := by rw [Nat.add_mod, hboundary, hlen, Nat.zero_mod]
  refine h.position.res_eq_nil ?_
  rw [Engine.params_eq_of_variant_eq _ _ h.k0.variant_eq]
  exact hsum

/-! ### Packets -/

/-- An IV step leaves the generator at the start of the epoch it begins. -/
theorem ivStep_atPosition (iv : List Byte) (s : State) : (ivStep iv s).AtPosition (s.epochStart iv) 0 :=
  GeneratorAt.start s.regime (s.epochStart iv)

/-- The IV step touches neither `DOUT` nor the regime, and `K0` outlives it. -/
theorem byteResult_ivStep_xorsKeystream {iv din : List Byte} {n : Nat} (s : State) (hlen : din.length = n) :
    XorsKeystream s (byteResult din n (ivStep iv s)) (s.epochStart iv) 0 din n := by
  have h := byteResult_xorsKeystream hlen (ivStep_atPosition iv s)
  exact ⟨h.written, h.untouched, h.position, h.k0.trans (ivStep_keepsKeySchedule iv s).k0, h.response⟩

/-- Settles O27: the IV step leaves the generator at position 0 of the new epoch, and the data step starts there. -/
theorem packetCommandsStartAnEpochAndXor : Obligations.PacketCommandsStartAnEpochAndXor := by
  intro i len s iv din hi hinit hphase hsize hiv hbytes
  have hread := readDin_next.2 hbytes
  have h := byteResult_ivStep_xorsKeystream (iv := iv) s (length_of_readDin hread)
  refine ⟨_, (exec_packetCommand hi s).trans
      (packetCommand_of_read hinit hphase (readIv_of_supported hsize hiv) hread),
    fun k hk => ?written, h.untouched, ?position, h.k0, h.response, ?frame⟩
  case written => simpa only [Nat.zero_add] using h.written k hk
  case position => simpa only [Nat.zero_add] using h.position
  case frame => simp [byteResult, combine_eq, memWrite, genTake, State.toByteMode, State.respond, ivStep]

/-- What IVSETUP does to the session beside its IV step, and its response, the byte command overwrites. -/
theorem byteResult_toIvReady (din : List Byte) (n : Nat) (s : State) :
    byteResult din n (s.toIvReady.respond .ok []) = byteResult din n s := rfl

/-- Settles O28: both ways the data step follows one IV step. -/
theorem packetIsIvsetupThenByteCommand : Obligations.PacketIsIvsetupThenByteCommand := by
  intro len s iv din hinit hphase hsize hiv hbytes
  have hreadIv := readIv_of_supported hsize hiv
  have hread := readDin_next.2 hbytes
  have hpacket := packetCommand_of_read hinit hphase hreadIv hread
  refine ⟨_, byteResult din len.toNat (ivStep iv s), execIvsetup_of_read hinit (ivLegal_iff.2 hphase) hreadIv, ?_,
    hpacket, hpacket⟩
  have hready : ((ivStep iv s).toIvReady.respond .ok []).Streamable := ⟨hinit, .inl rfl⟩
  rw [← byteResult_toIvReady]
  exact byteCommand_of_read hready (readDin_next.2 hbytes)

/-! ### One datapath -/

/-- The checks an accepted block command has passed, and what it has read and left. -/
theorem Accepted.blocks_result {i : Instr} {len : BitVec 28} {s t : State} (h : Accepted i s t)
    (hi : i = .encryptBlocks len ∨ i = .decryptBlocks len) :
    s.Streamable ∧ ∃ din, readDin len s = .next din ∧ t = blockResult din len.toNat s := by
  cases h with
  | blocks _ len' hi' din _ hinit hlegal _ hread =>
    obtain rfl : len' = len := by rcases hi with rfl | rfl <;> simpa [eq_comm] using hi'
    exact ⟨⟨hinit, (blockLegal_iff.1 hlegal).1⟩, din, hread, rfl⟩
  | bytes _ _ hi' | packet _ _ hi' => rcases hi with rfl | rfl <;> simp at hi'
  | _ => simp at hi

/-- Settles O30: where the block command is accepted the byte command is too, over the same data. -/
theorem blockAndByteCommandsShareOneDatapath : Obligations.BlockAndByteCommandsShareOneDatapath := by
  intro i j len s t u data hi hj hexec hok hexec'
  obtain ⟨hs, din, hread, rfl⟩ := (Accepted.of_response_ok hexec hok).blocks_result hi
  rw [exec_byteCommand hj, byteCommand_of_read hs hread] at hexec'
  cases hexec'
  exact ⟨hok, byteResult_eq_blockResult din len.toNat s⟩

/-! ### What a command returns -/

/-- What a byte string written to `DOUT` from index 0 on leaves there, with its length known. -/
theorem read_of_write_zero {s t : State} {data bs : List Byte} {n : Nat} (hdata : bs = data) (hlen : bs.length = n)
    (hdout : t.dout = Memory.write s.dout 0 bs) :
    data.length = n ∧ (∀ k, k < n → Memory.read t.dout k = data[k]?) ∧
    ∀ k, n ≤ k → Memory.read t.dout k = Memory.read s.dout k := by
  subst hdata hlen
  refine ⟨rfl, fun k hk => ?_, fun k hk => ?_⟩
  · rw [hdout, Memory.read_write_zero, if_pos hk]
  · rw [hdout, Memory.read_write_zero, if_neg (by omega)]

/-- `CMB.process` returns as many bytes as it reads, and writes what it returns. -/
theorem read_of_combine {din data : List Byte} {n : Nat} (s : State) {t : State} (hlen : din.length = n)
    (hdata : (combine din n s).2 = data) (hdout : t.dout = Memory.write s.dout 0 (combine din n s).2) :
    data.length = n ∧ (∀ k, k < n → Memory.read t.dout k = data[k]?) ∧
    ∀ k, n ≤ k → Memory.read t.dout k = Memory.read s.dout k := by
  have hout : (combine din n s).2.length = n := by
    rw [combine_eq, xorBytes, List.length_zipWith, genTake_length, hlen, Nat.min_self]
  exact read_of_write_zero hdata hout hdout

theorem data_eq_of_response {data data' : List Byte} (h : some (Response.mk 0 data) = some ⟨0, data'⟩) : data = data' :=
  (Response.mk.inj (Option.some.inj h)).2

/-- Settles O31, command by command: the setup commands return nothing, the others what they have written. An IV step leaves
`DOUT` alone. -/
theorem acceptedCommandsReturnLenBytes : Obligations.AcceptedCommandsReturnLenBytes := by
  intro i s t data hexec hok
  cases Accepted.of_response_ok hexec hok with
  | init | keysetup | ivsetup => exact (data_eq_of_response hok).symm
  | keystreamBytes len => exact read_of_write_zero (data_eq_of_response hok) (genTake_length len.toNat s) rfl
  | bytes _ len hi din _ _ _ hread =>
    rcases hi with rfl | rfl <;> exact read_of_combine s (length_of_readDin hread) (data_eq_of_response hok) rfl
  | blocks _ len hi din _ _ _ _ hread =>
    rcases hi with rfl | rfl <;> exact read_of_combine s (length_of_readDin hread) (data_eq_of_response hok) rfl
  | packet _ len hi iv din _ _ _ _ hread =>
    rcases hi with rfl | rfl <;>
      exact read_of_combine (ivStep iv s) (length_of_readDin hread) (data_eq_of_response hok) rfl

/-! ### The data decides nothing -/

/-- The answer `o` is that of `t` but for `DIN`, which holds `m`, for `DOUT` and for the data returned; the status word is
the same (43_combiner.md R206). -/
def AnswersAlike (m : Memory) (t : State) (o : Result) : Prop :=
  ∃ t', o = .next t' ∧ t' = { t with din := m, dout := t'.dout, response := t'.response } ∧
    t'.response.map Response.st = t.response.map Response.st

section OtherData

variable {s t : State} {m : Memory} {len : BitVec 28}

theorem reject_alike (e : Status) (s : State) (m : Memory) :
    AnswersAlike m (s.respond e []) (reject e (s.setBuffer m .din)) := ⟨_, rfl, rfl, rfl⟩

/-- The generator does not see the data. -/
theorem byteResult_alike (din din' : List Byte) (n : Nat) (s : State) (m : Memory) :
    AnswersAlike m (byteResult din n s) (.next (byteResult din' n (s.setBuffer m .din))) := ⟨_, rfl, rfl, rfl⟩

theorem blockResult_alike (din din' : List Byte) (n : Nat) (s : State) (m : Memory) :
    AnswersAlike m (blockResult din n s) (.next (blockResult din' n (s.setBuffer m .din))) := ⟨_, rfl, rfl, rfl⟩

theorem keystreamResult_alike (n : Nat) (s : State) (m : Memory) :
    AnswersAlike m (keystreamResult n s) (.next (keystreamResult n (s.setBuffer m .din))) := ⟨_, rfl, rfl, rfl⟩

/-- A command alike past sequence checks that do not look at the data is alike. -/
theorem sequenced_alike {legal : State → Bool} {body : State → Result}
    (hlegal : legal (s.setBuffer m .din) = legal s)
    (hbody : body s = .next t → AnswersAlike m t (body (s.setBuffer m .din)))
    (h : sequenced legal body s = .next t) : AnswersAlike m t (sequenced legal body (s.setBuffer m .din)) := by
  rcases sequenced_next h with ⟨rfl, hinit | hillegal⟩ | ⟨hinit, hpasses, h⟩
  · rw [sequenced_before_init (s := s.setBuffer m .din) hinit]
    exact reject_alike _ s m
  · rw [sequenced_illegal (hlegal.trans hillegal)]
    exact reject_alike _ s m
  · rw [sequenced_passes (s := s.setBuffer m .din) hinit (hlegal.trans hpasses)]
    exact hbody h

theorem requiring_alike {ok : State → Bool} {e : Status} {body : State → Result}
    (hok : ok (s.setBuffer m .din) = ok s) (hbody : body s = .next t → AnswersAlike m t (body (s.setBuffer m .din)))
    (h : requiring ok e body s = .next t) : AnswersAlike m t (requiring ok e body (s.setBuffer m .din)) := by
  rcases requiring_next h with ⟨rfl, hfails⟩ | ⟨hpasses, h⟩
  · rw [requiring_fails (hok.trans hfails)]
    exact reject_alike e s m
  · rw [requiring_passes (hok.trans hpasses)]
    exact hbody h

/-- `DIN` can be read wherever it could be before, so a command alike for all data is alike past its read. -/
theorem thenDo_readDin_alike {f : List Byte → State → State}
    (hm : ∀ k, (Memory.read s.din k).isSome = true → (Memory.read m k).isSome = true)
    (hf : ∀ din din', AnswersAlike m (f din s) (.next (f din' (s.setBuffer m .din))))
    (h : thenDo (readDin len s) (fun din => .next (f din s)) = .next t) :
    AnswersAlike m t
      (thenDo (readDin len (s.setBuffer m .din)) fun din => .next (f din (s.setBuffer m .din))) := by
  obtain ⟨din, hread, h⟩ := thenDo_next h
  cases h
  have hsome : (Memory.readBytes s.din 0 len.toNat).isSome = true := by rw [readDin_next.1 hread]; rfl
  rw [Memory.readBytes_isSome] at hsome
  have hsome' := (Memory.readBytes_isSome m 0 len.toNat).2 fun k hk => hm _ (hsome k hk)
  obtain ⟨din', hbytes⟩ := Option.isSome_iff_exists.1 hsome'
  have hread' : readDin len (s.setBuffer m .din) = .next din' := readDin_next.2 hbytes
  rw [hread', thenDo]
  exact hf din din'

variable (hm : ∀ k, (Memory.read s.din k).isSome = true → (Memory.read m k).isSome = true)
include hm

theorem byteCommand_alike (h : byteCommand len s = .next t) :
    AnswersAlike m t (byteCommand len (s.setBuffer m .din)) :=
  sequenced_alike rfl (thenDo_readDin_alike (f := fun din s => byteResult din len.toNat s) hm
    fun din din' => byteResult_alike din din' _ s m) h

theorem blockCommand_alike (h : blockCommand len s = .next t) :
    AnswersAlike m t (blockCommand len (s.setBuffer m .din)) :=
  sequenced_alike rfl (requiring_alike rfl (thenDo_readDin_alike (f := fun din s => blockResult din len.toNat s) hm
    fun din din' => blockResult_alike din din' _ s m)) h

/-- The IV is no part of the data. -/
theorem packetCommand_alike (h : packetCommand len s = .next t) :
    AnswersAlike m t (packetCommand len (s.setBuffer m .din)) := by
  refine sequenced_alike rfl (fun h => ?_) h
  obtain ⟨iv, hiv, h⟩ := thenDo_next h
  have hiv' : readIv (s.setBuffer m .din) = .next iv := hiv
  rw [hiv', thenDo]
  exact thenDo_readDin_alike (f := fun din s => byteResult din len.toNat (ivStep iv s)) hm
    (fun din din' => byteResult_alike din din' _ (ivStep iv s) m) h

omit hm in
theorem execKeystreamBytes_alike (h : execKeystreamBytes len s = .next t) :
    AnswersAlike m t (execKeystreamBytes len (s.setBuffer m .din)) := by
  refine sequenced_alike rfl (fun h => ?_) h
  cases h
  exact keystreamResult_alike len.toNat s m

end OtherData

/-- Settles O36: of the ten commands the three setup commands are not in question. -/
theorem streamingNeverInspectsTheData : Obligations.StreamingNeverInspectsTheData := by
  intro i s t m hclass h hm
  change AnswersAlike m t (exec i (s.setBuffer m .din))
  cases i with
  | init | keysetup | ivsetup => simp [commandClass] at hclass
  | encryptBytes len => exact byteCommand_alike hm h
  | decryptBytes len => exact byteCommand_alike hm h
  | keystreamBytes len => exact execKeystreamBytes_alike h
  | encryptBlocks len => exact blockCommand_alike hm h
  | decryptBlocks len => exact blockCommand_alike hm h
  | encryptPacket len => exact packetCommand_alike hm h
  | decryptPacket len => exact packetCommand_alike hm h

end Sys2Proof.Machine
end

section
/-! PROOF. A message in pieces (43_combiner.md): any segmentation into block, then byte commands is one pass of the datapath
(R199), and a second pass under the same key and IV undoes it (R198). -/

namespace Sys2Proof.Machine

/-! ### One order after another -/

/-- The exclusive-or of two stretches in a row. -/
theorem xorBytes_append {din ks : List Byte} (din' ks' : List Byte) (h : din.length = ks.length) :
    xorBytes (din ++ din') (ks ++ ks') = xorBytes din ks ++ xorBytes din' ks' := List.zipWith_append h

/-- The order `o` has taken the session from `s` to `t`: accepted, its input combined with the keystream from the position
on, the session ready for the next order of the epoch of `e0`. -/
structure RunsOrder (e0 : Engine) (o : Order) (s t : State) : Prop where
  completes : exec o.instr { s with din := Memory.cells 0 o.din } = .next t
  response : t.response = some ⟨0, xorBytes o.din (e0.keystreamBytes s.regime s.pos o.din.length)⟩
  streamable : t.Streamable
  position : t.AtPosition e0 t.pos
  pos : t.pos = s.pos + o.din.length
  regime : t.regime = s.regime
  params : t.engine.params = s.engine.params

/-- What one pass over the whole input of `os` would give is what the orders give together (R199). -/
def State.Streams (s : State) (e0 : Engine) (os : List Order) : Prop :=
  ∃ t, runOrders os s = some (t, xorBytes (ordersInput os) (e0.keystreamBytes s.regime s.pos (ordersInput os).length)) ∧
    t.AtPosition e0 (s.pos + (ordersInput os).length)

theorem readDin_of_cells {bs : List Byte} {len : BitVec 28} {s : State} (hlen : len.toNat = bs.length) :
    readDin len { s with din := Memory.cells 0 bs } = .next bs :=
  readDin_next.2 (by rw [hlen]; exact Memory.readBytes_cells 0 bs)

section Orders

variable {e0 : Engine} {s : State}

theorem Order.IsByteData.runs {o : Order} (ho : o.IsByteData) (hs : s.Streamable) (hpos : s.AtPosition e0 s.pos) :
    ∃ t, RunsOrder e0 o s t := by
  obtain ⟨len, hlen, hi⟩ := ho
  have h := byteResult_xorsKeystream (s := { s with din := Memory.cells 0 o.din }) hlen.symm hpos
  exact ⟨_, {
    completes := (exec_byteCommand hi _).trans (byteCommand_of_read hs (readDin_of_cells hlen))
    response := hlen ▸ h.response
    streamable := ⟨hs.1, .inr rfl⟩
    position := h.position
    pos := hlen ▸ rfl
    regime := rfl
    params := Engine.params_eq_of_variant_eq _ _ h.k0.variant_eq }⟩

/-- A block order leaves block mode as it was, so another may follow. -/
theorem Order.IsBlockData.runs {o : Order} (ho : o.IsBlockData s.engine.params.blockLen) (hs : s.Streamable)
    (hmode : s.mode = .block) (hpos : s.AtPosition e0 s.pos) : ∃ t, RunsOrder e0 o s t ∧ t.mode = .block := by
  obtain ⟨len, hlen, hblocks, hi⟩ := ho
  have h := blockResult_xorsKeystream (s := { s with din := Memory.cells 0 o.din }) hlen.symm hpos
  refine ⟨_, {
    completes := (exec_blockCommand hi _).trans (blockCommand_of_read hs hmode hblocks (readDin_of_cells hlen))
    response := hlen ▸ h.response
    streamable := ⟨hs.1, .inr rfl⟩
    position := h.position
    pos := hlen ▸ rfl
    regime := rfl
    params := Engine.params_eq_of_variant_eq _ _ h.k0.variant_eq }, hmode⟩

theorem runOrders_cons {o : Order} {os : List Order} {t u : State} {data rest : List Byte}
    (hexec : exec o.instr { s with din := Memory.cells 0 o.din } = .next t) (hok : t.response = some ⟨0, data⟩)
    (hrest : runOrders os t = some (u, rest)) : runOrders (o :: os) s = some (u, data ++ rest) := by
  simp [runOrders, hexec, hok, hrest, Status.word]

theorem State.Streams.nil (hpos : s.AtPosition e0 s.pos) : s.Streams e0 [] := ⟨s, rfl, hpos⟩

/-- The stretch of keystream of the whole is that of the first order, then that of the rest. -/
theorem State.Streams.cons {o : Order} {os : List Order} {t : State} (h : RunsOrder e0 o s t)
    (hrest : t.Streams e0 os) : s.Streams e0 (o :: os) := by
  obtain ⟨u, hrun, hat⟩ := hrest
  have hinput : ordersInput (o :: os) = o.din ++ ordersInput os := List.flatMap_cons
  rw [h.regime, h.pos] at hrun
  rw [h.pos, Nat.add_assoc] at hat
  refine ⟨u, ?_, by rw [hinput, List.length_append]; exact hat⟩
  rw [hinput, List.length_append, Engine.keystreamBytes_append,
    xorBytes_append _ _ (Engine.keystreamBytes_length _ _ _ _).symm]
  exact runOrders_cons h.completes h.response hrun

theorem streams_bytes {bytes : List Order} (hs : s.Streamable) (hpos : s.AtPosition e0 s.pos)
    (hbytes : ∀ o ∈ bytes, o.IsByteData) : s.Streams e0 bytes := by
  induction bytes generalizing s with
  | nil => exact .nil hpos
  | cons o os ih =>
    obtain ⟨ho, hos⟩ := List.forall_mem_cons.1 hbytes
    obtain ⟨t, h⟩ := ho.runs hs hpos
    exact .cons h (ih h.streamable h.position hos)

theorem streams_blocks_then_bytes {blocks bytes : List Order} (hs : s.Streamable) (hpos : s.AtPosition e0 s.pos)
    (hmode : blocks = [] ∨ s.mode = .block) (hblocks : ∀ o ∈ blocks, o.IsBlockData s.engine.params.blockLen)
    (hbytes : ∀ o ∈ bytes, o.IsByteData) : s.Streams e0 (blocks ++ bytes) := by
  induction blocks generalizing s with
  | nil => exact streams_bytes hs hpos hbytes
  | cons o os ih =>
    have hblock : s.mode = .block := hmode.resolve_left (List.cons_ne_nil o os)
    obtain ⟨ho, hos⟩ := List.forall_mem_cons.1 hblocks
    obtain ⟨t, h, htmode⟩ := ho.runs hs hblock hpos
    exact .cons h (ih h.streamable h.position (.inr htmode) (h.params ▸ hos))

end Orders

/-- Settles O33, by induction on the block orders, then on the byte orders. -/
theorem segmentationDoesNotMatter : Obligations.SegmentationDoesNotMatter :=
  fun _ _ _ _ => streams_blocks_then_bytes

/-! ### A second pass -/

/-- Combining twice with one stretch of keystream restores the data. -/
theorem xorBytes_xorBytes {din ks : List Byte} (h : din.length = ks.length) : xorBytes (xorBytes din ks) ks = din := by
  refine List.ext_getElem (by simp [xorBytes, h]) fun k _ _ => ?_
  simp [xorBytes]

/-- Every accepted command comes after an INIT and leaves `init_done` set. -/
theorem Accepted.initDone {i : Instr} {s t : State} (h : Accepted i s t) : t.initDone = true := by
  cases h with
  | init => rfl
  | keysetup _ _ _ _ hinit | ivsetup _ _ hinit | keystreamBytes _ _ hinit => exact hinit
  | bytes _ _ _ _ _ hinit | blocks _ _ _ _ _ hinit | packet _ _ _ _ _ _ hinit => exact hinit

/-- What IVSETUP is known to have read by its `OK` alone, and that any orders after it stream from the start of the epoch of
that IV. -/
theorem exec_ivsetup_then_streams {s u : State} {data : List Byte} (hexec : exec .ivsetup s = .next u)
    (hok : u.response = some ⟨0, data⟩) :
    ∃ iv, readIv s = .next iv ∧ ∀ blocks bytes : List Order,
      (∀ o ∈ blocks, o.IsBlockData s.engine.params.blockLen) → (∀ o ∈ bytes, o.IsByteData) →
      ∃ v, runOrders (blocks ++ bytes) u = some (v, xorBytes (ordersInput (blocks ++ bytes))
        ((s.epochStart iv).keystreamBytes s.regime 0 (ordersInput (blocks ++ bytes)).length)) := by
  have haccepted := Accepted.of_response_ok hexec hok
  have hinit := haccepted.initDone
  obtain ⟨iv, hread, rfl⟩ := haccepted.ivsetup_result
  have hparams := Engine.params_eq_of_variant_eq _ _ (ivStep_keepsKeySchedule iv s).k0.variant_eq
  refine ⟨iv, hread, fun blocks bytes hblocks hbytes => ?_⟩
  obtain ⟨v, hrun, _⟩ := streams_blocks_then_bytes (s := (ivStep iv s).toIvReady.respond .ok []) ⟨hinit, .inl rfl⟩
    (ivStep_atPosition iv s) (.inr rfl) (hparams.symm ▸ hblocks) hbytes
  exact ⟨v, hrun⟩

/-- Settles O34: both epochs have one keystream, and the second pass takes off what the first put on. -/
theorem secondPassUnderTheSameIvRestoresTheMessage : Obligations.SecondPassUnderTheSameIvRestoresTheMessage := by
  intro blocks bytes blocks' bytes' s s' u v w c hsame hu huok hblocks hbytes hrun hw hwok hblocks' hbytes' hinput
  obtain ⟨iv, hread, hfirst⟩ := exec_ivsetup_then_streams hu huok
  obtain ⟨iv', hread', hsecond⟩ := exec_ivsetup_then_streams hw hwok
  obtain rfl : iv' = iv := hsame.iv_eq hread hread'
  have hkeeps := hsame.keepsKeySchedule
  have hparams := Engine.params_eq_of_variant_eq _ _ hkeeps.k0.variant_eq
  obtain ⟨v', hrun'⟩ := hfirst blocks bytes hblocks hbytes
  obtain ⟨x, hx⟩ := hsecond blocks' bytes' (hparams ▸ hblocks') hbytes'
  rw [hrun] at hrun'
  obtain ⟨_, hc⟩ := Prod.mk.inj (Option.some.inj hrun')
  have hlength : c.length = (ordersInput (blocks ++ bytes)).length := by
    rw [hc, xorBytes_keystreamBytes_length _ _ _ rfl]
  refine ⟨x, ?_⟩
  rw [hx, hinput, hlength, ← hkeeps.epochStart_eq, ← hkeeps.regime, hc,
    xorBytes_xorBytes (Engine.keystreamBytes_length _ _ _ _).symm]

end Sys2Proof.Machine
end

section
/-! PROOF. The session (44_session_fsm.md): every completed command does what its cell of the transition table says (R221),
no command undoes INIT or the key (R227, R228), and an epoch in byte mode stays in it until the next IVSETUP (R224). -/

namespace Sys2Proof.Machine

/-! ### The columns of the transition table

The cells of a command's column, read through the checks the command makes (60_exceptions.md R338). -/

section Columns

variable (s : State) (good : Bool)

theorem sessionTable_init : sessionTable s.rekey s.phase s.mode .init good = .goes s.phase s.mode := by
  cases s.phase <;> rfl

theorem sessionTable_keysetup : sessionTable s.rekey s.phase s.mode .keysetup good =
    if keysetupLegal s then (if good then .goes .keyed .block else .error .invalidParameter)
    else .error .sequenceError := by
  cases hphase : s.phase <;> simp [sessionTable, keysetupLegal, hphase]

theorem sessionTable_ivsetup : sessionTable s.rekey s.phase s.mode .ivsetup good =
    if ivLegal s then .goes .ivReady .block else .error .sequenceError := by
  cases hphase : s.phase <;> simp [sessionTable, ivLegal, hphase]

theorem sessionTable_bytes : sessionTable s.rekey s.phase s.mode .bytes good =
    if streamLegal s then .goes .streaming .byte else .error .sequenceError := by
  cases hphase : s.phase <;> simp [sessionTable, streamLegal, hphase]

theorem sessionTable_blocks : sessionTable s.rekey s.phase s.mode .blocks good =
    if blockLegal s then (if good then .goes .streaming .block else .error .invalidLength)
    else .error .sequenceError := by
  cases hphase : s.phase <;> cases hmode : s.mode <;> simp [sessionTable, blockLegal, streamLegal, hphase, hmode]

theorem sessionTable_packet : sessionTable s.rekey s.phase s.mode .packet good =
    if ivLegal s then .goes .streaming .byte else .error .sequenceError := by
  cases hphase : s.phase <;> simp [sessionTable, ivLegal, hphase]

end Columns

/-! ### Commands against their cells -/

/-- A command that led from `s` to `t` did what the cell says. -/
def Cell.Describes (c : Cell) (s t : State) : Prop :=
  match c with
  | .goes p m => t.phase = p ∧ t.mode = m ∧ ∃ data, t.response = some ⟨0, data⟩
  | .error e => t = s.respond e []

section Cells

variable {s t : State} {len : BitVec 28} {c : Cell}

/-- The sequence checks are the outer choice of a column. -/
theorem sequenced_describes {legal : State → Bool} {body : State → Result} (hinit : s.initDone = true)
    (h : sequenced legal body s = .next t) (hbody : legal s = true → body s = .next t → c.Describes s t) :
    (if legal s then c else .error .sequenceError).Describes s t := by
  rcases sequenced_next h with ⟨rfl, hfails⟩ | ⟨_, hlegal, hrun⟩
  · have hillegal : ¬ legal s = true := by simpa [hinit] using hfails
    rw [if_neg hillegal]; rfl
  · rw [if_pos hlegal]; exact hbody hlegal hrun

/-- The operand check is the inner one. -/
theorem requiring_describes {ok : State → Bool} {e : Status} {body : State → Result}
    (h : requiring ok e body s = .next t) (hbody : body s = .next t → c.Describes s t) :
    (if ok s then c else .error e).Describes s t := by
  rcases requiring_next h with ⟨rfl, hfails⟩ | ⟨hok, hrun⟩
  · rw [if_neg (by simp [hfails])]; rfl
  · rw [if_pos hok]; exact hbody hrun

theorem execKeysetup_describes {kb ib : BitVec 14} (hinit : s.initDone = true) (h : execKeysetup kb ib s = .next t) :
    (sessionTable s.rekey s.phase s.mode .keysetup (lengthsOk kb ib s)).Describes s t := by
  rw [sessionTable_keysetup]
  refine sequenced_describes hinit h fun _ h => requiring_describes h fun h => ?_
  obtain ⟨key, _, h⟩ := thenDo_next h
  cases h
  exact ⟨rfl, rfl, _, rfl⟩

theorem execIvsetup_describes (good : Bool) (hinit : s.initDone = true) (h : execIvsetup s = .next t) :
    (sessionTable s.rekey s.phase s.mode .ivsetup good).Describes s t := by
  rw [sessionTable_ivsetup]
  refine sequenced_describes hinit h fun _ h => ?_
  obtain ⟨iv, _, h⟩ := thenDo_next h
  cases h
  exact ⟨rfl, rfl, _, rfl⟩

theorem byteCommand_describes (good : Bool) (hinit : s.initDone = true) (h : byteCommand len s = .next t) :
    (sessionTable s.rekey s.phase s.mode .bytes good).Describes s t := by
  rw [sessionTable_bytes]
  refine sequenced_describes hinit h fun _ h => ?_
  obtain ⟨din, _, h⟩ := thenDo_next h
  cases h
  exact ⟨rfl, rfl, _, rfl⟩

theorem execKeystreamBytes_describes (good : Bool) (hinit : s.initDone = true)
    (h : execKeystreamBytes len s = .next t) :
    (sessionTable s.rekey s.phase s.mode .bytes good).Describes s t := by
  rw [sessionTable_bytes]
  refine sequenced_describes hinit h fun _ h => ?_
  cases h
  exact ⟨rfl, rfl, _, rfl⟩

/-- A block command writes no mode: that it ends in block mode is its own sequence check. -/
theorem blockCommand_describes (hinit : s.initDone = true) (h : blockCommand len s = .next t) :
    (sessionTable s.rekey s.phase s.mode .blocks (blockLenOk len s)).Describes s t := by
  rw [sessionTable_blocks]
  refine sequenced_describes hinit h fun hlegal h => requiring_describes h fun h => ?_
  obtain ⟨_, hmode⟩ := blockLegal_iff.1 hlegal
  obtain ⟨din, _, h⟩ := thenDo_next h
  cases h
  exact ⟨rfl, hmode, _, rfl⟩

theorem packetCommand_describes (good : Bool) (hinit : s.initDone = true) (h : packetCommand len s = .next t) :
    (sessionTable s.rekey s.phase s.mode .packet good).Describes s t := by
  rw [sessionTable_packet]
  refine sequenced_describes hinit h fun _ h => ?_
  obtain ⟨iv, _, h⟩ := thenDo_next h
  obtain ⟨din, _, h⟩ := thenDo_next h
  cases h
  exact ⟨rfl, rfl, _, rfl⟩

theorem execInit_describes (good : Bool) (h : execInit s = .next t) :
    (sessionTable s.rekey s.phase s.mode .init good).Describes s t := by
  rw [sessionTable_init]
  cases h
  exact ⟨rfl, rfl, _, rfl⟩

/-- R221 for `init_done = 1`: each command in its column. -/
theorem exec_describes {i : Instr} (hinit : s.initDone = true) (h : exec i s = .next t) :
    (sessionTable s.rekey s.phase s.mode (commandClass i) (operandsGood i s.engine.params)).Describes s t := by
  cases i with
  | init => exact execInit_describes _ h
  | keysetup kb ib => exact execKeysetup_describes hinit h
  | ivsetup => exact execIvsetup_describes _ hinit h
  | encryptBytes len | decryptBytes len => exact byteCommand_describes _ hinit h
  | keystreamBytes len => exact execKeystreamBytes_describes _ hinit h
  | encryptBlocks len | decryptBlocks len => exact blockCommand_describes hinit h
  | encryptPacket len | decryptPacket len => exact packetCommand_describes _ hinit h

end Cells

/-- Before INIT no other command passes its first check (41_scheduler.md R151). -/
theorem exec_before_init {i : Instr} {s : State} (hinit : s.initDone = false) (hi : i ≠ .init) :
    exec i s = reject .sequenceError s := by
  cases i with
  | init => exact absurd rfl hi
  | keysetup | ivsetup => simp only [exec, execKeysetup, execIvsetup, sequenced_before_init hinit]
  | encryptBytes | decryptBytes | keystreamBytes =>
    simp only [exec, execEncryptBytes, execDecryptBytes, byteCommand, execKeystreamBytes, sequenced_before_init hinit]
  | encryptBlocks | decryptBlocks =>
    simp only [exec, execEncryptBlocks, execDecryptBlocks, blockCommand, sequenced_before_init hinit]
  | encryptPacket | decryptPacket =>
    simp only [exec, execEncryptPacket, execDecryptPacket, packetCommand, sequenced_before_init hinit]

/-- Settles O42: the illegal header, the row before INIT, and the table. -/
theorem sessionFollowsTheTransitionTable : Obligations.SessionFollowsTheTransitionTable := by
  refine ⟨fun hd e s hdecode => by rw [runHeader, hdecode]; rfl,
    fun i s t hexec => ⟨fun hinit => ?_, fun hinit => ?_⟩⟩
  · split
    · next hi => subst hi; cases hexec; exact ⟨rfl, rfl, rfl, rfl⟩
    · next hi =>
      rw [exec_before_init hinit hi] at hexec
      cases hexec
      rfl
  · exact exec_describes hinit hexec

/-! ### No way back -/

/-- INIT keeps the phase, and every other command ends in a phase of its own. -/
theorem Accepted.uninitialized_of_uninitialized {i : Instr} {s t : State} (h : Accepted i s t)
    (ht : t.phase = .uninitialized) : s.phase = .uninitialized := by
  cases h with
  | init => exact ht
  | keysetup | ivsetup | keystreamBytes | bytes | blocks | packet => cases ht

/-- Settles O43: a rejected command changes neither, and an accepted one has seen or set `init_done`. -/
theorem noCommandLeadsBackToUninitialized : Obligations.NoCommandLeadsBackToUninitialized := by
  intro i s t hexec
  rcases exec_next hexec with ⟨e, _, rfl⟩ | haccepted
  · exact ⟨id, id⟩
  · exact ⟨haccepted.uninitialized_of_uninitialized, fun _ => haccepted.initDone⟩

/-! ### Byte mode lasts for the epoch -/

/-- KEYSETUP is not legal while streaming, INIT and the block commands keep the mode, and the others write byte mode. -/
theorem Accepted.keeps_byteMode {i : Instr} {s t : State} (h : Accepted i s t) (hmode : s.mode = .byte)
    (hphase : s.phase = .streaming) (hi : i ≠ .ivsetup) : t.mode = .byte ∧ t.phase = .streaming := by
  cases h with
  | init => exact ⟨hmode, hphase⟩
  | keysetup kb ib key _ _ hlegal => simp [keysetupLegal, hphase] at hlegal
  | ivsetup => exact absurd rfl hi
  | blocks => exact ⟨hmode, rfl⟩
  | keystreamBytes | bytes | packet => exact ⟨rfl, rfl⟩

theorem blockCommand_of_byteMode {s : State} (hmode : s.mode = .byte) (len : BitVec 28) :
    blockCommand len s = .next (s.respond .sequenceError []) :=
  sequenced_illegal (by simp [blockLegal, hmode])

/-- Settles O45: byte mode is kept, whether the command is accepted or rejected, and refuses the block commands. -/
theorem blocksAreRefusedAfterBytesUntilIvsetup : Obligations.BlocksAreRefusedAfterBytesUntilIvsetup := by
  intro i s t hmode hphase hexec hi
  have hkept : t.mode = .byte ∧ t.phase = .streaming := by
    rcases exec_next hexec with ⟨e, _, rfl⟩ | haccepted
    · exact ⟨hmode, hphase⟩
    · exact haccepted.keeps_byteMode hmode hphase hi
  obtain ⟨htmode, htphase⟩ := hkept
  exact ⟨htmode, htphase, fun len => ⟨blockCommand_of_byteMode htmode len, blockCommand_of_byteMode htmode len⟩⟩

end Sys2Proof.Machine
end

section
/-! PROOF. Variant `ACH13` (45_variant_ach13.md): what its `advance` puts into each register and into the unit (R242). The
step and combining functions are open parameters (log entry 8), so this is all that can be said of their values. -/

namespace Sys2Proof.Machine

theorem achAdvance_register (rg : Regime) (x : AchRegs) (j : Fin 12) :
    (achAdvance rg x).1.r[j] = Config.ach.step j rg x :=
  Vector.getElem_ofFn j.isLt

theorem achAdvance_r13 (rg : Regime) (x : AchRegs) : (achAdvance rg x).1.r13 = Config.ach.step13 rg x := rfl

theorem achAdvance_unit (rg : Regime) (x : AchRegs) : (achAdvance rg x).2 = Config.ach.combine rg x := rfl

/-- Settles O51: the twelve narrow registers, the wide one and the unit, each read off the registers before the step. -/
theorem achAdvanceStepsEveryRegister : Obligations.AchAdvanceStepsEveryRegister :=
  fun rg x => ⟨achAdvance_register rg x, achAdvance_r13 rg x, achAdvance_unit rg x⟩

end Sys2Proof.Machine
end

section
/-! PROOF. Variant `TRIVIUM` (46_variant_trivium.md): what a step puts into every bit (R264), where the key bits go and
that loading is injective (R262, R267), and that a short IV counts as padded with zero bytes (R263, R268 b). -/

namespace Sys2Proof.Machine

/-! ### The bits of a state -/

@[simp] theorem triBit_or (s t : BitVec 288) (i : Nat) : triBit (s ||| t) i = (triBit s i || triBit t i) :=
  BitVec.getLsbD_or

theorem triBit_and_not (s t : BitVec 288) {i : Nat} (h1 : 1 ≤ i) (h2 : i ≤ 288) :
    triBit (s &&& ~~~t) i = (triBit s i && !triBit t i) := by
  have hi : i - 1 < 288 := by omega
  simp [triBit, hi]

theorem triBit_triPut (k : Nat) (b : Bool) {i : Nat} (hk : 1 ≤ k) (h1 : 1 ≤ i) (h2 : i ≤ 288) :
    triBit (triPut k b) i = (decide (i = k) && b) := by
  have hi : i - 1 < 288 := by omega
  rcases lt_trichotomy i k with h | rfl | h
  · simp [triPut, triBit, h.ne, show i - 1 < k - 1 by omega]
  · simp [triPut, triBit, hi]
  · simp [triPut, triBit, h.ne', BitVec.getLsbD_ofBool, show i - 1 - (k - 1) ≠ 0 by omega]

/-- A left shift moves bit `i` to bit `i + 1`. -/
theorem triBit_shiftLeft_one (s : BitVec 288) {i : Nat} (h1 : 1 ≤ i) (h2 : i ≤ 287) :
    triBit (s <<< 1) (i + 1) = triBit s i := by
  simp [triBit, show i < 288 by omega, show i ≠ 0 by omega, -BitVec.getLsbD_eq_getElem]

/-! ### The step -/

theorem triBit_triHeads {i : Nat} (h1 : 1 ≤ i) (h2 : i ≤ 288) :
    triBit triHeads i = decide (i = 1 ∨ i = 94 ∨ i = 178) := by
  simp [triHeads, triBit_triPut, h1, h2, Bool.or_assoc]

/-- The shape of the state after a step: the shift, cleared at the three heads, with a new bit at each of them. -/
def triShiftIn (s : BitVec 288) (a b c : Bool) : BitVec 288 :=
  ((s <<< 1) &&& ~~~triHeads) ||| triPut 1 a ||| triPut 94 b ||| triPut 178 c

theorem triBit_triShiftIn (s : BitVec 288) (a b c : Bool) {i : Nat} (h1 : 1 ≤ i) (h2 : i ≤ 288) :
    triBit (triShiftIn s a b c) i =
      if i = 1 then a else if i = 94 then b else if i = 178 then c else triBit (s <<< 1) i := by
  simp only [triShiftIn, triBit_or, triBit_and_not _ _ h1 h2, triBit_triHeads h1 h2,
    triBit_triPut _ _ (by decide : 1 ≤ 1) h1 h2, triBit_triPut _ _ (by decide : 1 ≤ 94) h1 h2,
    triBit_triPut _ _ (by decide : 1 ≤ 178) h1 h2]
  split_ifs <;> simp [*]

/-- R264: the new state shifts in the feedback of `C` into `A`, of `A` into `B` and of `B` into `C`. -/
theorem triAdvance_state (rg : Regime) (s : BitVec 288) :
    (triAdvance rg s).1 = triShiftIn s
      (triBit s 243 ^^ triBit s 288 ^^ (triBit s 286 && triBit s 287) ^^ triBit s 69)
      (triBit s 66 ^^ triBit s 93 ^^ (triBit s 91 && triBit s 92) ^^ triBit s 171)
      (triBit s 162 ^^ triBit s 177 ^^ (triBit s 175 && triBit s 176) ^^ triBit s 264) := rfl

/-- Settles O52: the three heads take the new bits, and every other bit comes from its left neighbour by the shift. -/
theorem triviumStepMovesEveryBit : Obligations.TriviumStepMovesEveryBit := by
  intro rg s
  simp only [triAdvance_state]
  refine ⟨rfl, ?headA, ?headB, ?headC, fun i h1 h2 hB hC => ?shifted⟩
  case headA => exact triBit_triShiftIn _ _ _ _ (by decide) (by decide)
  case headB => exact triBit_triShiftIn _ _ _ _ (by decide) (by decide)
  case headC => exact triBit_triShiftIn _ _ _ _ (by decide) (by decide)
  case shifted =>
    rw [triBit_triShiftIn _ _ _ _ (by omega) (by omega), if_neg (by omega), if_neg (by omega), if_neg (by omega),
      triBit_shiftLeft_one s h1 h2]

/-! ### Loading ten bytes -/

/-- `K[i]` in the notation of R262, with no bit outside `1 .. 80`. -/
theorem triBit_triLoadBits (bytes : List Byte) (i : Nat) :
    triBit (triLoadBits bytes) i =
      (decide (i - 1 < 80) && (bytes.getD (9 - (i - 1) / 8) 0).getLsbD (7 - (i - 1) % 8)) := by
  unfold triBit triLoadBits
  rw [BitVec.getLsbD_setWidth, BitVec.getLsbD_ofBoolListLE]
  by_cases hi : i - 1 < 80
  · simp [hi, show i - 1 < 288 by omega]
  · simp [hi]

/-- Loading reads the ten bytes, a missing one as zero, and nothing else. -/
theorem triLoadBits_congr {bytes bytes' : List Byte} (h : ∀ b, bytes.getD b 0 = bytes'.getD b 0) :
    triLoadBits bytes = triLoadBits bytes' := by
  apply BitVec.eq_of_getLsbD_eq
  intro i _
  change triBit _ (i + 1) = triBit _ (i + 1)
  rw [triBit_triLoadBits, triBit_triLoadBits, h]

/-! ### The key -/

theorem triBit_triLoadKey (key : List Byte) (kb ib : Nat) {i : Nat} (h1 : 1 ≤ i) (h2 : i ≤ 288) :
    triBit (triLoadKey key kb ib) i = (triBit (triLoadBits key) i || decide (286 ≤ i)) := by
  simp only [triLoadKey, triBit_or, Bool.or_assoc, triBit_triPut _ _ (by decide : 1 ≤ 286) h1 h2,
    triBit_triPut _ _ (by decide : 1 ≤ 287) h1 h2, triBit_triPut _ _ (by decide : 1 ≤ 288) h1 h2, Bool.and_true,
    ← Bool.decide_or, or_assoc]
  have hones : (i = 286 ∨ i = 287 ∨ i = 288) ↔ 286 ≤ i := by omega
  rw [decide_eq_decide.2 hones]

/-- R262: bit `j` of byte `b` of the key is `K[8*(9-b) + (8-j)]`. -/
theorem triBit_triLoadKey_keyBit (key : List Byte) (kb ib : Nat) {b j : Nat} (hb : b ≤ 9) (hj : j ≤ 7) :
    triBit (triLoadKey key kb ib) (8 * (9 - b) + (8 - j)) = (key.getD b 0).getLsbD j := by
  have hbyte : 9 - (8 * (9 - b) + (8 - j) - 1) / 8 = b := by omega
  have hbit : 7 - (8 * (9 - b) + (8 - j) - 1) % 8 = j := by omega
  rw [triBit_triLoadKey key kb ib (by omega) (by omega), triBit_triLoadBits, hbyte, hbit]
  simp [show 8 * (9 - b) + (8 - j) - 1 < 80 by omega, show ¬ 286 ≤ 8 * (9 - b) + (8 - j) by omega]

/-- R262: above the key bits stand zeros, and ones from `s[286]` on. -/
theorem triBit_triLoadKey_high (key : List Byte) (kb ib : Nat) {i : Nat} (h1 : 81 ≤ i) (h2 : i ≤ 288) :
    triBit (triLoadKey key kb ib) i = decide (286 ≤ i) := by
  rw [triBit_triLoadKey key kb ib (by omega) h2, triBit_triLoadBits]
  simp [show ¬ i - 1 < 80 by omega]

/-- R262: the key bits sit unchanged in `s[1..80]`, so they can be read back. -/
theorem triLoadKey_injective {key key' : List Byte} (kb ib : Nat) (hlen : key.length = 10) (hlen' : key'.length = 10)
    (h : triLoadKey key kb ib = triLoadKey key' kb ib) : key = key' := by
  apply List.ext_getElem (hlen.trans hlen'.symm)
  intro b hb hb'
  rw [← List.getD_eq_getElem key 0 hb, ← List.getD_eq_getElem key' 0 hb']
  apply BitVec.eq_of_getLsbD_eq
  intro j hj
  rw [← triBit_triLoadKey_keyBit key kb ib (by omega) (by omega), h,
    triBit_triLoadKey_keyBit key' kb ib (by omega) (by omega)]

/-- R260: `KEYSIZES = {80}`. -/
theorem trivium_keySizeOk_iff (kb : Nat) : triviumVariant.keySizeOk kb = true ↔ kb = 80 := by
  refine (sizeOk_iff_dvd 80 8 80 kb).trans ⟨fun ⟨hmin, hmax, _⟩ => by omega, ?_⟩
  rintro rfl
  decide

/-- R267: `TRIVIUM` has the law R132, its one key size being ten bytes. -/
theorem trivium_keyInjective : triviumVariant.KeyInjective := by
  intro kb ib key key' hkb _ hlen hlen' hload
  obtain rfl := (trivium_keySizeOk_iff kb).1 hkb
  exact triLoadKey_injective 80 ib hlen hlen' hload

/-- Settles O53: the bits after loading, that they tell the key, and the laws. -/
theorem triviumLoadsTheKeyBits : Obligations.TriviumLoadsTheKeyBits := by
  refine ⟨fun key ib _ => ⟨fun b j hb hj => ?keyBit, fun i h1 h2 => ?zeros, ?one286, ?one287, ?one288⟩,
    fun key key' ib hlen hlen' h => triLoadKey_injective 80 ib hlen hlen' h,
    trivium_lawful, trivium_keyInjective, by decide⟩
  case keyBit => exact triBit_triLoadKey_keyBit key 80 ib hb hj
  case zeros => rw [triBit_triLoadKey_high key 80 ib h1 (by omega), decide_eq_false (by omega)]
  case one286 | one287 | one288 => exact triBit_triLoadKey_high key 80 ib (by decide) (by decide)

/-! ### The IV -/

/-- R263: padding with zero bytes changes no byte read, since a missing byte counts as zero. -/
theorem triLoadBits_append_zeros (iv : List Byte) (n : Nat) :
    triLoadBits (iv ++ List.replicate n 0) = triLoadBits iv := by
  apply triLoadBits_congr
  intro b
  rcases lt_or_ge b iv.length with hb | hb
  · rw [List.getD_append _ _ _ _ hb]
  · rw [List.getD_append_right _ _ _ _ hb, List.getD_eq_getElem?_getD, List.getElem?_getD_replicate_default_eq,
      List.getD_eq_default _ _ hb]

/-- The IV enters `mix_iv` by its loaded bits alone, whatever its length. -/
theorem triMixIv_congr (k0 : BitVec 288) {iv iv' : List Byte} {ib ib' : Nat} (kb : Nat) (rg : Regime)
    (h : triLoadBits (iv.take (ib / 8)) = triLoadBits (iv'.take (ib' / 8))) :
    triMixIv k0 iv ib kb rg = triMixIv k0 iv' ib' kb rg := by
  unfold triMixIv
  rw [h]

/-- Settles O54: both IVs are read whole, and they load the same bits. -/
theorem triviumPadsAShortIvWithZeros : Obligations.TriviumPadsAShortIvWithZeros := by
  intro k0 iv rg hlen
  have hshort : iv.take (8 * iv.length / 8) = iv := List.take_of_length_le (by omega)
  have hpadded : (iv ++ List.replicate (10 - iv.length) 0).take (80 / 8) = iv ++ List.replicate (10 - iv.length) 0 :=
    List.take_of_length_le (by rw [List.length_append, List.length_replicate]; omega)
  apply triMixIv_congr
  rw [hshort, hpadded, triLoadBits_append_zeros]

end Sys2Proof.Machine
end

section
/-! PROOF. Variant `CHACHA20` (47_variant_chacha.md): the output unit and its bytes (R287, R288), the block counter (R289), and
that loading is injective (R283). -/

namespace Sys2Proof.Machine

/-! ### The output unit -/

theorem chaUnit_cons (w : Word32) (ws : List Word32) :
    chaUnit (w :: ws) = (chaUnit ws <<< 32) ||| w.setWidth 512 := rfl

/-- The unit holds word `i` at bits `32 * i` on (log entry 13): each word is put below the words after it. -/
theorem extractLsb'_chaUnit {ws : List Word32} (hfits : ws.length ≤ 16) {i : Nat} (hi : i < ws.length) :
    (chaUnit ws).extractLsb' (32 * i) 32 = ws[i] := by
  induction ws generalizing i with
  | nil => exact absurd hi (Nat.not_lt_zero i)
  | cons w ws ih =>
    rw [List.length_cons] at hfits hi
    apply BitVec.eq_of_getLsbD_eq
    intro k hk
    simp only [BitVec.getLsbD_extractLsb', chaUnit_cons, BitVec.getLsbD_or, BitVec.getLsbD_shiftLeft,
      BitVec.getLsbD_setWidth, hk, decide_true, Bool.true_and]
    cases i with
    | zero => simp [show k < 512 by omega, hk]
    | succ i =>
      have hword := congrArg (BitVec.getLsbD · k) (ih (by omega) (by omega : i < ws.length))
      have hbit : 32 * (i + 1) + k - 32 = 32 * i + k := by omega
      have habove : ¬ 32 * (i + 1) + k < 32 := by omega
      have hhigh : w.getLsbD (32 * (i + 1) + k) = false := BitVec.getLsbD_of_ge _ _ (by omega)
      simpa [hk, hbit, habove, hhigh, show 32 * (i + 1) + k < 512 by omega] using hword

/-- A stretch of the bytes of a number is the bytes of a stretch of it. -/
theorem bytesLE_drop_take {w : Nat} (u : BitVec w) {n a m : Nat} (h : a + m ≤ n) :
    ((bytesLE n u).drop a).take m = bytesLE m (u.extractLsb' (8 * a) (8 * m)) := by
  refine List.ext_getElem (by simp [bytesLE]; omega) fun k _ hk => ?_
  have hkm : k < m := by simpa [bytesLE] using hk
  simp [bytesLE, extractLsb'_twice, show 8 * k + 8 ≤ 8 * m by omega, Nat.mul_add]

theorem chaAdvance_unit_word (rg : Regime) (x : Vector Word32 16) {i : Nat} (hi : i < 16) :
    (chaAdvance rg x).2.extractLsb' (32 * i) 32 = (doubleRounds 10 x)[i] + x[i] := by
  rw [chaAdvance]
  generalize doubleRounds 10 x = w
  have hlen : (List.zipWith (· + ·) w.toList x.toList).length = 16 := by simp
  rw [extractLsb'_chaUnit hlen.le (hlen.symm ▸ hi), List.getElem_zipWith, Vector.getElem_toList,
    Vector.getElem_toList]

/-- Settles O55: the words stand apart in the unit, and four bytes of the unit are those of one word. -/
theorem chaChaUnitIsTheFeedForwardSum : Obligations.ChaChaUnitIsTheFeedForwardSum := by
  intro rg x i hi
  have hword := chaAdvance_unit_word rg x hi
  have hbits : 8 * (4 * i) = 32 * i := by omega
  refine ⟨hword, ?_⟩
  rw [chaPack_single, bytesLE_drop_take _ (by omega), hbits, hword]
  rfl

/-! ### The block counter -/

theorem chaCounter_chaMixIv (k0 : Vector Word32 16) (iv : List Byte) (ib kb : Nat) (rg : Regime) :
    chaCounter (chaMixIv k0 iv ib kb rg) = 0 := by simp [chaCounter, chaMixIv]

theorem chaCount_low (x : Vector Word32 16) : (chaCount x)[12] = x[12] + 1 := by
  simp only [chaCount, Vector.getElem_set_self]
  split <;> simp

/-- The carry goes into the high word. -/
theorem chaCount_high (x : Vector Word32 16) : (chaCount x)[13] = if x[12] + 1 = 0 then x[13] + 1 else x[13] := by
  simp only [chaCount, Vector.getElem_set_self]
  split <;> simp

theorem chaCount_other (x : Vector Word32 16) {i : Nat} (hi : i < 16) (h12 : i ≠ 12) (h13 : i ≠ 13) :
    (chaCount x)[i] = x[i] := by
  simp only [chaCount, Vector.getElem_set_self]
  split <;> simp [h12.symm, h13.symm]

/-- One advance counts one chunk: the carry makes one number of the two words. -/
theorem chaCounter_chaCount (x : Vector Word32 16) : chaCounter (chaCount x) = (chaCounter x + 1) % 2 ^ 64 := by
  simp only [chaCounter, chaCount_low, chaCount_high]
  split <;> bv_omega

theorem chaCounter_lt (x : Vector Word32 16) : chaCounter x < 2 ^ 64 := by
  unfold chaCounter
  omega

/-- R289, by induction on the number of chunks. -/
theorem chaCount_iterate (x : Vector Word32 16) (m : Nat) :
    chaCounter (chaCount^[m] x) = (chaCounter x + m) % 2 ^ 64 ∧
    ∀ (i : Nat) (hi : i < 16), i ≠ 12 → i ≠ 13 → (chaCount^[m] x)[i] = x[i] := by
  induction m with
  | zero =>
    refine ⟨?_, fun _ _ _ _ => rfl⟩
    rw [Function.iterate_zero_apply, Nat.add_zero, Nat.mod_eq_of_lt (chaCounter_lt x)]
  | succ m ih =>
    obtain ⟨hcounter, hwords⟩ := ih
    rw [Function.iterate_succ_apply']
    refine ⟨?counter, fun i hi h12 h13 => (chaCount_other _ hi h12 h13).trans (hwords i hi h12 h13)⟩
    case counter => rw [chaCounter_chaCount, hcounter, Nat.mod_add_mod, Nat.add_assoc]

/-- Settles O56: of the state, an advance changes the counter alone. -/
theorem chaChaCounterCountsModulo64Bits : Obligations.ChaChaCounterCountsModulo64Bits :=
  ⟨chaCounter_chaMixIv, fun _ => chaCount_iterate⟩

/-! ### The key -/

/-- R282: the four bytes of a word can be read back. -/
theorem bytes32_le32 (b : List Byte) (o : Nat) :
    bytes32 (le32 b o) = [b.getD o 0, b.getD (o + 1) 0, b.getD (o + 2) 0, b.getD (o + 3) 0] := by
  have h0 : (le32 b o).extractLsb' 0 8 = b.getD o 0 :=
    (BitVec.extractLsb'_append_eq_of_add_le (by decide)).trans
      ((BitVec.extractLsb'_append_eq_of_add_le (by decide)).trans BitVec.extractLsb'_append_eq_right)
  have h1 : (le32 b o).extractLsb' 8 8 = b.getD (o + 1) 0 :=
    (BitVec.extractLsb'_append_eq_of_add_le (by decide)).trans
      ((BitVec.extractLsb'_append_eq_of_add_le (by decide)).trans BitVec.extractLsb'_append_eq_left)
  have h2 : (le32 b o).extractLsb' 16 8 = b.getD (o + 2) 0 :=
    (BitVec.extractLsb'_append_eq_of_add_le (by decide)).trans BitVec.extractLsb'_append_eq_left
  have h3 : (le32 b o).extractLsb' 24 8 = b.getD (o + 3) 0 := BitVec.extractLsb'_append_eq_left
  rw [bytes32, h0, h1, h2, h3]

theorem getD_eq_of_le32_eq {b b' : List Byte} {o j : Nat} (h : le32 b o = le32 b' o) (hge : o ≤ j) (hlt : j < o + 4) :
    b.getD j 0 = b'.getD j 0 := by
  have hbytes := congrArg bytes32 h
  simp only [bytes32_le32, List.cons.injEq, and_true] at hbytes
  obtain ⟨h0, h1, h2, h3⟩ := hbytes
  have hj : j = o ∨ j = o + 1 ∨ j = o + 2 ∨ j = o + 3 := by omega
  rcases hj with rfl | rfl | rfl | rfl <;> assumption

/-- R283: word `q` of the key stands in `x[4 + q]`, whatever the key length. -/
theorem chaLoadKey_word (key : List Byte) {kb q : Nat} (ib : Nat) (hkb : kb = 256 ∨ kb = 128) (hq : q < kb / 32)
    (h16 : 4 + q < 16) : (chaLoadKey key kb ib)[4 + q] = le32 key (4 * q) := by
  rcases hkb with rfl | rfl
  · interval_cases q <;> rfl
  · interval_cases q <;> rfl

/-- R283: the words loaded tell the key bytes, of which a supported key length has a whole number of words. -/
theorem chaLoadKey_injective {key key' : List Byte} {kb : Nat} (ib : Nat) (hkb : kb = 256 ∨ kb = 128)
    (hlen : key.length = kb / 8) (hlen' : key'.length = kb / 8) (h : chaLoadKey key kb ib = chaLoadKey key' kb ib) :
    key = key' := by
  refine List.ext_getElem (hlen.trans hlen'.symm) fun j hj hj' => ?_
  have hq : j / 4 < kb / 32 := by omega
  have h16 : 4 + j / 4 < 16 := by omega
  have hword : le32 key (4 * (j / 4)) = le32 key' (4 * (j / 4)) := by
    rw [← chaLoadKey_word key ib hkb hq h16, ← chaLoadKey_word key' ib hkb hq h16, h]
  rw [← List.getD_eq_getElem key 0 hj, ← List.getD_eq_getElem key' 0 hj']
  exact getD_eq_of_le32_eq hword (by omega) (by omega)

/-- Settles O57. -/
theorem chaChaKeyLoadingIsInjective : Obligations.ChaChaKeyLoadingIsInjective :=
  fun _ _ _ => chaLoadKey_injective 64

end Sys2Proof.Machine
end

section
/-! PROOF. Variant `RC4` (48_variant_table.md part 2): the table stays a permutation (R310), a repeated key gives the same
table (R306, R311), and every epoch has one keystream (R307, R308, R312). -/

namespace Sys2Proof.Machine

/-! ### The table -/

theorem rc4At_rc4Identity (k : Byte) : rc4At rc4Identity k = k := by simp [rc4Identity, rc4At]

/-- Reading after a swap is reading at the swapped index. -/
theorem rc4At_rc4Swap (p : Vector Byte 256) (i j k : Byte) :
    rc4At (rc4Swap p i j) k = rc4At p (Equiv.swap i j k) := by
  simp only [rc4Swap, rc4At, Vector.getElem_set, BitVec.toNat_inj]
  by_cases hj : j = k
  · subst hj
    simp
  · by_cases hi : i = k
    · subst hi
      simp [hj]
    · simp [hi, hj, Equiv.swap_apply_of_ne_of_ne (Ne.symm hi) (Ne.symm hj)]

theorem isPermutationTable_rc4Identity : IsPermutationTable rc4Identity := by
  intro a b h
  rwa [rc4At_rc4Identity, rc4At_rc4Identity] at h

theorem IsPermutationTable.rc4Swap {p : Vector Byte 256} (hp : IsPermutationTable p) (i j : Byte) :
    IsPermutationTable (rc4Swap p i j) := by
  intro a b h
  rw [rc4At_rc4Swap, rc4At_rc4Swap] at h
  exact (Equiv.swap i j).injective (hp _ _ h)

/-- Every turn of the key scheduling swaps two places. -/
theorem isPermutationTable_foldl_rc4KeyTurn (key : List Byte) (l : Nat) (turns : List Nat) {pj : Vector Byte 256 × Byte}
    (hp : IsPermutationTable pj.1) : IsPermutationTable (turns.foldl (rc4KeyTurn key l) pj).1 := by
  induction turns generalizing pj with
  | nil => exact hp
  | cons i turns ih => exact ih (hp.rc4Swap _ _)

/-- Settles O58: the table begins as the identity, and loading and stepping swap places of it. -/
theorem rc4TableStaysAPermutation : Obligations.Rc4TableStaysAPermutation :=
  ⟨isPermutationTable_rc4Identity,
    fun key kb _ => isPermutationTable_foldl_rc4KeyTurn key (kb / 8) _ isPermutationTable_rc4Identity,
    fun _ _ hp => hp.rc4Swap _ _⟩

/-! ### Repeated keys -/

/-- A key read round and round is its repetition read round and round. -/
theorem getD_append_self_mod (key : List Byte) (i : Nat) :
    (key ++ key).getD (i % (2 * key.length)) 0 = key.getD (i % key.length) 0 := by
  rcases eq_or_ne key [] with rfl | hne
  · simp
  have hmod : i % (2 * key.length) % key.length = i % key.length := Nat.mod_mul_left_mod i 2 key.length
  rcases lt_or_ge (i % (2 * key.length)) key.length with hfirst | hsecond
  · rw [List.getD_append _ _ _ _ hfirst, ← hmod, Nat.mod_eq_of_lt hfirst]
  · have hlt := Nat.mod_lt i (Nat.mul_pos Nat.two_pos (List.length_pos_iff.2 hne))
    have hsub : i % (2 * key.length) - key.length < key.length := by omega
    rw [List.getD_append_right _ _ _ _ hsecond, ← hmod, Nat.mod_eq_sub_mod hsecond, Nat.mod_eq_of_lt hsub]

theorem rc4KeyTurn_append_self (key : List Byte) :
    rc4KeyTurn (key ++ key) (2 * key.length) = rc4KeyTurn key key.length := by
  funext pj i
  simp only [rc4KeyTurn, getD_append_self_mod]

/-- Settles O59: every turn of the key scheduling reads the same key byte. -/
theorem rc4RepeatedKeyGivesTheSameTable : Obligations.Rc4RepeatedKeyGivesTheSameTable := by
  intro key _ _
  have honce : 8 * key.length / 8 = key.length := by omega
  have htwice : 16 * key.length / 8 = 2 * key.length := by omega
  rw [rc4LoadKey, rc4LoadKey, honce, htwice, rc4KeyTurn_append_self]

/-! ### The keystream of an epoch -/

/-- The table after one step (R308). -/
def rc4Next (rg : Regime) (x : Rc4Table) : Rc4Table := (rc4Advance rg x).1

/-- A chunk is one unit, so it takes one step. -/
theorem Engine.afterChunks_rc4 (rg : Regime) (r : Regs Rc4Table) (m : Nat) :
    (Engine.rc4 r).afterChunks rg m = .rc4 { r with S := (rc4Next rg)^[m] r.S } := by
  induction m with
  | zero => rfl
  | succ m ih => rw [Engine.afterChunks, ih, Function.iterate_succ_apply']; rfl

theorem Engine.chunk_rc4 (rg : Regime) (r : Regs Rc4Table) (m : Nat) :
    (Engine.rc4 r).chunk rg m = [(rc4Advance rg ((rc4Next rg)^[m] r.S)).2] := by
  rw [Engine.chunk, Engine.afterChunks_rc4]; rfl

theorem Engine.keystream_rc4 (rg : Regime) (r : Regs Rc4Table) (p : Nat) :
    (Engine.rc4 r).keystream rg p = (rc4Advance rg ((rc4Next rg)^[p] r.S)).2 := by
  have hchunk : (Engine.rc4 r).chunkLen = 1 := rfl
  rw [Engine.keystream, hchunk, Nat.div_one, Nat.mod_one, Engine.chunk_rc4]; rfl

theorem State.epochStart_rc4 {s : State} {r : Regs Rc4Table} (iv : List Byte) (h : s.engine = .rc4 r) :
    s.epochStart iv = .rc4 ⟨r.K0, r.K0⟩ := by rw [State.epochStart, h]; rfl

/-- Settles O60: an epoch starts from `K0` whatever the IV, and its byte `p` is the unit of step `p`. -/
theorem rc4EveryEpochRestartsTheSameKeystream : Obligations.Rc4EveryEpochRestartsTheSameKeystream := by
  intro s r iv h
  have hstart := State.epochStart_rc4 iv h
  exact ⟨hstart, fun p => hstart ▸ Engine.keystream_rc4 s.regime ⟨r.K0, r.K0⟩ p⟩

end Sys2Proof.Machine
end

section
/-! PROOF. Rejected commands (60_exceptions.md): when each status is answered (R330 to R332, R334, R338), and that a rejected
command changes nothing but the response and reads no buffer (R336). `rejects_iff` says once which command rejects what. Then
the acts of the host between commands (R351, R352). -/

namespace Sys2Proof.Machine

/-! ### The sequence checks -/

/-- The check of phase and mode that follows `init_done` (R338 item 3); INIT makes neither. -/
def sequenceCheck : Instr → State → Bool
  | .init, _ => true
  | .keysetup _ _, s => keysetupLegal s
  | .ivsetup, s => ivLegal s
  | .encryptBytes _, s => streamLegal s
  | .decryptBytes _, s => streamLegal s
  | .keystreamBytes _, s => streamLegal s
  | .encryptBlocks _, s => blockLegal s
  | .decryptBlocks _, s => blockLegal s
  | .encryptPacket _, s => ivLegal s
  | .decryptPacket _, s => ivLegal s

/-- The status of a command whose operands are none it accepts (R330, R332). Only KEYSETUP and the block commands have such
operands. -/
def operandError : Instr → Status
  | .keysetup _ _ => .invalidParameter
  | _ => .invalidLength

/-- Nothing but `OK` is answered, if anything is. -/
def AnswersOk (o : Result) : Prop := ∀ t, o = .next t → ∃ data, t.response = some ⟨0, data⟩

theorem accept_answersOk (data : List Byte) (s : State) : AnswersOk (accept data s) := by
  intro t h
  cases h
  exact ⟨data, rfl⟩

theorem thenDo_answersOk {α : Type} {o : Host.Outcome α Fault Refusal} {f : α → Result} (hf : ∀ a, AnswersOk (f a)) :
    AnswersOk (thenDo o f) := by
  intro t h
  obtain ⟨a, _, ha⟩ := thenDo_next h
  exact hf a t ha

/-- R338: every command but INIT makes the sequence checks, then the check of its operands, and past them rejects no more. -/
theorem exec_checks {i : Instr} (hi : i ≠ .init) : ∃ body : State → Result,
    (∀ s, exec i s = sequenced (sequenceCheck i)
      (requiring (fun s => operandsGood i s.engine.params) (operandError i) body) s) ∧ ∀ s, AnswersOk (body s) := by
  cases i with
  | init => exact absurd rfl hi
  | keysetup | ivsetup | encryptBytes | decryptBytes | encryptBlocks | decryptBlocks =>
    exact ⟨_, fun _ => rfl, fun _ => thenDo_answersOk fun _ => accept_answersOk _ _⟩
  | keystreamBytes => exact ⟨_, fun _ => rfl, fun _ => accept_answersOk _ _⟩
  | encryptPacket | decryptPacket =>
    exact ⟨_, fun _ => rfl, fun _ => thenDo_answersOk fun _ => thenDo_answersOk fun _ => accept_answersOk _ _⟩

theorem streamLegal_eq_false_iff {s : State} :
    streamLegal s = false ↔ s.phase = .uninitialized ∨ s.phase = .keyed := by
  cases hphase : s.phase <;> simp [streamLegal, hphase]

theorem blockLegal_eq_false_iff {s : State} :
    blockLegal s = false ↔ s.phase = .uninitialized ∨ s.phase = .keyed ∨ s.mode = .byte := by
  simp only [blockLegal, Bool.and_eq_false_iff, streamLegal_eq_false_iff, decide_eq_false_iff_not, not_not, or_assoc]

theorem ivLegal_eq_false_iff {s : State} : ivLegal s = false ↔ s.phase = .uninitialized := by simp [ivLegal]

theorem keysetupLegal_eq_false_iff {s : State} :
    keysetupLegal s = false ↔ ¬(s.phase = .uninitialized ∨ (s.rekey = true ∧ s.phase = .keyed)) := by
  rw [← Bool.not_eq_true, keysetupLegal_iff]

/-- The table of R331 is the failure of a sequence check. -/
theorem sequenceErrorCondition_iff (i : Instr) (s : State) :
    SequenceErrorCondition i s ↔ i ≠ .init ∧ (s.initDone = false ∨ sequenceCheck i s = false) := by
  cases i <;>
    simp [SequenceErrorCondition, sequenceCheck, keysetupLegal_eq_false_iff, ivLegal_eq_false_iff,
      streamLegal_eq_false_iff, blockLegal_eq_false_iff]


/-! ### Which command rejects what -/

theorem Status.word_injective : Function.Injective Status.word := by
  intro e e' h
  cases e <;> cases e' <;> simp [Status.word] at h ⊢

theorem State.status_eq_of_respond_eq {s s' : State} {e e' : Status} {data data' : List Byte}
    (h : s.respond e data = s'.respond e' data') : e = e' := by
  obtain ⟨hword, _⟩ := Response.mk.inj (Option.some.inj (congrArg State.response h))
  exact Status.word_injective hword

theorem Accepted.response {i : Instr} {s t : State} (h : Accepted i s t) : ∃ data, t.response = some ⟨0, data⟩ := by
  cases h with
  | init | keysetup | ivsetup | keystreamBytes | bytes | blocks | packet => exact ⟨_, rfl⟩

/-- A command is rejected under the conditions of the table of R331, or past them for its operands, and for nothing else. -/
theorem rejects_iff {i : Instr} {s : State} {e : Status} (he : e ≠ .ok) :
    Rejects i s e ↔ (e = .sequenceError ∧ SequenceErrorCondition i s) ∨
      (e = operandError i ∧ ¬SequenceErrorCondition i s ∧ operandsGood i s.engine.params = false) := by
  by_cases hi : i = .init
  · subst hi
    have hnot : ¬Rejects .init s e := by
      intro h
      have hstates : s.setInitDone.respond .ok [] = s.respond e [] := Host.Outcome.next.inj h
      exact he (State.status_eq_of_respond_eq hstates).symm
    simp [hnot, SequenceErrorCondition, operandsGood]
  obtain ⟨body, hexec, hok⟩ := exec_checks hi
  rw [Rejects, hexec, sequenceErrorCondition_iff]
  constructor
  · intro h
    rcases sequenced_next h with ⟨ht, hfails⟩ | ⟨hinit, hlegal, h⟩
    · exact .inl ⟨State.status_eq_of_respond_eq ht, hi, hfails⟩
    · rcases requiring_next h with ⟨ht, hbad⟩ | ⟨_, h⟩
      · exact .inr ⟨State.status_eq_of_respond_eq ht, by simp [hinit, hlegal], hbad⟩
      · obtain ⟨data, hresponse⟩ := hok s _ h
        obtain ⟨hword, _⟩ := Response.mk.inj (Option.some.inj hresponse)
        exact absurd (Status.word_eq_zero_iff.1 hword) he
  · rintro (⟨rfl, _, hinit | hillegal⟩ | ⟨rfl, hpasses, hbad⟩)
    · exact sequenced_before_init hinit
    · exact sequenced_illegal hillegal
    · obtain ⟨hinit, hlegal⟩ : s.initDone = true ∧ sequenceCheck i s = true := by simpa [hi] using hpasses
      exact (sequenced_passes hinit hlegal).trans (requiring_fails hbad)

/-- Settles O37: an operand error is never `SequenceError`. -/
theorem sequenceErrorExactlyAsTheTableSays : Obligations.SequenceErrorExactlyAsTheTableSays := by
  intro i s
  have hother : Status.sequenceError ≠ operandError i := by cases i <;> simp [operandError]
  simp [rejects_iff (by decide : Status.sequenceError ≠ .ok), hother]

/-- R332: of all commands KEYSETUP alone answers `InvalidParameter`. -/
theorem invalidParameter_iff (i : Instr) (p : Params) :
    .invalidParameter = operandError i ∧ operandsGood i p = false ↔
      ∃ kb ib, i = .keysetup kb ib ∧ ¬(p.keySizeOk kb.toNat = true ∧ p.ivSizeOk ib.toNat = true) := by
  cases i <;> simp [operandError, operandsGood]

/-- R330: of all commands the block commands alone answer `InvalidLength`. -/
theorem invalidLength_iff (i : Instr) (p : Params) :
    .invalidLength = operandError i ∧ operandsGood i p = false ↔
      ∃ len, (i = .encryptBlocks len ∨ i = .decryptBlocks len) ∧ len.toNat % p.blockLen ≠ 0 := by
  cases i <;> simp [operandError, operandsGood]

/-- Settles O38. -/
theorem operandErrorsExactlyAfterTheSequenceChecks : Obligations.OperandErrorsExactlyAfterTheSequenceChecks := by
  refine ⟨fun i s => ?parameter, fun i s => ?length⟩
  case parameter =>
    rw [rejects_iff (by decide), and_left_comm, invalidParameter_iff]
    simp only [reduceCtorEq, false_and, false_or, ← exists_and_left, and_left_comm]
  case length =>
    rw [rejects_iff (by decide), and_left_comm, invalidLength_iff]
    simp only [reduceCtorEq, false_and, false_or, ← exists_and_left, and_left_comm]

/-- The conditions of a rejection speak of the session, the header and the variant, of no buffer (R336). -/
theorem Rejects.of_other_buffers {i : Instr} {s : State} {e : Status} (he : e ≠ .ok) (h : Rejects i s e)
    (kb iv di dt : Memory) : Rejects i { s with keybuf := kb, ivbuf := iv, din := di, dout := dt } e := by
  have hsequence : SequenceErrorCondition i { s with keybuf := kb, ivbuf := iv, din := di, dout := dt } ↔
      SequenceErrorCondition i s := by cases i <;> rfl
  rw [rejects_iff he] at h ⊢
  rwa [hsequence]

/-- Settles O39: an illegal header is answered without a look at the state, and an accepted command answers `OK`. -/
theorem rejectedCommandChangesAndReadsNothing : Obligations.RejectedCommandChangesAndReadsNothing := by
  intro hd s t r hrun hresponse hst
  rcases runHeader_next hrun with ⟨i, hdecode, hexec⟩ | ⟨⟨e, hdecode⟩, rfl⟩
  · rcases exec_next hexec with ⟨e, he, rfl⟩ | haccepted
    · cases hresponse
      refine ⟨rfl, fun kb iv di dt => ?_⟩
      rw [runHeader_of_decode hdecode]
      exact Rejects.of_other_buffers he hexec kb iv di dt
    · obtain ⟨data, hok⟩ := haccepted.response
      cases hok.symm.trans hresponse
      exact absurd rfl hst
  · cases hresponse
    exact ⟨rfl, fun kb iv di dt => by rw [runHeader, hdecode]; rfl⟩

/-- Settles O40: an accepted command answers 0, and a rejected one what `rejects_iff` allows it. -/
theorem statusIsOneTheTableAllows : Obligations.StatusIsOneTheTableAllows := by
  intro i s t hexec
  rcases exec_next hexec with ⟨e, he, rfl⟩ | haccepted
  · refine ⟨_, rfl, ?_⟩
    rcases (rejects_iff he).1 hexec with ⟨rfl, hfails⟩ | ⟨rfl, _, hbad⟩
    · cases i with
      | init => exact hfails.elim
      | _ => simp [Status.word]
    · cases i with
      | keysetup | encryptBlocks | decryptBlocks => simp [operandError, Status.word]
      | _ => cases hbad
  · obtain ⟨data, hok⟩ := haccepted.response
    exact ⟨_, hok, by cases i <;> simp⟩

/-! ### The host between commands -/

/-- Settles O6. -/
theorem idleEngineHoldsItsState : Obligations.IdleEngineHoldsItsState := fun _ => step_of_idle

@[simp] theorem State.buffer_setBuffer (s : State) (m : Memory) (sp : Space) : (s.setBuffer m sp).buffer sp = m := by
  cases sp <;> rfl

theorem State.buffer_setBuffer_of_ne (s : State) (m : Memory) {sp sp' : Space} (h : sp' ≠ sp) :
    (s.setBuffer m sp).buffer sp' = s.buffer sp' := by
  cases sp <;> cases sp' <;> simp [State.setBuffer, State.buffer] at h ⊢

theorem State.setBuffer_frame (s : State) (m : Memory) (sp : Space) :
    s.setBuffer m sp = { s with
      keybuf := (s.setBuffer m sp).keybuf, ivbuf := (s.setBuffer m sp).ivbuf, din := (s.setBuffer m sp).din,
      dout := (s.setBuffer m sp).dout } := by
  cases sp <;> rfl

/-- Settles O7: what the fill writes is read back from its buffer, and the other buffers are as they were. -/
theorem hostFillWritesOnlyItsBytes : Obligations.HostFillWritesOnlyItsBytes := by
  intro s sp a bs rest hheader hhost
  have hbuffer (sp' : Space) : ({ s with host := rest } : State).buffer sp' = s.buffer sp' := by cases sp' <;> rfl
  refine ⟨_, step_of_host hheader hhost, fun k => ?_, fun sp' h => ?_, State.setBuffer_frame _ _ sp⟩
  · rw [State.buffer_setBuffer, Memory.read_write, hbuffer]
  · rw [State.buffer_setBuffer_of_ne _ _ h, hbuffer]

end Sys2Proof.Machine
end

section
/-! PROOF. Reset and hazards (70_reset_and_hazards.md): what `Reset` leaves (R360), what it leaves in `DOUT` during a command
(R372), and what a reused IV reveals (R374). -/

namespace Sys2Proof.Machine

/-! ### Reset -/

/-- Settles O9. -/
theorem resetEventReturnsToUninitialized : Obligations.ResetEventReturnsToUninitialized := by
  intro s rest hheader hhost
  exact ⟨_, step_of_host hheader hhost, rfl, rfl, rfl, rfl, rfl, Engine.atReset_variant s.engine, rfl, rfl, rfl, rfl, rfl,
    rfl, rfl, rfl⟩

theorem resetDuring_of_runHeader {hd : Header} {s u : State} (h : runHeader hd s = .next u) :
    resetDuring hd s = .next { resetEngine s with
      dout := partlyWritten s.freeCount 0 (responseData u) s.dout
      freeCount := s.freeCount + (responseData u).length } := by rw [resetDuring, h, thenDo]

/-- The data an accepted command returns stand in `DOUT` from index 0 on: by R200 for the streaming commands, and the setup
commands return none. -/
theorem Accepted.read_dout {i : Instr} {s t : State} (h : Accepted i s t) (hexec : exec i s = .next t) {k : Nat}
    (hk : k < (responseData t).length) : Memory.read t.dout k = (responseData t)[k]? := by
  obtain ⟨data, hok⟩ := h.response
  have hdata : responseData t = data := by rw [responseData, hok]
  have hreturned := acceptedCommandsReturnLenBytes i s t data hexec hok
  rw [hdata] at hk ⊢
  cases i with
  | init | keysetup | ivsetup => simp [show data = [] from hreturned] at hk
  | _ =>
    obtain ⟨hlen, hread, _⟩ := hreturned
    exact hread k (hlen ▸ hk)

/-- The same for any header: a rejected command returns nothing. -/
theorem runHeader_read_dout {hd : Header} {s t : State} (h : runHeader hd s = .next t) {k : Nat}
    (hk : k < (responseData t).length) : Memory.read t.dout k = (responseData t)[k]? := by
  rcases runHeader_next h with ⟨i, _, hexec⟩ | ⟨_, rfl⟩
  · rcases exec_next hexec with ⟨e, _, rfl⟩ | haccepted
    · exact absurd hk (Nat.not_lt_zero k)
    · exact haccepted.read_dout hexec hk
  · exact absurd hk (Nat.not_lt_zero k)

/-- Settles O11: `DOUT` is partly written with the data the command would have returned, which it would have left there. -/
theorem resetDuringCommandLeavesEachByteOldOrNew : Obligations.ResetDuringCommandLeavesEachByteOldOrNew := by
  intro s u hd rest hheader hhost hrun
  refine ⟨_, (step_of_host hheader hhost).trans (resetDuring_of_runHeader hrun), rfl, rfl, rfl, rfl, rfl, rfl, rfl, rfl,
    Engine.atReset_variant s.engine, rfl, rfl, rfl, rfl, fun k => ?_⟩
  rcases partlyWritten_read (responseData u) s.freeCount 0 k s.dout with hold | ⟨_, hk, hnew⟩
  · exact .inl hold
  · rw [Nat.zero_add] at hk
    exact .inr (hnew.trans (runHeader_read_dout hrun hk).symm)

/-! ### Reused IVs -/

/-- Two outputs under one stretch of keystream differ as the inputs do. -/
theorem xorBytes_common_keystream {m m' ks : List Byte} (h : m.length = ks.length) (h' : m'.length = ks.length) :
    xorBytes (xorBytes m ks) (xorBytes m' ks) = xorBytes m m' := by
  have hcancel (a b x : Byte) : (a ^^^ x) ^^^ (b ^^^ x) = a ^^^ b := by
    rw [BitVec.xor_assoc, BitVec.xor_comm x, BitVec.xor_assoc, BitVec.xor_self, BitVec.xor_zero]
  refine List.ext_getElem (by simp [xorBytes, h, h']) fun k _ _ => ?_
  simp only [xorBytes, List.getElem_zipWith, hcancel]

/-- What an accepted packet command has read and left. -/
theorem Accepted.packet_result {i : Instr} {len : BitVec 28} {s t : State} (h : Accepted i s t)
    (hi : i = .encryptPacket len ∨ i = .decryptPacket len) :
    ∃ iv din, readIv s = .next iv ∧ readDin len s = .next din ∧ t = byteResult din len.toNat (ivStep iv s) := by
  cases h with
  | packet _ len' hi' iv din _ _ _ hiv hread =>
    obtain rfl : len' = len := by rcases hi with rfl | rfl <;> simpa [eq_comm] using hi'
    exact ⟨iv, din, hiv, hread, rfl⟩
  | bytes _ _ hi' | blocks _ _ hi' => rcases hi with rfl | rfl <;> simp at hi'
  | _ => simp at hi

/-- However an epoch is begun and its message segmented, what is returned is the message combined with the keystream of the
epoch of the IV read. -/
theorem EpochMaps.output {s : State} {m c : List Byte} (h : EpochMaps s m c) :
    ∃ iv, readIv s = .next iv ∧ c = xorBytes m ((s.epochStart iv).keystreamBytes s.regime 0 m.length) := by
  rcases h with ⟨blocks, bytes, u, v, hexec, hok, hblocks, hbytes, rfl, hrun⟩ | ⟨i, len, t, hi, hmessage, hexec, hok⟩
  · obtain ⟨iv, hread, hstreams⟩ := exec_ivsetup_then_streams hexec hok
    obtain ⟨v', hrun'⟩ := hstreams blocks bytes hblocks hbytes
    rw [hrun] at hrun'
    exact ⟨iv, hread, (Prod.mk.inj (Option.some.inj hrun')).2⟩
  · obtain ⟨iv, din, hiv, hread, rfl⟩ := (Accepted.of_response_ok hexec hok).packet_result hi
    obtain rfl : din = m := Option.some.inj ((readDin_next.1 hread).symm.trans hmessage)
    have hlen := length_of_readDin hread
    have hresponse := (byteResult_ivStep_xorsKeystream (iv := iv) s hlen).response
    exact ⟨iv, hiv, hlen ▸ data_eq_of_response (hok.symm.trans hresponse)⟩

/-- Settles O35: both epochs have one keystream. -/
theorem reusedIvRevealsTheXorOfTheMessages : Obligations.ReusedIvRevealsTheXorOfTheMessages := by
  intro s s' m m' c c' hsame hlen h h'
  obtain ⟨iv, hread, rfl⟩ := h.output
  obtain ⟨iv', hread', rfl⟩ := h'.output
  obtain rfl : iv' = iv := hsame.iv_eq hread hread'
  have hkeeps := hsame.keepsKeySchedule
  rw [hkeeps.epochStart_eq, hkeeps.regime, hlen]
  exact xorBytes_common_keystream (hlen.trans (Engine.keystreamBytes_length _ _ _ _).symm)
    (Engine.keystreamBytes_length _ _ _ _).symm

end Sys2Proof.Machine
end
